-- ==== Sys2Proof/Word.lean ====
section
/-! DEFINITION. The word types of HUFFCORE: register words, bytes and bit strings (00_scope.md R8, R9). -/

namespace Sys2Proof

/-- A register word or a memory address: 32 bits, unsigned (R8, R14). -/
abbrev Word := BitVec 32

/-- A byte of system memory, and a symbol of the alphabet 0..255 (R8, R12). -/
abbrev Byte := BitVec 8

/-- A bit string, first symbol first: codes and encoded sequences (R9 (b), R10). -/
abbrev Bits := List Bool

end Sys2Proof
end

