-- ==== Sys2Proof/Config.lean ====
section
/-! DEFINITION. The free values that stand for the spec's `any` draws (00_scope.md R13), and the platform's open
parameters (00_scope.md R8, 92_eei_decisions.md). -/

namespace Sys2Proof.Config

/-- Which 32-bit value a draw stands for. -/
inductive WordSlot where
  /-- FREQ[s] (60_exceptions.md R322). -/
  | freq (s : Nat)
  /-- DIGEST_ACT word i (R322). -/
  | digestAct (i : Nat)
  /-- DIGEST_EXP word i (R322). -/
  | digestExp (i : Nat)
  /-- BIT_LEN (R322). -/
  | bitLen
  /-- OUT_LEN of a command whose source the host raced (20_memory.md R93 item 3). -/
  | outLen
  /-- ERR_INFO of a command whose source the host raced (R93 item 3). -/
  | errInfo
  /-- The word a register read returns while BUSY (10_state.md R48). -/
  | read
deriving DecidableEq, Repr

/-- Which one-bit value a draw stands for. -/
inductive BitSlot where
  /-- FREQ_V, TABLE_V, DIGEST_V, EXP_V as STATUS[11:8] reads while BUSY (10_state.md R48), or after a raced
  command (R93 item 3). -/
  | freqV
  | tableV
  | digestV
  | expV
deriving DecidableEq, Repr

/-- Which choice a draw stands for. -/
inductive ChoiceSlot where
  /-- The address, and in item 3 whether BUS occurs, of 60_exceptions.md R316. -/
  | bus
  /-- Success or which error class, of a command whose source the host raced (R93 item 3). -/
  | outcome
  /-- The FORMAT subcode of such a command. -/
  | sub
deriving DecidableEq, Repr

/-- FREE VALUE (log entry 3): the 32-bit value of draw `n`. It has no known value; claims hold for every one. -/
opaque anyWord : (n : Nat) → WordSlot → Word

/-- FREE VALUE (log entry 3): the byte of draw `n` at an address. -/
opaque anyByte : (n : Nat) → (addr : Nat) → Byte

/-- FREE VALUE (log entry 3): the bit string of draw `n` for a symbol. -/
opaque anyCode : (n : Nat) → (sym : Nat) → Bits

/-- FREE VALUE (log entry 3): the bit of draw `n`. -/
opaque anyBit : (n : Nat) → BitSlot → Bool

/-- FREE VALUE (log entry 3): the choice of draw `n`, read modulo the number of things to choose from. -/
opaque anyChoice : (n : Nat) → ChoiceSlot → Nat

end Sys2Proof.Config

namespace Sys2Proof

/-- A range of addresses that answers the block's accesses of some kinds with a bus error. -/
structure BusFault where
  base : Nat
  size : Nat
  /-- Reads of the range get a bus error. -/
  read : Bool
  /-- Writes of the range get a bus error. -/
  write : Bool
deriving DecidableEq, Repr

/-- The parameter REG_ERR_RESPONSE: what the host sees of an illegal register access (20_memory.md R88).
DESIGN CHOICE, unsafe (log entry 19): one response for all of them, reads and writes, at every address. R88 leaves to
the platform whether they differ. -/
inductive RegErrResponse where
  /-- A bus fault. -/
  | busFault
  /-- A discarded write, or a read of `value`. -/
  | discarded (value : Word)
deriving DecidableEq, Repr

/-- The platform around the block: the open parameters of R8, fixed for a run (log entry 5). REG_LANE_ORDER is not
observable and is not here (R85). -/
structure Platform where
  /-- HUFF_BASE[31:14]. The base is 16 KiB aligned, so bits 13:0 are 0 (R8, R31). -/
  huffBase : BitVec 18
  /-- BusOk, by the ranges where it is false (R8, R316). -/
  busFaults : List BusFault
  /-- REG_ERR_RESPONSE (R88). -/
  regErr : RegErrResponse
  /-- COHERENT_DMA (R97). -/
  coherentDma : Bool
deriving DecidableEq, Repr

end Sys2Proof
end

