-- ==== Sys2Proof/Syntax.lean ====
section
/-! DEFINITION. The syntax: the ten commands of spec/opcode_table.json and the accesses a host makes. -/

namespace Sys2Proof

/-- The commands of the opcode map (30_encoding.md R111). No command has an operand field (R113). -/
inductive Instr where
  | nop
  | count
  | build
  | encode
  | decode
  | digest
  | tblStore
  | tblLoad
  | compress
  | decompress
deriving DecidableEq, Repr

/-- What the outside world does to the machine, one step each (D43), and the mark of the sequencer's turn.
The host statements are R117's; a register access may have any address and any width in bytes, because R46 and
R88 say what an illegal one does. -/
inductive Input where
  /-- `WR`: a write on the register port of `width` bytes (R46, R117). -/
  | regWrite (addr : Word) (width : Nat) (value : Word)
  /-- `RD`: a read on the register port of `width` bytes (R46, R117). -/
  | regRead (addr : Word) (width : Nat)
  /-- `POLL`: repeat a 32-bit register read until `(read & mask) = value` (R117). -/
  | poll (addr : Word) (mask value : Word)
  /-- `MEMW`: the host writes the listed bytes to system memory from `addr` upward (R117, R99). -/
  | memWrite (addr : Word) (bytes : List Byte)
  /-- `MEMR`: the host reads `n` bytes of system memory from `addr` (R117, R99). -/
  | memRead (addr : Word) (n : Nat)
  /-- The host cleans its caches over `n` bytes from `addr` (R97). -/
  | cacheClean (addr : Word) (n : Nat)
  /-- The host invalidates its caches over `n` bytes from `addr` (R97). -/
  | cacheInvalidate (addr : Word) (n : Nat)
  /-- The reset input is asserted and released: one reset step (R350). -/
  | hardReset
  /-- The block's sequencer takes its turn here: a running command ends (R320, R325, log entry 1). -/
  | sequencer
deriving DecidableEq, Repr

end Sys2Proof
end

