-- ==== Sys2Proof/WellFormed.lean ====
section
/-! DEFINITION. Well-formedness: which command words are legal, and which host accesses name bytes that exist. -/

namespace Sys2Proof

/-- A legal command word: bits 31:8 are 0 and bits 7:0 are one of the ten opcodes (30_encoding.md R112), said by
the reserved ranges of R115. -/
def wordLegal (w : Word) : Bool :=
  w.extractLsb' 8 24 == 0 &&
    (decide ((w.extractLsb' 0 8).toNat ≤ 0x07) || w.extractLsb' 0 8 == 0x10 || w.extractLsb' 0 8 == 0x11)

/-- A command has no immediate and no register field (R113), so there is no field that could be out of range:
every term of `Instr` is well formed. -/
def Instr.wf (_ : Instr) : Bool := true

/-- The bytes `[addr, addr + n)` all exist in system memory (20_memory.md R80). -/
def bytesExist (addr : Word) (n : Nat) : Bool := decide (addr.toNat + n ≤ 2 ^ 32)

/-- A host access names only bytes that exist (R80). Register accesses need no check: R46 and R88 give every one
an effect. -/
def Input.wf : Input → Bool
  | .regWrite _ _ _ => true
  | .regRead _ _ => true
  | .poll _ _ _ => true
  | .memWrite a bs => bytesExist a bs.length
  | .memRead a n => bytesExist a n
  | .cacheClean a n => bytesExist a n
  | .cacheInvalidate a n => bytesExist a n
  | .hardReset => true
  | .sequencer => true

end Sys2Proof
end

