-- ==== Sys2Proof/Decode.lean ====
section
/-! DEFINITION. The command decoder, total on every 32-bit word and rejecting by name, and the encoder
(30_encoding.md R110 to R116). -/

namespace Sys2Proof

/-- Why a command word is illegal (R112, R115). -/
inductive DecodeError where
  /-- RSV, bits 31:8, is not 0. -/
  | reservedBits
  /-- OP, bits 7:0, is none of the ten opcodes. -/
  | reservedOpcode
deriving DecidableEq, Repr

/-- The opcode map (R111). -/
def opcodeTable : List (BitVec 8 × Instr) :=
  [(0x00, .nop), (0x01, .count), (0x02, .build), (0x03, .encode), (0x04, .decode), (0x05, .digest),
   (0x06, .tblStore), (0x07, .tblLoad), (0x10, .compress), (0x11, .decompress)]

/-- OP, bits 7:0 (R110). -/
def opField (w : Word) : BitVec 8 := w.extractLsb' 0 8

/-- RSV, bits 31:8 (R110). -/
def rsvField (w : Word) : BitVec 24 := w.extractLsb' 8 24

/-- Decoding of a command word (R112). Total: every word is one command or illegal. -/
def decodeWord (w : Word) : Except DecodeError Instr :=
  if rsvField w ≠ 0 then .error .reservedBits
  else
    match opcodeTable.find? (fun r => r.1 == opField w) with
    | some r => .ok r.2
    | none => .error .reservedOpcode

/-- The opcode of a command (R111). -/
def Instr.opcode : Instr → BitVec 8
  | .nop => 0x00
  | .count => 0x01
  | .build => 0x02
  | .encode => 0x03
  | .decode => 0x04
  | .digest => 0x05
  | .tblStore => 0x06
  | .tblLoad => 0x07
  | .compress => 0x10
  | .decompress => 0x11

/-- The command word of a command, `zext_32(OP)` (R110, R118). -/
def encode (i : Instr) : Word := i.opcode.setWidth 32

/-- The command the decoder reads from a table row's word `w` of `nbits` bits, bit 0 of `w` being bit 0 of the
command word. A command word is a 32-bit value on the register port (R110); its byte lanes are not observable
(R85), so the bits are laid out as the register word holds them. -/
def decodeTableWord (nbits w : Nat) : Option Instr :=
  match decodeWord (BitVec.ofNat 32 (w % 2 ^ nbits)) with
  | .ok i => some i
  | .error _ => none

end Sys2Proof
end

