-- ==== Sys2Proof/Machine/State.lean ====
section
/-! DEFINITION. The state of HUFFCORE as plain data, its stops and its reset state (10_state.md R30 to R60). -/

namespace Sys2Proof.Machine

/-- The sequencer's phase (R55). -/
inductive Phase where
  | idle
  | busy
deriving DecidableEq, Repr

/-- System memory by its listed bytes, in the canonical form of `Memory.wf` (R80). -/
abbrev Memory := List Host.Cell

/-- FREQ[0..255] (R50). -/
abbrev FreqTable := Vector Word 256

/-- CODE[0..255]; CODE_LEN[s] is the length of CODE[s] (R52, log entry 11). -/
abbrev CodeTable := Vector Bits 256

/-- The eight words of a digest, as DIGEST_ACT and DIGEST_EXP show them (R44, R45). -/
abbrev DigestWords := Vector Word 8

/-- The answer of a port to the host's last access (log entry 12). -/
inductive PortResponse where
  /-- No access yet. -/
  | none
  /-- A write, a cache operation or a reset was taken. -/
  | done
  /-- The word a register read returned. -/
  | word (w : Word)
  /-- The bytes a host read of system memory returned. -/
  | bytes (bs : List Byte)
  /-- The block's error response to an illegal register access, and what the platform makes of it (R88). -/
  | error (seen : RegErrResponse)
deriving DecidableEq, Repr

/-- Why a step stops with a fault. No command does (R310). -/
inductive Fault where
  /-- A host access to system memory names a byte past address 2^32 - 1, which does not exist (20_memory.md R80).
  Raised by `hostAccess`. Safe: the machine stops (log entry 14). -/
  | noSuchByte
deriving DecidableEq, Repr

/-- Why a step is refused. -/
inductive Refusal where
  /-- An instruction with no meaning in this model. No arm of `exec` uses it. Safe. -/
  | notModelled (mnemonic : String)
  /-- Phase BUSY with a CMD word that does not decode, which no run reaches (60_exceptions.md R326, R327).
  Raised by `step`. Safe (log entry 15). -/
  | noCommandInFlight (word : Word)
deriving DecidableEq, Repr

/-- The state of the machine: the block's registers and tables, system memory, the platform's parameters and the
model's own bookkeeping. Every field is listed in INVENTORY.md. -/
structure State where
  /-- phase (R55). -/
  phase : Phase
  /-- CTRL.IE (R33). -/
  ie : Bool
  /-- CMD (R34). -/
  cmd : Word
  /-- STATUS.DONE (R35). -/
  done : Bool
  /-- STATUS.ERR (R35). -/
  err : Bool
  /-- STATUS.OVR (R35). -/
  ovr : Bool
  /-- STATUS.FREQ_V (R40). -/
  freqV : Bool
  /-- STATUS.TABLE_V (R40). -/
  tableV : Bool
  /-- STATUS.DIGEST_V (R40). -/
  digestV : Bool
  /-- STATUS.EXP_V (R40). -/
  expV : Bool
  /-- ERROR.CODE (R36). -/
  errCode : BitVec 8
  /-- ERROR.SUB (R36). -/
  errSub : BitVec 8
  /-- ERR_INFO (R37). -/
  errInfo : Word
  /-- SRC_ADDR (R38). -/
  srcAddr : Word
  /-- SRC_LEN (R38). -/
  srcLen : Word
  /-- DST_ADDR (R38). -/
  dstAddr : Word
  /-- DST_CAP (R38). -/
  dstCap : Word
  /-- OUT_LEN (R39). -/
  outLen : Word
  /-- BIT_LEN (R41). -/
  bitLen : Word
  /-- DIGEST_ACT0..7 (R44). -/
  digestAct : DigestWords
  /-- DIGEST_EXP0..7 (R45). -/
  digestExp : DigestWords
  /-- FREQ[0..255] (R50). -/
  freq : FreqTable
  /-- CODE[0..255], with CODE_LEN (R52). -/
  code : CodeTable
  /-- System memory (R59, R80). -/
  mem : Memory
  /-- The platform's open parameters (R8, log entry 5). -/
  platform : Platform
  /-- The host's pending accesses and the sequencer's turns, next first (log entry 1). -/
  inputs : List Input
  /-- The answer to the host's last access (log entry 12). -/
  port : PortResponse
  /-- How many `any` draws were taken (R13, log entry 3). -/
  draws : Nat
  /-- The host broke duty 1 or 2 of R95 for the command in flight: its source bytes are not settled (R93 item 3). -/
  srcRace : Bool
  /-- The host wrote the destination region of the command in flight (R93 item 4). -/
  dstRace : Bool
  /-- Addresses the host wrote that its caches may still hold back (R97, log entry 10), ascending. -/
  dirty : List Nat
  /-- Addresses a command wrote that the host's caches may not show (R97, log entry 10), ascending. -/
  stale : List Nat
deriving DecidableEq, Repr

/-- The platform `State.reset` stands in (log entry 5): DESIGN CHOICE, the spec leaves each parameter open. -/
def Platform.atReset : Platform :=
  { huffBase := 0, busFaults := [], regErr := .busFault, coherentDma := true }

/-- The state right after a hardware reset (R60, R353): every register, flag and table at the value R60 gives.
Memory lists nothing (log entry 4), the platform is that of log entry 5, and nothing is pending. -/
def State.reset : State where
  phase := .idle
  ie := false
  cmd := 0
  done := false
  err := false
  ovr := false
  freqV := false
  tableV := false
  digestV := false
  expV := false
  errCode := 0
  errSub := 0
  errInfo := 0
  srcAddr := 0
  srcLen := 0
  dstAddr := 0
  dstCap := 0
  outLen := 0
  bitLen := 0
  digestAct := Vector.replicate 8 0
  digestExp := Vector.replicate 8 0
  freq := Vector.replicate 256 0
  code := Vector.replicate 256 []
  mem := []
  platform := Platform.atReset
  inputs := []
  port := .none
  draws := 0
  srcRace := false
  dstRace := false
  dirty := []
  stale := []

end Sys2Proof.Machine
end

