-- ==== Sys2Proof/Machine/Bits.lean ====
section
/-! DEFINITION. Bit order, byte order, tables over the 256 symbols and sets of addresses, each said once
(00_scope.md R9 to R12, 20_memory.md R83, R84, 10_state.md R44, R52). -/

namespace Sys2Proof.Machine

/-- `ceil8(L)`, the bytes that hold L bits (R11). -/
def ceil8 (l : Nat) : Nat := (l + 7) / 8

/-- The byte whose bit 7 - i is `f i`: the first bit is the most significant (R84). -/
def byteOfBits (f : Nat → Bool) : Byte :=
  BitVec.ofNat 8 ((List.range 8).foldl (fun acc i => 2 * acc + (f i).toNat) 0)

/-- Bit 7 - i of a byte: its i-th bit in storage order (R84). -/
def bitOfByte (b : Byte) (i : Nat) : Bool := b.getLsbD (7 - i)

/-- The number four bytes hold, most significant first (R12). A missing byte counts as 0; no rule reads one. -/
def be32 (bs : List Byte) : Nat :=
  (bs.getD 0 0).toNat * 2 ^ 24 + (bs.getD 1 0).toNat * 2 ^ 16 + (bs.getD 2 0).toNat * 2 ^ 8 + (bs.getD 3 0).toNat

/-- The four bytes of a number below 2^32, most significant first (R12). -/
def be32bytes (v : Nat) : List Byte :=
  [BitVec.ofNat 8 (v / 2 ^ 24), BitVec.ofNat 8 (v / 2 ^ 16), BitVec.ofNat 8 (v / 2 ^ 8), BitVec.ofNat 8 v]

/-- The vector of `f 0, …, f (n - 1)`. -/
def tabulate {α : Type} (n : Nat) (f : Nat → α) : Vector α n := ⟨⟨(List.range n).map f⟩, by simp⟩

/-- Digest word i = be32(d[4i], …, d[4i + 3]) (R44). -/
def digestWords (d : List Byte) : DigestWords := tabulate 8 fun i => BitVec.ofNat 32 (be32 (d.drop (4 * i)))

/-- CODE[s] (R52). -/
def codeOf (t : CodeTable) (s : Byte) : Bits := t[s.toNat]'s.isLt

/-- CODE_LEN[s], 8 bits (R52). -/
def codeLen (t : CodeTable) (s : Byte) : BitVec 8 := BitVec.ofNat 8 (codeOf t s).length

/-- The 256 symbols in ascending order (R8). -/
def symbols : List Byte := (List.range 256).map (BitVec.ofNat 8)

/-- A code table's domain with its codes: the symbols s with CODE_LEN[s] > 0, ascending (R52). -/
def entries (t : CodeTable) : List (Byte × Bits) :=
  (symbols.zip t.toList).filter fun e => !e.2.isEmpty

/-- The code table with the listed codes, and no code for any other symbol. -/
def tableOf (es : List (Byte × Bits)) : CodeTable :=
  tabulate 256 fun s => ((es.find? fun e => e.1.toNat == s).map (·.2)).getD []

/-- NUM_SYMS, a view of CODE_LEN (R42). -/
def numSyms (t : CodeTable) : Word := BitVec.ofNat 32 (entries t).length

/-- MAX_LEN, a view of CODE_LEN (R43). -/
def maxLen (t : CodeTable) : Word := BitVec.ofNat 32 ((entries t).foldl (fun m e => max m e.2.length) 0)

/-- Word `w` of the CODE_BITS window of a code: bit 31 - j is code bit 32·w + j, or 0 past the end (R52). -/
def codeBitsWord (c : Bits) (w : Nat) : Word :=
  BitVec.ofNat 32 ((List.range 32).foldl (fun acc j => 2 * acc + (c.getD (32 * w + j) false).toNat) 0)

/-- Two codes conflict when either is a prefix of the other (R10). -/
def conflict (a b : Bits) : Bool := a.isPrefixOf b || b.isPrefixOf a

/-- The ranges `[a, a + n)` and `[b, b + m)` share an address. -/
def rangesMeet (a n b m : Nat) : Bool := decide (0 < n ∧ 0 < m ∧ a < b + m ∧ b < a + n)

/-- An ascending list of addresses with `[a, a + n)` put in. -/
def addRange (a n : Nat) (xs : List Nat) : List Nat :=
  if n = 0 then xs else
  xs.filter (fun x => decide (x < a)) ++ List.range' a n ++ xs.filter (fun x => decide (a + n ≤ x))

/-- A list of addresses with `[a, a + n)` taken out. -/
def removeRange (a n : Nat) (xs : List Nat) : List Nat := xs.filter fun x => !(decide (a ≤ x) && decide (x < a + n))

end Sys2Proof.Machine
end

