-- ==== Sys2Proof/Machine/Errors.lean ====
section
/-! DEFINITION. The error classes, the FORMAT subcodes and ERR_INFO (60_exceptions.md R311 to R314). -/

namespace Sys2Proof.Machine

/-- The FORMAT subcodes (R312). -/
inductive FormatSub where
  | truncHeader
  | truncPayload
  | truncTblLen
  | truncTable
  | trailing
  | truncEntry
  | zeroLen
  | order
  | codePad
  | notPrefixFree
  | incompleteCode
  | emptyMismatch
  | padNonzero
  | invalidCode
  | truncatedCode
deriving DecidableEq, Repr

/-- ERROR.SUB of a FORMAT error (R312). -/
def FormatSub.number : FormatSub → BitVec 8
  | .truncHeader => 1
  | .truncPayload => 2
  | .truncTblLen => 3
  | .truncTable => 4
  | .trailing => 5
  | .truncEntry => 6
  | .zeroLen => 7
  | .order => 8
  | .codePad => 9
  | .notPrefixFree => 10
  | .incompleteCode => 11
  | .emptyMismatch => 12
  | .padNonzero => 13
  | .invalidCode => 14
  | .truncatedCode => 15

/-- An error of a command, with what ERR_INFO reports of it (R311, R313). -/
inductive CommandError where
  /-- The rejected command word. -/
  | illegalCmd (word : Word)
  /-- The subcode and its offset or bit index. -/
  | format (sub : FormatSub) (info : Nat)
  | integrity
  /-- The missing flag as a STATUS mask. -/
  | notReady (mask : Word)
  /-- The number of destination bytes the result needs. -/
  | capacity (bytes : Nat)
  /-- Bit 0: source wraps. Bit 1: destination wraps. Bit 2: overlap. -/
  | range (bits : Nat)
  /-- The address that got the bus error. -/
  | bus (addr : Nat)
  | tooLong
  /-- The source offset of the first byte with no code. -/
  | uncoded (offset : Nat)
deriving DecidableEq, Repr

/-- ERROR.CODE (R311). -/
def CommandError.number : CommandError → BitVec 8
  | .illegalCmd _ => 1
  | .format _ _ => 2
  | .integrity => 3
  | .notReady _ => 4
  | .capacity _ => 5
  | .range _ => 6
  | .bus _ => 7
  | .tooLong => 8
  | .uncoded _ => 9

/-- ERROR.SUB: the subcode of a FORMAT error, else 0 (R312, R36). -/
def CommandError.sub : CommandError → BitVec 8
  | .format sub _ => sub.number
  | .illegalCmd _ => 0
  | .integrity => 0
  | .notReady _ => 0
  | .capacity _ => 0
  | .range _ => 0
  | .bus _ => 0
  | .tooLong => 0
  | .uncoded _ => 0

/-- ERR_INFO (R313). -/
def CommandError.info : CommandError → Word
  | .illegalCmd w => w
  | .format _ info => BitVec.ofNat 32 info
  | .integrity => 0
  | .notReady mask => mask
  | .capacity bytes => BitVec.ofNat 32 bytes
  | .range bits => BitVec.ofNat 32 bits
  | .bus addr => BitVec.ofNat 32 addr
  | .tooLong => 0
  | .uncoded offset => BitVec.ofNat 32 offset

end Sys2Proof.Machine
end

