-- ==== Sys2Proof/Machine/Flags.lean ====
section
/-! DEFINITION. STATUS, ERROR and CTRL as the words software reads, W1C, and the interrupt line
(10_state.md R33, R35, R36, R57). -/

namespace Sys2Proof.Machine

/-- The word with `b` at bit `k` and 0 elsewhere. -/
def bitAt (b : Bool) (k : Nat) : Word := if b then BitVec.ofNat 32 (2 ^ k) else 0

/-- STATUS from its fields; bits 7:4 and 31:12 read 0 (R35). -/
def statusWord (busy done err ovr freqV tableV digestV expV : Bool) : Word :=
  bitAt busy 0 ||| bitAt done 1 ||| bitAt err 2 ||| bitAt ovr 3 |||
    bitAt freqV 8 ||| bitAt tableV 9 ||| bitAt digestV 10 ||| bitAt expV 11

/-- STATUS.BUSY: 1 exactly when phase = BUSY (R55). -/
def State.busy (s : State) : Bool := s.phase == .busy

/-- STATUS as stored (R35). -/
def State.status (s : State) : Word :=
  statusWord s.busy s.done s.err s.ovr s.freqV s.tableV s.digestV s.expV

/-- ERROR: CODE in bits 7:0, SUB in bits 15:8, 0 above (R36). -/
def State.error (s : State) : Word := s.errSub.setWidth 32 <<< 8 ||| s.errCode.setWidth 32

/-- CTRL: IE in bit 0; SRST and the reserved bits read 0 (R33). -/
def State.ctrl (s : State) : Word := bitAt s.ie 0

/-- A write to STATUS: 1 in DONE, ERR or OVR clears that bit, everything else is ignored (R35). -/
def clearStatus (v : Word) (s : State) : State :=
  { s with
    done := s.done && !v.getLsbD 1
    err := s.err && !v.getLsbD 2
    ovr := s.ovr && !v.getLsbD 3 }

/-- IRQ = CTRL.IE ∧ (STATUS.DONE ∨ STATUS.ERR), a level computed from state (R57, R330). -/
def State.irq (s : State) : Bool := s.ie && (s.done || s.err)

end Sys2Proof.Machine
end

