-- ==== Sys2Proof/Machine/Memory.lean ====
section
/-! DEFINITION. System memory as a list of bytes in one canonical form (20_memory.md R80). -/

namespace Sys2Proof.Machine

/-- What an address that is not listed reads as. DESIGN CHOICE, unsafe (log entry 4): the spec gives no power-on
contents, and R80 gives every address a byte. -/
def Memory.unlisted : Byte := 0

/-- The canonical form: addresses strictly rising and below 2^32, no byte equal to what an unlisted address reads
as. -/
abbrev Memory.wf (m : Memory) : Prop :=
  m.Pairwise (fun c d => c.1 < d.1) ∧ ∀ c ∈ m, c.1 < 2 ^ 32 ∧ c.2 ≠ Memory.unlisted

/-- The byte at an address. -/
def Memory.read : Memory → Nat → Byte
  | [], _ => Memory.unlisted
  | (b, v) :: m, a => if b = a then v else Memory.read m a

/-- The bytes at `[a, a + n)`, lowest address first. -/
def Memory.readRange (m : Memory) (a n : Nat) : List Byte := (List.range n).map fun i => Memory.read m (a + i)

/-- The cells that list the bytes `bs` from address `a` up. -/
def Memory.cells : Nat → List Byte → Memory
  | _, [] => []
  | a, b :: bs => if b = Memory.unlisted then Memory.cells (a + 1) bs else (a, b) :: Memory.cells (a + 1) bs

/-- Memory with the bytes `bs` written at `[a, a + |bs|)`. Every store of the model is this one. -/
def Memory.writeRange (m : Memory) (a : Nat) (bs : List Byte) : Memory :=
  match bs with
  | [] => m
  | _ => m.filter (fun c => decide (c.1 < a)) ++ Memory.cells a bs ++ m.filter (fun c => decide (a + bs.length ≤ c.1))

/-- Memory with the bytes `[a, a + n)` each `any` of draw `d` (00_scope.md R13). -/
def Memory.loseRange (m : Memory) (d a n : Nat) : Memory :=
  m.writeRange a ((List.range n).map fun i => Config.anyByte d (a + i))

end Sys2Proof.Machine
end

