-- ==== Sys2Proof/Machine/Operands.lean ====
section
/-! DEFINITION. What each command reads and writes, its operand regions, BusOk and the start check
(30_encoding.md R113, R114, 60_exceptions.md R314, R316, R319, R340, R341). -/

namespace Sys2Proof.Machine

/-- One row of the tables of R113 and R114: what a command requires, reads and writes. -/
structure Profile where
  /-- Requires FREQ_V = 1. -/
  needsFreq : Bool := false
  /-- Requires TABLE_V = 1. -/
  needsTable : Bool := false
  /-- Reads the source region. -/
  readsSrc : Bool := false
  /-- Writes the destination region. -/
  writesDst : Bool := false
  /-- Writes FREQ and FREQ_V. -/
  writesFreq : Bool := false
  /-- Writes CODE_LEN, CODE and TABLE_V. -/
  writesTable : Bool := false
  /-- Writes DIGEST_ACT and DIGEST_V. -/
  writesAct : Bool := false
  /-- Writes DIGEST_EXP and EXP_V. -/
  writesExp : Bool := false
  /-- Writes BIT_LEN. -/
  writesBitLen : Bool := false
deriving DecidableEq, Repr

/-- The tables of R113 and R114, one row a command. -/
def profile : Instr → Profile
  | .nop => {}
  | .count => { readsSrc := true, writesFreq := true }
  | .build => { needsFreq := true, writesTable := true }
  | .encode => { needsTable := true, readsSrc := true, writesDst := true, writesBitLen := true }
  | .decode => { needsTable := true, readsSrc := true, writesDst := true }
  | .digest => { readsSrc := true, writesAct := true }
  | .tblStore => { needsTable := true, writesDst := true }
  | .tblLoad => { readsSrc := true, writesTable := true }
  | .compress =>
    { readsSrc := true, writesDst := true, writesFreq := true, writesTable := true, writesAct := true,
      writesBitLen := true }
  | .decompress =>
    { readsSrc := true, writesDst := true, writesTable := true, writesAct := true, writesExp := true,
      writesBitLen := true }

/-- The source bytes, `[ Src(i) for i in 0 .. SRC_LEN - 1 ]` (R13). -/
def srcBytes (s : State) : List Byte := Memory.readRange s.mem s.srcAddr.toNat s.srcLen.toNat

/-- The source region passes the top of the address space (R340). -/
def srcWraps (s : State) : Bool := decide (2 ^ 32 < s.srcAddr.toNat + s.srcLen.toNat)

/-- The destination region passes the top of the address space (R340). -/
def dstWraps (s : State) : Bool := decide (2 ^ 32 < s.dstAddr.toNat + s.dstCap.toNat)

/-- `Overlap()`: the source and destination regions share an address, on unbounded integers (R341). -/
def regionsOverlap (s : State) : Bool :=
  rangesMeet s.srcAddr.toNat s.srcLen.toNat s.dstAddr.toNat s.dstCap.toNat

/-- How many bytes of the destination region exist. It is DST_CAP for every region the start check lets through
(R340); log entry 9 says where a region that wraps can matter. -/
def dstBytes (s : State) : Nat := min s.dstCap.toNat (2 ^ 32 - s.dstAddr.toNat)

/-- The STATUS mask of FREQ_V, for ERR_INFO (R314). -/
def freqMask : Word := 0x00000100

/-- The STATUS mask of TABLE_V, for ERR_INFO (R314). -/
def tableMask : Word := 0x00000200

/-- ERR_INFO of RANGE, 0 when every region is legal (R319). -/
def rangeBits (p : Profile) (s : State) : Nat :=
  (p.readsSrc && srcWraps s).toNat + 2 * (p.writesDst && dstWraps s).toNat +
    4 * (p.readsSrc && p.writesDst && regionsOverlap s).toNat

/-- `Prologue(c)`: the check every command runs first, on registers alone (R319). -/
def prologue (c : Instr) (s : State) : Option CommandError :=
  let p := profile c
  if p.needsFreq && !s.freqV then some (.notReady freqMask)
  else if p.needsTable && !s.tableV then some (.notReady tableMask)
  else if rangeBits p s ≠ 0 then some (.range (rangeBits p s))
  else none

/-- The kinds of access BusOk tells apart (R316). -/
inductive Access where
  | read
  | write
deriving DecidableEq, Repr

/-- A fault range answers accesses of this kind with a bus error. -/
def BusFault.denies (f : BusFault) : Access → Bool
  | .read => f.read
  | .write => f.write

/-- BusOk(a, k): an access of kind k at address a completes (R316). -/
def busOk (p : Platform) (a : Nat) (k : Access) : Bool :=
  !p.busFaults.any fun f => BusFault.denies f k && decide (f.base ≤ a) && decide (a < f.base + f.size)

/-- The addresses of `[a, a + n)` where BusOk(·, k) is false. -/
def badAddrs (p : Platform) (k : Access) (a n : Nat) : List Nat :=
  p.busFaults.flatMap fun f =>
    if BusFault.denies f k then
      List.range' (max a f.base) (min (a + n) (f.base + f.size) - max a f.base)
    else []

/-- `BadR` (R316). -/
def badReads (c : Instr) (s : State) : List Nat :=
  if (profile c).readsSrc then badAddrs s.platform .read s.srcAddr.toNat s.srcLen.toNat else []

/-- `BadW` within `Dst(0..n - 1)` (R316). -/
def badWrites (c : Instr) (n : Nat) (s : State) : List Nat :=
  if (profile c).writesDst then badAddrs s.platform .write s.dstAddr.toNat n else []

end Sys2Proof.Machine
end

