-- ==== Sys2Proof/Machine/Ops.lean ====
section
/-! DEFINITION. The shared operations of the sequencer: start, completion, error end and its effects, the BUS draw,
races, and reset (60_exceptions.md R316 to R328, 20_memory.md R93, 70_reset_and_hazards.md R350 to R352). -/

namespace Sys2Proof.Machine

/-- What a command's rule produces when it succeeds: its destination bytes and the result state it writes (R113).
`none` is state the command does not write. -/
structure Results where
  out : List Byte := []
  freq : Option FreqTable := none
  code : Option CodeTable := none
  digestAct : Option DigestWords := none
  digestExp : Option DigestWords := none
  bitLen : Option Nat := none
deriving DecidableEq, Repr

/-- The outcome of a command's rule, before bus errors (R316). -/
inductive RuleOutcome where
  | success (r : Results)
  /-- NOT_READY or RANGE (R321). -/
  | early (e : CommandError)
  /-- A late error that leaves the result state `any` (R322). -/
  | late (e : CommandError)
  /-- INTEGRITY, which keeps the state its rule set (R323). -/
  | mismatch (r : Results)
deriving DecidableEq, Repr

/-- The host's pending accesses set (log entry 1). -/
def setInputs (l : List Input) (s : State) : State := { s with inputs := l }

/-- The answer to the host's access set (log entry 12). -/
def setPort (r : PortResponse) (s : State) : State := { s with port := r }

/-- One more draw taken (R13, log entry 3). -/
def nextDraw (s : State) : State := { s with draws := s.draws + 1 }

/-- The command of a CMD word writes the destination region. -/
def wordWritesDst (w : Word) : Bool :=
  match decodeWord w with
  | .ok i => (profile i).writesDst
  | .error _ => false

/-- The platform is not coherent, and a byte of the source region was written by the host and may not have reached
memory as the block's port sees it: duty 1 of R95 is broken (R97, log entry 10). -/
def unsettled (s : State) : Bool :=
  !s.platform.coherentDma &&
    s.dirty.any fun x => decide (s.srcAddr.toNat ≤ x) && decide (x < s.srcAddr.toNat + s.srcLen.toNat)

/-- Start of the command word `w` (R326). The last two fields are the model's own: no race is marked yet, unless the
host's caches hold back bytes of the source. -/
def start (w : Word) (s : State) : State :=
  { s with
    cmd := w
    done := false
    err := false
    errCode := 0
    errSub := 0
    errInfo := 0
    phase := .busy
    srcRace := unsettled s
    dstRace := false }

/-- An illegal command word (R327). Nothing else changes and the phase stays IDLE. -/
def rejectCommand (w : Word) (s : State) : State :=
  { s with
    cmd := w
    done := false
    errCode := (CommandError.illegalCmd w).number
    errSub := (CommandError.illegalCmd w).sub
    errInfo := (CommandError.illegalCmd w).info
    outLen := 0
    err := true }

/-- `complete()` (R325). -/
def complete (s : State) : State := { s with done := true, phase := .idle }

/-- The error end's registers: `ERROR`, `ERR_INFO`, OUT_LEN := 0, ERR := 1, phase IDLE (R320). -/
def errorEnd (number sub : BitVec 8) (info : Word) (s : State) : State :=
  { s with errCode := number, errSub := sub, errInfo := info, outLen := 0, err := true, phase := .idle }

/-- The error end of an error, with its class, subcode and ERR_INFO (R311 to R313, R320). -/
def raise (e : CommandError) (s : State) : State := errorEnd e.number e.sub e.info s

/-- The register results of a rule, each with its valid flag (R113). -/
def storeResults (r : Results) (s : State) : State :=
  { s with
    freq := r.freq.getD s.freq
    freqV := s.freqV || r.freq.isSome
    code := r.code.getD s.code
    tableV := s.tableV || r.code.isSome
    digestAct := r.digestAct.getD s.digestAct
    digestV := s.digestV || r.digestAct.isSome
    digestExp := r.digestExp.getD s.digestExp
    expV := s.expV || r.digestExp.isSome
    bitLen := (r.bitLen.map (BitVec.ofNat 32)).getD s.bitLen }

/-- The bytes the host's caches may not show once the block has written the first `n` destination bytes: on a
platform that is not coherent these come to it (R97, log entry 10). -/
def staleWith (s : State) (n : Nat) : List Nat :=
  if s.platform.coherentDma then s.stale else addRange s.dstAddr.toNat n s.stale

/-- All results of a successful rule: registers, destination bytes and OUT_LEN (R39, R113). -/
def writeResults (r : Results) (s : State) : State :=
  { storeResults r s with
    mem := s.mem.writeRange s.dstAddr.toNat r.out
    stale := staleWith s r.out.length
    outLen := BitVec.ofNat 32 r.out.length }

/-- Every destination byte becomes `any` (R86, R322), one draw. -/
def loseDst (s : State) : State :=
  { s with
    mem := s.mem.loseRange s.draws s.dstAddr.toNat (dstBytes s)
    stale := staleWith s (dstBytes s)
    draws := s.draws + 1 }

/-- The result registers a command of profile `p` writes become `any`, one draw, and each valid flag it guards
becomes what `v` says (R322). A drawn code has at most 255 bits, as R52 says of every code. -/
def loseRegs (p : Profile) (v : Config.BitSlot → Bool) (s : State) : State :=
  { s with
    freq := if p.writesFreq then tabulate 256 fun i => Config.anyWord s.draws (.freq i) else s.freq
    freqV := if p.writesFreq then v .freqV else s.freqV
    code := if p.writesTable then tabulate 256 fun i => (Config.anyCode s.draws i).take 255 else s.code
    tableV := if p.writesTable then v .tableV else s.tableV
    digestAct := if p.writesAct then tabulate 8 fun i => Config.anyWord s.draws (.digestAct i) else s.digestAct
    digestV := if p.writesAct then v .digestV else s.digestV
    digestExp := if p.writesExp then tabulate 8 fun i => Config.anyWord s.draws (.digestExp i) else s.digestExp
    expV := if p.writesExp then v .expV else s.expV
    bitLen := if p.writesBitLen then Config.anyWord s.draws .bitLen else s.bitLen
    draws := s.draws + 1 }

/-- The destination becomes `any` if `b` says so. -/
def loseDstIf (b : Bool) (s : State) : State := if b then loseDst s else s

/-- The effects of a late error: the command's result state and destination `any`, its flags 0 (R322). -/
def loseResults (c : Instr) (s : State) : State :=
  loseDstIf (profile c).writesDst (loseRegs (profile c) (fun _ => false) s)

/-- The rule's outcome after bus errors (R316). A draw picks the address and, for a late error, whether BUS occurs
at all. -/
def busOutcome (c : Instr) (o : RuleOutcome) (s : State) : RuleOutcome :=
  match o with
  | .early e => .early e
  | .success r =>
    match badReads c s ++ badWrites c r.out.length s with
    | [] => .success r
    | a :: as => .late (.bus ((a :: as).getD (Config.anyChoice s.draws .bus % (as.length + 1)) a))
  | .late e =>
    match badReads c s ++ badWrites c s.dstCap.toNat s with
    | [] => .late e
    | a :: as =>
      match (a :: as)[Config.anyChoice s.draws .bus % (as.length + 2)]? with
      | some b => .late (.bus b)
      | none => .late e
  | .mismatch r =>
    match badReads c s ++ badWrites c s.dstCap.toNat s with
    | [] => .mismatch r
    | a :: as =>
      match (a :: as)[Config.anyChoice s.draws .bus % (as.length + 2)]? with
      | some b => .late (.bus b)
      | none => .mismatch r

/-- The end of a command whose outcome is `o` (R320 to R325). -/
def settle (c : Instr) (o : RuleOutcome) (s : State) : State :=
  match o with
  | .success r => complete (writeResults r s)
  | .early e => raise e s
  | .late e => raise e (loseResults c s)
  | .mismatch r => raise .integrity (loseDst (storeResults r s))

/-- OUT_LEN written (R39). -/
def setOutLen (n : Word) (s : State) : State := { s with outLen := n }

/-- The end of a command whose source the host raced, whatever the command: unconstrained (R93 item 3, I7, log
entry 8). The result registers and tables it writes, their flags and every destination byte are `any`, and a draw picks
success with any OUT_LEN, or any error class, with any subcode for FORMAT and any ERR_INFO. -/
def racedEnd (c : Instr) (s : State) : State :=
  let t := loseDst (loseRegs (profile c) (Config.anyBit s.draws) s)
  match Config.anyChoice s.draws .outcome % 10 with
  | 0 => complete (setOutLen (Config.anyWord s.draws .outLen) t)
  | k + 1 =>
    errorEnd (BitVec.ofNat 8 (k + 1))
      (if k + 1 = 2 then BitVec.ofNat 8 (Config.anyChoice s.draws .sub % 15 + 1) else 0)
      (Config.anyWord s.draws .errInfo) t

/-- The outcome of a command: its start check, then its rule `body` (R319). -/
def checkedOutcome (c : Instr) (body : State → RuleOutcome) (s : State) : RuleOutcome :=
  match prologue c s with
  | some e => .early e
  | none => body s

/-- The end of a command: unconstrained if the host raced its source, else its outcome after bus errors (R93 item 3,
R316). -/
def endCommand (c : Instr) (body : State → RuleOutcome) (s : State) : State :=
  if s.srcRace then racedEnd c s
  else settle c (busOutcome c (checkedOutcome c body s) s) s

/-- No race is marked any more: the marks are about the command in flight. -/
def clearRaces (s : State) : State := { s with srcRace := false, dstRace := false }

/-- The end step of a command whose rule, past the start check, is `body`: the one operation every meaning calls.
A raced destination leaves its bytes `any`, whatever the command (R93 item 4, log entry 7). -/
def runCommand (c : Instr) (body : State → RuleOutcome) (s : State) : State :=
  clearRaces (loseDstIf s.dstRace (endCommand c body s))

/-- Both resets (R350, R351): every piece of the block's state takes its value of R60. A command abandoned by it
leaves its destination `any`, memory is otherwise unchanged (R352). The platform, the host's pending accesses, its
caches, its last answer and the draw counter are not the block's and stay (log entry 16). -/
def resetBlock (s : State) : State :=
  let t := loseDstIf (s.busy && wordWritesDst s.cmd) s
  { State.reset with
    mem := t.mem
    draws := t.draws
    platform := s.platform
    inputs := s.inputs
    port := s.port
    dirty := s.dirty
    stale := t.stale }

end Sys2Proof.Machine
end

