-- ==== Sys2Proof/Machine/CountBuild.lean ====
section
/-! DEFINITION. Frequency counting, tree building and code generation: COUNT and BUILD (40_count_build.md). -/

namespace Sys2Proof.Machine

/-- `Count(B)` (R141): how many bytes of `B` equal each symbol, 32 bits each. -/
def countTable (b : List Byte) : FreqTable := tabulate 256 fun s => BitVec.ofNat 32 (b.countP fun x => x.toNat == s)

/-- The rule of COUNT (R140). -/
def countRule (s : State) : RuleOutcome := .success { freq := some (countTable (srcBytes s)) }

/-- COUNT: tally the source bytes (R140). -/
def execCount (s : State) : Host.Outcome State Fault Refusal := .next (runCommand .count countRule s)

/-- A code tree: a leaf is a symbol, an internal node has exactly two children (R147, R149). -/
inductive Tree where
  | leaf (sym : Byte)
  | node (left right : Tree)
deriving DecidableEq, Repr

/-- A node of the tree builder: its weight, its key and the tree under it (R145, R146). -/
structure Node where
  weight : Nat
  key : Nat
  tree : Tree
deriving DecidableEq, Repr

/-- Lexicographic order of (weight, key): lower weight first, then lower key (R146). -/
def Node.less (x y : Node) : Bool := decide (x.weight < y.weight ∨ x.weight = y.weight ∧ x.key < y.key)

/-- The leaves of a frequency table: one per symbol with a non-zero count, weight its count, key its value (R145). -/
def leaves (f : FreqTable) : List Node :=
  ((symbols.zip f.toList).map fun e => { weight := e.2.toNat, key := e.1.toNat, tree := .leaf e.1 }).filter
    fun n => n.weight != 0

/-- The least node of `x :: q` and the rest (R147). -/
def extractMin : Node → List Node → Node × List Node
  | x, [] => (x, [])
  | x, y :: q =>
    if Node.less y x then ((extractMin y q).1, x :: (extractMin y q).2)
    else ((extractMin x q).1, y :: (extractMin x q).2)

/-- The k-th internal node over two extracted nodes: the first extracted is the left child, weights add, key 256 + k
(R147). -/
def mergeNodes (k : Nat) (x y : Node) : Node :=
  { weight := x.weight + y.weight, key := 256 + k, tree := .node x.tree y.tree }

/-- Merge the two least nodes until one remains, the root (R147, R148). `fuel` bounds the merges: with m nodes there
are m - 1. -/
def mergeAll : (fuel : Nat) → (k : Nat) → List Node → Option Tree
  | _, _, [] => none
  | _, _, [x] => some x.tree
  | 0, _, _ :: _ :: _ => none
  | fuel + 1, k, x :: y :: q =>
    match extractMin x (y :: q) with
    | (_, []) => none
    | (a, z :: r) => mergeAll fuel (k + 1) (mergeNodes k a (extractMin z r).1 :: (extractMin z r).2)

/-- The codes of a tree: 0 on the way to a left child, 1 to a right child, the string so far at a leaf (R152). -/
def Tree.codes : Tree → Bits → List (Byte × Bits)
  | .leaf s, p => [(s, p)]
  | .node l r, p => l.codes (p ++ [false]) ++ r.codes (p ++ [true])

/-- The codes `BuildTable` gives, one entry per symbol present (R155): none for no symbol (R150), "0" for a single
symbol (R149), else the tree's. -/
def buildEntries (f : FreqTable) : List (Byte × Bits) :=
  match leaves f with
  | [] => []
  | [n] => n.tree.codes [false]
  | ns =>
    match mergeAll ns.length 0 ns with
    | some t => t.codes []
    | none => []

/-- `BuildTable(F)` (R155). -/
def buildTable (f : FreqTable) : CodeTable := tableOf (buildEntries f)

/-- The rule of BUILD (R158). -/
def buildRule (s : State) : RuleOutcome := .success { code := some (buildTable s.freq) }

/-- BUILD: build the code table from FREQ (R158). -/
def execBuild (s : State) : Host.Outcome State Fault Refusal := .next (runCommand .build buildRule s)

end Sys2Proof.Machine
end

