-- ==== Sys2Proof/Machine/EncodePack.lean ====
section
/-! DEFINITION. Encoding and bit packing: ENCODE (41_encode_pack.md). -/

namespace Sys2Proof.Machine

/-- `Enc(B)`: the codes of the bytes in order, concatenated (R180). -/
def encodeBits (t : CodeTable) (b : List Byte) : Bits := b.flatMap (codeOf t)

/-- The least offset of a byte with no code (R180, R185). -/
def firstUncoded (t : CodeTable) (b : List Byte) : Option Nat := b.findIdx? fun x => (codeOf t x).isEmpty

/-- `Pack(b)`: `ceil8(L)` bytes, bit 7 - i of byte j is `b[8·j + i]`, or 0 past the end (R182). -/
def pack (b : Bits) : List Byte :=
  (List.range (ceil8 b.length)).map fun j => byteOfBits fun i => b.getD (8 * j + i) false

/-- The rule of ENCODE, its checks in precedence order (R185). -/
def encodeRule (s : State) : RuleOutcome :=
  let b := srcBytes s
  match firstUncoded s.code b with
  | some i => .late (.uncoded i)
  | none =>
    let bits := encodeBits s.code b
    let p := ceil8 bits.length
    if 2 ^ 32 - 1 < bits.length then .late .tooLong
    else if s.dstCap.toNat < p then .late (.capacity p)
    else .success { out := pack bits, bitLen := some bits.length }

/-- ENCODE: encode and pack the source with the current code table (R185). -/
def execEncode (s : State) : Host.Outcome State Fault Refusal := .next (runCommand .encode encodeRule s)

end Sys2Proof.Machine
end

