-- ==== Sys2Proof/Machine/Integrity.lean ====
section
/-! DEFINITION. SHA-256 and DIGEST (44_integrity.md). -/

namespace Sys2Proof.Machine.Sha256

/-- `be64bytes(v)` (R281). -/
def be64bytes (v : Nat) : List Byte := be32bytes (v / 2 ^ 32) ++ be32bytes (v % 2 ^ 32)

/-- The padded message `M ++ [0x80] ++ [0x00] × z ++ be64bytes(8·n)`; z is the least number with
(n + 1 + z + 8) mod 64 = 0 (R281). -/
def pad (m : List Byte) : List Byte :=
  m ++ [0x80] ++ List.replicate ((119 - m.length % 64) % 64) 0 ++ be64bytes (8 * m.length)

/-- The eight 32-bit words of a row, most significant first: R282 prints its constants eight to a row. -/
def rowWords (row : Nat) : List Word := (List.range 8).map fun i => BitVec.ofNat 32 (row / 2 ^ (32 * (7 - i)))

/-- The initial hash value H0, one row (R282). -/
def h0 : List Word := rowWords 0x6a09e667bb67ae853c6ef372a54ff53a510e527f9b05688c1f83d9ab5be0cd19

/-- The eight rows of the round constants (R282). -/
def kRows : List Nat :=
  [0x428a2f9871374491b5c0fbcfe9b5dba53956c25b59f111f1923f82a4ab1c5ed5,
   0xd807aa9812835b01243185be550c7dc372be5d7480deb1fe9bdc06a7c19bf174,
   0xe49b69c1efbe47860fc19dc6240ca1cc2de92c6f4a7484aa5cb0a9dc76f988da,
   0x983e5152a831c66db00327c8bf597fc7c6e00bf3d5a7914706ca635114292967,
   0x27b70a852e1b21384d2c6dfc53380d13650a7354766a0abb81c2c92e92722c85,
   0xa2bfe8a1a81a664bc24b8b70c76c51a3d192e819d6990624f40e3585106aa070,
   0x19a4c1161e376c082748774c34b0bcb5391c0cb34ed8aa4a5b9cca4f682e6ff3,
   0x748f82ee78a5636f84c878148cc7020890befffaa4506cebbef9a3f7c67178f2]

/-- The round constants K[0..63] (R282). -/
def k : List Word := kRows.flatMap rowWords

/-- ROTR(x, r0) ⊕ ROTR(x, r1) ⊕ … over the listed amounts (R280). -/
def rotations (rs : List Nat) (x : Word) : Word := rs.foldr (fun r acc => x.rotateRight r ^^^ acc) 0

/-- Σ0 (R283). -/
def bigSigma0 : Word → Word := rotations [2, 13, 22]

/-- Σ1 (R283). -/
def bigSigma1 : Word → Word := rotations [6, 11, 25]

/-- σ0 (R283). -/
def smallSigma0 (x : Word) : Word := rotations [7, 18] x ^^^ (x >>> 3)

/-- σ1 (R283). -/
def smallSigma1 (x : Word) : Word := rotations [17, 19] x ^^^ (x >>> 10)

/-- The 16 big-endian words of a 64-byte block (R281). -/
def blockWords (b : List Byte) : List Word :=
  (List.range 16).map fun t => BitVec.ofNat 32 (be32 (b.drop (4 * t)))

/-- `n` more words of the message schedule, the latest word first (R284):
W[t] = σ1(W[t-2]) + W[t-7] + σ0(W[t-15]) + W[t-16]. -/
def extend : Nat → List Word → List Word
  | 0, ws => ws
  | n + 1, ws =>
    extend n ((smallSigma1 (ws.getD 1 0) + ws.getD 6 0 + smallSigma0 (ws.getD 14 0) + ws.getD 15 0) :: ws)

/-- The message schedule W[0..63] of a block (R284). -/
def schedule (b : List Byte) : List Word := (extend 48 (blockWords b).reverse).reverse

/-- The eight working variables. -/
structure Vars where
  a : Word
  b : Word
  c : Word
  d : Word
  e : Word
  f : Word
  g : Word
  h : Word
deriving DecidableEq, Repr

/-- The working variables of a list of eight words. -/
def Vars.ofList (l : List Word) : Vars :=
  ⟨l.getD 0 0, l.getD 1 0, l.getD 2 0, l.getD 3 0, l.getD 4 0, l.getD 5 0, l.getD 6 0, l.getD 7 0⟩

/-- The eight words of the working variables. -/
def Vars.toList (v : Vars) : List Word := [v.a, v.b, v.c, v.d, v.e, v.f, v.g, v.h]

/-- Ch(e, f, g), bit by bit f where e is 1 and g where e is 0 (R283). -/
def Vars.ch (v : Vars) : Word := (v.e &&& v.f) ^^^ (~~~v.e &&& v.g)

/-- Maj(a, b, c) (R283). -/
def Vars.maj (v : Vars) : Word := [(v.a, v.b), (v.a, v.c), (v.b, v.c)].foldr (fun p acc => (p.1 &&& p.2) ^^^ acc) 0

/-- T1 of a round (R284), `kw` being K[t] and W[t]. -/
def t1 (v : Vars) (kw : Word × Word) : Word := v.h + bigSigma1 v.e + v.ch + kw.1 + kw.2

/-- T2 of a round (R284). -/
def t2 (v : Vars) : Word := bigSigma0 v.a + v.maj

/-- One round (R284). -/
def round (v : Vars) (kw : Word × Word) : Vars := ⟨t1 v kw + t2 v, v.a, v.b, v.c, v.d + t1 v kw, v.e, v.f, v.g⟩

/-- The 64 rounds of a block and the addition to the hash value (R284). -/
def compressBlock (h : List Word) (b : List Byte) : List Word :=
  List.zipWith (· + ·) h ((List.zip k (schedule b)).foldl round (Vars.ofList h)).toList

/-- The hash value after every block of a padded message (R284). -/
def hashBlocks (m : List Byte) : List Word :=
  (List.range (m.length / 64)).foldl (fun h i => compressBlock h ((m.drop (64 * i)).take 64)) h0

end Sys2Proof.Machine.Sha256

namespace Sys2Proof.Machine

/-- `SHA256(M)`, 32 bytes (R280, R285). -/
def sha256 (m : List Byte) : List Byte := (Sha256.hashBlocks (Sha256.pad m)).flatMap fun w => be32bytes w.toNat

/-- The rule of DIGEST (R286). -/
def digestRule (s : State) : RuleOutcome := .success { digestAct := some (digestWords (sha256 (srcBytes s))) }

/-- DIGEST: compute SHA256 of the source region into DIGEST_ACT (R286). -/
def execDigest (s : State) : Host.Outcome State Fault Refusal := .next (runCommand .digest digestRule s)

end Sys2Proof.Machine
end

