-- ==== Sys2Proof/Machine/UnpackDecode.lean ====
section
/-! DEFINITION. Bit unpacking and decoding: DECODE (42_decode.md). -/

namespace Sys2Proof.Machine

/-- `Unpack(D, L)`: bit 8·j + i is bit 7 - i of D[j] (R200). -/
def unpack (d : List Byte) (l : Nat) : Bits :=
  (List.range l).map fun k => bitOfByte (d.getD (k / 8) 0) (k % 8)

/-- `PadOK(D, L)`: the low 8 - L mod 8 bits of the last byte are 0, or L mod 8 = 0 (R201). -/
def padOk (d : List Byte) (l : Nat) : Bool :=
  l % 8 == 0 || (List.range 8).all fun i => decide (i < l % 8) || !bitOfByte (d.getD (ceil8 l - 1) 0) i

/-- `Decode(u, t)` from bit `i` on, with the candidate `cand` that began at bit `start` (R203). `es` are the table's
entries. DESIGN CHOICE, unsafe (log entry 21): where two entries have the candidate as code, which R53 excludes, the
lowest symbol is emitted, and R203 speaks of no such table. -/
def decodeFrom (es : List (Byte × Bits)) : (i start : Nat) → (cand : Bits) → Bits → Except CommandError (List Byte)
  | _, start, cand, [] => if cand.isEmpty then .ok [] else .error (.format .truncatedCode start)
  | i, start, cand, b :: u =>
    match es.find? (fun e => e.2 == cand ++ [b]) with
    | some e =>
      match decodeFrom es (i + 1) (i + 1) [] u with
      | .ok out => .ok (e.1 :: out)
      | .error x => .error x
    | none =>
      if es.any fun e => (cand ++ [b]).isPrefixOf e.2 then
        decodeFrom es (i + 1) (if cand.isEmpty then i else start) (cand ++ [b]) u
      else .error (.format .invalidCode i)

/-- `Decode(u, t)` (R203). -/
def decodeBits (t : CodeTable) (u : Bits) : Except CommandError (List Byte) := decodeFrom (entries t) 0 0 [] u

/-- The rule of DECODE, its checks in precedence order (R208). -/
def decodeRule (s : State) : RuleOutcome :=
  let l := s.bitLen.toNat
  let p := ceil8 l
  let d := srcBytes s
  if s.srcLen.toNat < p then .late (.format .truncPayload 0)
  else if p < s.srcLen.toNat then .late (.format .trailing p)
  else if !padOk d l then .late (.format .padNonzero (p - 1))
  else
    match decodeBits s.code (unpack d l) with
    | .error e => .late e
    | .ok out =>
      if s.dstCap.toNat < out.length then .late (.capacity out.length)
      else .success { out := out }

/-- DECODE: unpack and decode a bit stream with the current code table (R208). -/
def execDecode (s : State) : Host.Outcome State Fault Refusal := .next (runCommand .decode decodeRule s)

end Sys2Proof.Machine
end

