-- ==== Sys2Proof/Machine/Container.lean ====
section
/-! DEFINITION. The container and the serialized code table: TBL_STORE, TBL_LOAD, COMPRESS and DECOMPRESS
(43_container.md). -/

namespace Sys2Proof.Machine

/-- One entry: the symbol, its length, its code packed (R233). -/
def entryBytes (e : Byte × Bits) : List Byte := e.1 :: BitVec.ofNat 8 e.2.length :: pack e.2

/-- The T entry bytes of a table, ascending symbols (R233). -/
def tableBytes (t : CodeTable) : List Byte := (entries t).flatMap entryBytes

/-- `SerializeTable`: the length prefix T and the entry bytes (R232, R234). -/
def serializeTable (t : CodeTable) : List Byte := be32bytes (tableBytes t).length ++ tableBytes t

/-- The entries of `ParseEntries`, checks in the order R235 writes them. `o` is the offset of the next entry, `next`
the least symbol it may have, `es` the entries so far. Every entry takes at least 3 bytes, so `|E|` fuel is enough. -/
def parseFrom (base : Nat) :
    (fuel o next : Nat) → List (Byte × Bits) → List Byte → Except CommandError (List (Byte × Bits))
  | _, _, _, es, [] => .ok es
  | _, o, _, _, [_] => .error (.format .truncEntry (base + o))
  | 0, o, _, _, _ :: _ :: _ => .error (.format .truncEntry (base + o))
  | fuel + 1, o, next, es, s :: l :: rest =>
    let nb := ceil8 l.toNat
    let c := unpack (rest.take nb) l.toNat
    if l = 0 then .error (.format .zeroLen (base + o))
    else if rest.length < nb then .error (.format .truncEntry (base + o))
    else if s.toNat < next then .error (.format .order (base + o))
    else if !padOk (rest.take nb) l.toNat then .error (.format .codePad (base + o))
    else if es.any fun e => conflict e.2 c then .error (.format .notPrefixFree (base + o))
    else parseFrom base fuel (o + 2 + nb) (s.toNat + 1) (es ++ [(s, c)]) (rest.drop nb)

/-- `Σ 2^(255 - len)` over entries (R53, R235). -/
def kraftSum (es : List (Byte × Bits)) : Nat := (es.map fun e => 2 ^ (255 - e.2.length)).sum

/-- A single code must be "0", two or more must be complete (R53 items 2 and 3, R235). -/
def entriesComplete (es : List (Byte × Bits)) : Bool :=
  match es with
  | [] => true
  | [e] => e.2 == [false]
  | es => kraftSum es == 2 ^ 255

/-- `ParseEntries(E, base)` (R235). -/
def parseEntries (base : Nat) (e : List Byte) : Except CommandError CodeTable :=
  match parseFrom base e.length 0 0 [] e with
  | .error x => .error x
  | .ok es => if entriesComplete es then .ok (tableOf es) else .error (.format .incompleteCode base)

/-- The rule of TBL_STORE (R240). -/
def tblStoreRule (s : State) : RuleOutcome :=
  let x := serializeTable s.code
  if s.dstCap.toNat < x.length then .late (.capacity x.length) else .success { out := x }

/-- TBL_STORE: write the current code table, serialized, to the destination (R240). -/
def execTblStore (s : State) : Host.Outcome State Fault Refusal := .next (runCommand .tblStore tblStoreRule s)

/-- The rule of TBL_LOAD, its checks in precedence order, every sum without wrap-around (R245). -/
def tblLoadRule (s : State) : RuleOutcome :=
  let b := srcBytes s
  let t := be32 b
  if s.srcLen.toNat < 4 then .late (.format .truncTblLen 0)
  else if s.srcLen.toNat < 4 + t then .late (.format .truncTable 4)
  else if 4 + t < s.srcLen.toNat then .late (.format .trailing (4 + t))
  else
    match parseEntries 4 (b.drop 4) with
    | .error e => .late e
    | .ok table => .success { code := some table }

/-- TBL_LOAD: parse a serialized code table from the source into the code table (R245). -/
def execTblLoad (s : State) : Host.Outcome State Fault Refusal := .next (runCommand .tblLoad tblLoadRule s)

/-- The container of a byte sequence `b` with its table: bitLength, checksum, payload, serialized table (R230). -/
def containerOf (b : List Byte) (t : CodeTable) : List Byte :=
  be32bytes (encodeBits t b).length ++ sha256 b ++ pack (encodeBits t b) ++ serializeTable t

/-- The rule of COMPRESS (R250). -/
def compressRule (s : State) : RuleOutcome :=
  let b := srcBytes s
  let f := countTable b
  let t := buildTable f
  let l := (encodeBits t b).length
  let size := 36 + ceil8 l + (serializeTable t).length
  if 2 ^ 32 - 1 < l then .late .tooLong
  else if s.dstCap.toNat < size then .late (.capacity size)
  else
    .success
      { out := containerOf b t, freq := some f, code := some t, digestAct := some (digestWords (sha256 b)),
        bitLen := some l }

/-- COMPRESS: compress the source into a container at the destination (R250). -/
def execCompress (s : State) : Host.Outcome State Fault Refusal := .next (runCommand .compress compressRule s)

/-- The rule of DECOMPRESS past its length checks: the table, the payload, the digest (R260). `b` is the container,
`l` its bitLength, `cap` DST_CAP. -/
def decompressBody (b : List Byte) (l cap : Nat) : RuleOutcome :=
  let p := ceil8 l
  let d := (b.drop 36).take p
  match parseEntries (40 + p) (b.drop (40 + p)) with
  | .error e => .late e
  | .ok t =>
    if (l == 0) != (entries t).isEmpty then .late (.format .emptyMismatch 0)
    else if !padOk d l then .late (.format .padNonzero (36 + p - 1))
    else
      match decodeBits t (unpack d l) with
      | .error e => .late e
      | .ok out =>
        if cap < out.length then .late (.capacity out.length)
        else
          let r : Results :=
            { out := out, code := some t, digestAct := some (digestWords (sha256 out)),
              digestExp := some (digestWords ((b.drop 4).take 32)), bitLen := some l }
          if sha256 out = (b.drop 4).take 32 then .success r else .mismatch r

/-- The rule of DECOMPRESS, its checks in precedence order, every sum without wrap-around (R260). -/
def decompressRule (s : State) : RuleOutcome :=
  let b := srcBytes s
  let n := s.srcLen.toNat
  let l := be32 b
  let p := ceil8 l
  let t := be32 (b.drop (36 + p))
  if n < 36 then .late (.format .truncHeader 0)
  else if n < 36 + p then .late (.format .truncPayload 36)
  else if n < 40 + p then .late (.format .truncTblLen (36 + p))
  else if n < 40 + p + t then .late (.format .truncTable (40 + p))
  else if 40 + p + t < n then .late (.format .trailing (40 + p + t))
  else decompressBody b l s.dstCap.toNat

/-- DECOMPRESS: parse and verify a container at the source, and write the original bytes to the destination
(R260). -/
def execDecompress (s : State) : Host.Outcome State Fault Refusal := .next (runCommand .decompress decompressRule s)

end Sys2Proof.Machine
end

