-- ==== Sys2Proof/Machine/Control.lean ====
section
/-! DEFINITION. NOP (45_control.md R300). -/

namespace Sys2Proof.Machine

/-- The rule of NOP: no result but OUT_LEN := 0 (R300). -/
def nopRule (_ : State) : RuleOutcome := .success {}

/-- NOP: complete at once and change nothing (R300). -/
def execNop (s : State) : Host.Outcome State Fault Refusal := .next (runCommand .nop nopRule s)

end Sys2Proof.Machine
end

