-- ==== Sys2Proof/Machine/Dispatch.lean ====
section
/-! DEFINITION. The dispatch: each command's end step is its own meaning (30_encoding.md R111). -/

namespace Sys2Proof.Machine

def exec (i : Instr) (s : State) : Host.Outcome State Fault Refusal :=
  match i with
  | .nop => Sys2Proof.Machine.execNop s
  | .count => Sys2Proof.Machine.execCount s
  | .build => Sys2Proof.Machine.execBuild s
  | .encode => Sys2Proof.Machine.execEncode s
  | .decode => Sys2Proof.Machine.execDecode s
  | .digest => Sys2Proof.Machine.execDigest s
  | .tblStore => Sys2Proof.Machine.execTblStore s
  | .tblLoad => Sys2Proof.Machine.execTblLoad s
  | .compress => Sys2Proof.Machine.execCompress s
  | .decompress => Sys2Proof.Machine.execDecompress s

end Sys2Proof.Machine
end

