-- ==== Sys2Proof/Machine/Registers.lean ====
section
/-! DEFINITION. The register window: the map, the register port's legality, reads and writes in each phase
(10_state.md R31 to R48). -/

namespace Sys2Proof.Machine

/-- The registers and window words of the map (R31). -/
inductive Reg where
  | id
  | version
  | ctrl
  | cmd
  | status
  | error
  | errInfo
  | srcAddr
  | srcLen
  | dstAddr
  | dstCap
  | outLen
  | bitLen
  | numSyms
  | maxLen
  | digestAct (i : Fin 8)
  | digestExp (i : Fin 8)
  | freq (s : Byte)
  | codeLen (s : Byte)
  | codeBits (s : Byte) (w : Fin 8)
  /-- A reserved offset: RAZ/WI. -/
  | reserved
deriving DecidableEq, Repr

/-- The named registers and their offsets, below 0x0040 (R31). -/
def namedRegs : List (Nat × Reg) :=
  [(0x0000, .id), (0x0004, .version), (0x0008, .ctrl), (0x000C, .cmd), (0x0010, .status), (0x0014, .error),
   (0x0018, .errInfo), (0x001C, .reserved), (0x0020, .srcAddr), (0x0024, .srcLen), (0x0028, .dstAddr),
   (0x002C, .dstCap), (0x0030, .outLen), (0x0034, .bitLen), (0x0038, .numSyms), (0x003C, .maxLen)]

/-- The register at a word-aligned offset of the window (R31). -/
def regAt (off : Nat) : Reg :=
  if off < 0x0040 then ((namedRegs.find? fun r => r.1 == off).map (·.2)).getD .reserved
  else if off < 0x0060 then .digestAct (Fin.ofNat 8 ((off - 0x0040) / 4))
  else if off < 0x0080 then .digestExp (Fin.ofNat 8 ((off - 0x0060) / 4))
  else if off < 0x0400 then .reserved
  else if off < 0x0800 then .freq (BitVec.ofNat 8 ((off - 0x0400) / 4))
  else if off < 0x0C00 then .codeLen (BitVec.ofNat 8 ((off - 0x0800) / 4))
  else if off < 0x2000 then .reserved
  else .codeBits (BitVec.ofNat 8 ((off - 0x2000) / 32)) (Fin.ofNat 8 ((off - 0x2000) % 32 / 4))

/-- HUFF_BASE, 16 KiB aligned (R8). -/
def Platform.windowBase (p : Platform) : Word := p.huffBase.setWidth 32 <<< 14

/-- The window offset of a register access, if it is legal: 32 bits wide, word aligned, inside the window (R46). -/
def portOffset (p : Platform) (addr : Word) (width : Nat) : Option Nat :=
  if width = 4 ∧ addr.toNat % 4 = 0 ∧ addr.extractLsb' 14 18 = p.huffBase then some (addr.toNat % 2 ^ 14) else none

/-- ID and VERSION (R32). -/
def idValue : Word := 0x48554646

/-- VERSION (R32). -/
def versionValue : Word := 0x00010000

/-- The stored value of a register, as it reads in phase IDLE (R31 to R45, R50, R52). -/
def readStored (s : State) : Reg → Word
  | .id => idValue
  | .version => versionValue
  | .ctrl => s.ctrl
  | .cmd => s.cmd
  | .status => s.status
  | .error => s.error
  | .errInfo => s.errInfo
  | .srcAddr => s.srcAddr
  | .srcLen => s.srcLen
  | .dstAddr => s.dstAddr
  | .dstCap => s.dstCap
  | .outLen => s.outLen
  | .bitLen => s.bitLen
  | .numSyms => numSyms s.code
  | .maxLen => maxLen s.code
  | .digestAct i => s.digestAct[i]
  | .digestExp i => s.digestExp[i]
  | .freq x => s.freq[x.toNat]'x.isLt
  | .codeLen x => (codeLen s.code x).setWidth 32
  | .codeBits x w => codeBitsWord (codeOf s.code x) w
  | .reserved => 0

/-- The value of a register in phase BUSY: stored values for identification, control and operands, 0 for ERROR and
ERR_INFO, `any` for results, tables and STATUS[11:8] (R48). -/
def readBusy (s : State) : Reg → Word
  | .status =>
    statusWord s.busy s.done s.err s.ovr (Config.anyBit s.draws .freqV) (Config.anyBit s.draws .tableV)
      (Config.anyBit s.draws .digestV) (Config.anyBit s.draws .expV)
  | .id => readStored s .id
  | .version => readStored s .version
  | .ctrl => readStored s .ctrl
  | .cmd => readStored s .cmd
  | .srcAddr => readStored s .srcAddr
  | .srcLen => readStored s .srcLen
  | .dstAddr => readStored s .dstAddr
  | .dstCap => readStored s .dstCap
  | .reserved => readStored s .reserved
  | .error => 0
  | .errInfo => 0
  | .outLen => Config.anyWord s.draws .read
  | .bitLen => Config.anyWord s.draws .read
  | .numSyms => Config.anyWord s.draws .read
  | .maxLen => Config.anyWord s.draws .read
  | .digestAct _ => Config.anyWord s.draws .read
  | .digestExp _ => Config.anyWord s.draws .read
  | .freq _ => Config.anyWord s.draws .read
  | .codeLen _ => Config.anyWord s.draws .read
  | .codeBits _ _ => Config.anyWord s.draws .read

/-- A read of the register port. It changes no register (R46); while BUSY it takes a fresh draw (R48, log entry 3). -/
def portRead (addr : Word) (width : Nat) (s : State) : State :=
  match portOffset s.platform addr width with
  | none => setPort (.error s.platform.regErr) s
  | some off =>
    if s.busy then nextDraw (setPort (.word (readBusy s (regAt off))) s)
    else setPort (.word (readStored s (regAt off))) s

/-- A write to CTRL, in either phase: SRST = 1 resets, else IE := bit 0 (R33, R351). -/
def writeCtrl (v : Word) (s : State) : State :=
  if v.getLsbD 31 then resetBlock s else { s with ie := v.getLsbD 0 }

/-- A write to CMD: ignored with OVR := 1 while BUSY, else the word is stored and dispatched (R34, R47, R112). -/
def writeCmd (v : Word) (s : State) : State :=
  if s.busy then { s with ovr := true }
  else
    match decodeWord v with
    | .ok _ => start v s
    | .error _ => rejectCommand v s

/-- A write to a register (R46), and in phase BUSY (R47). -/
def writeReg (r : Reg) (v : Word) (s : State) : State :=
  match r with
  | .ctrl => writeCtrl v s
  | .cmd => writeCmd v s
  | .status => clearStatus v s
  | .srcAddr => if s.busy then s else { s with srcAddr := v }
  | .srcLen => if s.busy then s else { s with srcLen := v }
  | .dstAddr => if s.busy then s else { s with dstAddr := v }
  | .dstCap => if s.busy then s else { s with dstCap := v }
  | .bitLen => if s.busy then s else { s with bitLen := v }
  | .id => s
  | .version => s
  | .error => s
  | .errInfo => s
  | .outLen => s
  | .numSyms => s
  | .maxLen => s
  | .digestAct _ => s
  | .digestExp _ => s
  | .freq _ => s
  | .codeLen _ => s
  | .codeBits _ _ => s
  | .reserved => s

/-- A write of the register port: an illegal access changes no state and gets an error response (R46, R88). -/
def portWrite (addr : Word) (width : Nat) (v : Word) (s : State) : State :=
  match portOffset s.platform addr width with
  | none => setPort (.error s.platform.regErr) s
  | some off => setPort .done (writeReg (regAt off) v s)

end Sys2Proof.Machine
end

