-- ==== Sys2Proof/Machine/HostPort.lean ====
section
/-! DEFINITION. The host's accesses, one step each, and whose turn comes next (20_memory.md R93 to R99,
30_encoding.md R117, R118, 70_reset_and_hazards.md R350). -/

namespace Sys2Proof.Machine

/-- While a command runs, whatever the command, an access at `[a, a + n)` meets the source region (R93 item 3). -/
def meetsSrc (a n : Nat) (s : State) : Bool := s.busy && rangesMeet a n s.srcAddr.toNat s.srcLen.toNat

/-- While a command runs, whatever the command, an access at `[a, a + n)` meets the destination region (R93
item 4). -/
def meetsDst (a n : Nat) (s : State) : Bool := s.busy && rangesMeet a n s.dstAddr.toNat s.dstCap.toNat

/-- `MEMW`: the bytes are written, and a write to a region of the running command is a race (R93 items 3 and 4). On
a platform that is not coherent the host's cache may hold them back (R97). DESIGN CHOICE, unsafe (log entry 20): on a
coherent one they reach memory at this step, no write buffer of the host holds them back (R94, R95 item 1). -/
def hostMemWrite (a : Nat) (bs : List Byte) (s : State) : State :=
  { s with
    mem := s.mem.writeRange a bs
    port := .done
    srcRace := s.srcRace || meetsSrc a bs.length s
    dstRace := s.dstRace || meetsDst a bs.length s
    dirty := if s.platform.coherentDma then s.dirty else addRange a bs.length s.dirty
    stale := removeRange a bs.length s.stale }

/-- The byte a host read of address `a` returns: `any` in the destination region while a command runs (R93 item 4) and
where the host's cache may be stale (R97), else the byte of memory. DESIGN CHOICE, unsafe (log entry 22): once the
phase is IDLE the host reads a command's result, also before it has seen BUSY = 0 in STATUS, where R90, R93 item 2 and
R94 promise nothing yet. -/
def hostReadByte (a : Nat) (s : State) : Byte :=
  if meetsDst a 1 s || (!s.platform.coherentDma && s.stale.contains a) then Config.anyByte s.draws a
  else Memory.read s.mem a

/-- `MEMR`: the bytes read, one draw for those that are `any` (R93 item 4). -/
def hostMemRead (a n : Nat) (s : State) : State :=
  nextDraw (setPort (.bytes ((List.range n).map fun i => hostReadByte (a + i) s)) s)

/-- The bytes of `[a, a + n)` the host wrote and its caches may still hold back. -/
def dirtyIn (a n : Nat) (s : State) : List Nat := s.dirty.filter fun x => decide (a ≤ x) && decide (x < a + n)

/-- The bytes at the listed addresses become `any`, one draw. -/
def loseBytes (xs : List Nat) (s : State) : State :=
  { s with mem := xs.foldl (fun m x => m.loseRange s.draws x 1) s.mem, draws := s.draws + 1 }

/-- The host cleans its caches over `[a, a + n)`: what it wrote there reaches memory (R95 item 1, R97). Where the block
has written since, the host's older byte may land on it, so it becomes `any`, and in the destination of a running
command that is a race (R93 item 4, log entry 10). -/
def hostClean (a n : Nat) (s : State) : State :=
  { loseBytes ((dirtyIn a n s).filter s.stale.contains) s with
    port := .done
    dirty := removeRange a n s.dirty
    dstRace := s.dstRace || (dirtyIn a n s).any fun x => meetsDst x 1 s }

/-- The host invalidates its caches over `[a, a + n)`: it sees memory there (R97). Bytes it wrote and never cleaned may
be lost, so they become `any`, but for those the block has written since (log entry 10). -/
def hostInvalidate (a n : Nat) (s : State) : State :=
  { loseBytes ((dirtyIn a n s).filter fun x => !s.stale.contains x) s with
    port := .done
    dirty := removeRange a n s.dirty
    stale := removeRange a n s.stale }

/-- What the host sees of a register read satisfies `(read & mask) = value` (R117). A bus fault ends the statement
(log entry 13). -/
def pollEnds (r : PortResponse) (mask value : Word) : Bool :=
  match r with
  | .word w => (w &&& mask) == value
  | .error (.discarded w) => (w &&& mask) == value
  | .error .busFault => true
  | .none => false
  | .done => false
  | .bytes _ => false

/-- `POLL`: one read. If it does not satisfy the condition the statement is pending again, after the sequencer's
turn if a command runs (R117, R380, log entry 13). -/
def hostPoll (addr mask value : Word) (s : State) : State :=
  let t := portRead addr 4 s
  if pollEnds t.port mask value then t
  else if s.busy then setInputs (.sequencer :: .poll addr mask value :: t.inputs) t
  else setInputs (.poll addr mask value :: t.inputs) t

/-- One access of the outside world, one step (D43). A host access to bytes that do not exist faults (R80). -/
def hostAccess (a : Input) (s : State) : Host.Outcome State Fault Refusal :=
  if !a.wf then .fault .noSuchByte
  else
    match a with
    | .regWrite addr width v => .next (portWrite addr width v s)
    | .regRead addr width => .next (portRead addr width s)
    | .poll addr mask value => .next (hostPoll addr mask value s)
    | .memWrite addr bs => .next (hostMemWrite addr.toNat bs s)
    | .memRead addr n => .next (hostMemRead addr.toNat n s)
    | .cacheClean addr n => .next (hostClean addr.toNat n s)
    | .cacheInvalidate addr n => .next (hostInvalidate addr.toNat n s)
    | .hardReset => .next (setPort .done (resetBlock s))
    | .sequencer => .next s

/-- Whose turn comes next, with the state it acts on (log entry 1). -/
inductive Turn where
  /-- The sequencer ends the running command. -/
  | finish (s : State)
  /-- The host makes this access. -/
  | host (a : Input) (s : State)
  /-- The sequencer's turn in phase IDLE, or nothing pending: nothing happens (R353). -/
  | rest (s : State)
deriving DecidableEq, Repr

/-- The sequencer's turn: it ends the running command, if there is one (R55). -/
def sequencerTurn (s : State) : Turn := if s.busy then .finish s else .rest s

/-- The next turn: the head of the pending accesses, or the sequencer when nothing is pending (log entry 1). -/
def nextTurn (s : State) : Turn :=
  match s.inputs with
  | [] => sequencerTurn s
  | .sequencer :: rest => sequencerTurn (setInputs rest s)
  | a :: rest => .host a (setInputs rest s)

/-- The command in flight, R[CMD] (R55). -/
def fetch (s : State) : Except DecodeError Instr := decodeWord s.cmd

/-- A write of the register at offset `off` of the window (R117, `WR`). -/
def wr (p : Platform) (off : Nat) (v : Word) : Input := .regWrite (Platform.windowBase p + BitVec.ofNat 32 off) 4 v

/-- `CMD <mnemonic>` (R118). -/
def stmtCmd (p : Platform) (i : Instr) : List Input := [wr p 0x000C (encode i)]

/-- `WAIT` (R118). -/
def stmtWait (p : Platform) : List Input := [.poll (Platform.windowBase p + 0x0010) 1 0]

/-- `ACK` (R118). -/
def stmtAck (p : Platform) : List Input := [wr p 0x0010 0x0000000E]

/-- `SETSRC a, n` (R118). -/
def stmtSetSrc (p : Platform) (a n : Word) : List Input := [wr p 0x0020 a, wr p 0x0024 n]

/-- `SETDST a, n` (R118). -/
def stmtSetDst (p : Platform) (a n : Word) : List Input := [wr p 0x0028 a, wr p 0x002C n]

/-- `SRST` (R118). -/
def stmtSrst (p : Platform) : List Input := [wr p 0x0008 0x80000000]

/-- The command word `w` placed in flight, the sequencer's turn next: the start of R326, whatever the phase. -/
def placeCommand (w : Word) (s : State) : State := setInputs (.sequencer :: s.inputs) (start w s)

end Sys2Proof.Machine
end

