-- ==== Sys2Proof/Machine/Step.lean ====
section
/-! DEFINITION. One step of the machine: a host access, or the end of the running command (D43, R381). -/

namespace Sys2Proof.Machine

/-- One step. The host's next access is made, or the sequencer ends the command in flight, or nothing happens. -/
def step (s : State) : Host.Outcome State Fault Refusal :=
  match nextTurn s with
  | .host a t => hostAccess a t
  | .rest t => .next t
  | .finish t =>
    match fetch t with
    | .ok i => exec i t
    | .error _ => .refused (.noCommandInFlight t.cmd)

/-- The state with the word `w` of `nbits` bits in flight in CMD, where the sequencer's next turn, which is the very
next step, fetches its command (R55, log entry 2). -/
def State.withFetchWord (s : State) (nbits w : Nat) : State := placeCommand (BitVec.ofNat 32 (w % 2 ^ nbits)) s

end Sys2Proof.Machine
end

