-- ==== Sys2Proof/Safety.lean ====
section
/-! DEFINITION. What the claims speak of: the invariants of a run, a safe run, the conditions a command completes
under and the memory a command leaves. -/

namespace Sys2Proof.Machine

/-- The shape of the state that every step keeps: the canonical memory, codes of at most 255 bits (R52), ascending
host-cache lists, a command in flight exactly while BUSY with its outcome registers cleared (R55, R326), at most one
of DONE and ERR (R35), and ERROR and ERR_INFO as R36, R37, R311 and R312 say. -/
structure State.Inv (s : State) : Prop where
  memWf : Memory.wf s.mem
  codeShort : ∀ c ∈ s.code.toList, c.length ≤ 255
  dirtyAscending : s.dirty.Pairwise (· < ·)
  dirtyExists : ∀ a ∈ s.dirty, a < 2 ^ 32
  staleAscending : s.stale.Pairwise (· < ·)
  oneOutcome : ¬(s.done = true ∧ s.err = true)
  busyDecodes : s.busy = true → ∃ i, decodeWord s.cmd = .ok i
  busyFresh : s.busy = true → s.done = false ∧ s.err = false ∧ s.error = 0 ∧ s.errInfo = 0
  codeBound : s.errCode.toNat ≤ 9
  subBound : s.errSub.toNat ≤ 15
  subOnlyFormat : s.errCode ≠ 2 → s.errSub = 0
  infoOnlyError : s.errCode = 0 → s.errInfo = 0

/-- The code-table invariant of R53: prefix-free, a single code is "0", two or more are complete. -/
structure TableOk (t : CodeTable) : Prop where
  prefixFree : ∀ x y : Byte, x ≠ y → codeOf t x ≠ [] → codeOf t y ≠ [] → conflict (codeOf t x) (codeOf t y) = false
  single : ∀ e, entries t = [e] → e.2 = [false]
  complete : 2 ≤ (entries t).length → ((entries t).map fun e => 2 ^ (255 - e.2.length)).sum = 2 ^ 255

/-- While TABLE_V = 1 the code table satisfies R53. -/
def State.TableInv (s : State) : Prop := s.tableV = true → TableOk s.code

/-- While FREQ_V = 1 the counts sum to at most 2^32 - 1 (R50). -/
def State.FreqInv (s : State) : Prop := s.freqV = true → (s.freq.toList.map BitVec.toNat).sum ≤ 2 ^ 32 - 1

/-- The host kept its duties for the command in flight (R95 items 1 to 3). -/
structure State.NoRace (s : State) : Prop where
  src : s.srcRace = false
  dst : s.dstRace = false

/-- The source region is legal and every source byte reads without a bus error (R316, R340). -/
structure State.SrcReady (s : State) : Prop where
  legal : s.srcAddr.toNat + s.srcLen.toNat ≤ 2 ^ 32
  answers : ∀ a, s.srcAddr.toNat ≤ a → a < s.srcAddr.toNat + s.srcLen.toNat → busOk s.platform a .read = true

/-- The destination region is legal, and its first `n` bytes take writes without a bus error (R316, R340). -/
structure State.DstReady (s : State) (n : Nat) : Prop where
  legal : s.dstAddr.toNat + s.dstCap.toNat ≤ 2 ^ 32
  answers : ∀ a, s.dstAddr.toNat ≤ a → a < s.dstAddr.toNat + n → busOk s.platform a .write = true

/-- The source and destination regions share no address, or one is empty (R341). -/
def State.Disjoint (s : State) : Prop :=
  s.srcLen.toNat = 0 ∨ s.dstCap.toNat = 0 ∨ s.dstAddr.toNat + s.dstCap.toNat ≤ s.srcAddr.toNat ∨
    s.srcAddr.toNat + s.srcLen.toNat ≤ s.dstAddr.toNat

/-- Memory `m'` is memory `m` with exactly the bytes `bs` stored from address `a` up: every other byte reads as
before. -/
def StoresExactly (m m' : Memory) (a : Nat) (bs : List Byte) : Prop :=
  ∀ x, Memory.read m' x = if a ≤ x ∧ x < a + bs.length then bs.getD (x - a) 0 else Memory.read m x

/-- Every byte outside `[a, a + n)` reads in `m'` as it does in `m`. -/
def SameOutside (m m' : Memory) (a n : Nat) : Prop :=
  ∀ x, ¬(a ≤ x ∧ x < a + n) → Memory.read m' x = Memory.read m x

/-- The address of the register at offset `off` of the window (R31). -/
def State.regAddr (s : State) (off : Nat) : Word := Platform.windowBase s.platform + BitVec.ofNat 32 off

/-- `t` is the reset state, with system memory and what is outside the block as in `s` (R60, R351, log entry 16). Its
memory, draw counter and stale bytes are left to the claim. -/
def State.IsResetOf (t s : State) : Prop :=
  t = { State.reset with
    mem := t.mem, draws := t.draws, platform := s.platform, inputs := s.inputs, port := .done, dirty := s.dirty,
    stale := t.stale }

/-- `c` begins a code of the table and is not all of it. -/
def BeginsCode (t : CodeTable) (c : Bits) : Prop := ∃ (y : Byte) (z : Bits), z ≠ [] ∧ codeOf t y = c ++ z

/-- The bits `u` leave every code at bit `i` (INVALID_CODE, R203): whole codes, then bits that are nothing yet or begin
a code, then the bit `u[i]`, with which they begin none. -/
def LeavesCodes (t : CodeTable) (u : Bits) (i : Nat) : Prop :=
  ∃ (b : List Byte) (c : Bits) (x : Bool) (r : Bits), u = b.flatMap (codeOf t) ++ c ++ x :: r ∧
    (∀ y ∈ b, codeOf t y ≠ []) ∧ (c = [] ∨ BeginsCode t c) ∧ (∀ y, ¬(c ++ [x]) <+: codeOf t y) ∧
    i = (b.flatMap (codeOf t)).length + c.length

/-- The bits `u` end inside a code that began at bit `i` (TRUNCATED_CODE, R203). -/
def EndsInCode (t : CodeTable) (u : Bits) (i : Nat) : Prop :=
  ∃ (b : List Byte) (c : Bits), u = b.flatMap (codeOf t) ++ c ∧ (∀ y ∈ b, codeOf t y ≠ []) ∧ c ≠ [] ∧ BeginsCode t c ∧
    i = (b.flatMap (codeOf t)).length

/-- Entries ParseEntries accepts one after the other (R235): symbols ascending, codes of 1 to 255 bits, no two in
conflict. -/
structure EntriesOk (es : List (Byte × Bits)) : Prop where
  ascending : es.Pairwise fun e f => e.1.toNat < f.1.toNat
  lengths : ∀ e ∈ es, 1 ≤ e.2.length ∧ e.2.length ≤ 255
  apart : es.Pairwise fun e f => conflict e.2 f.2 = false

/-- The low `8 - l % 8` bits of the byte `x`, the pad of `l` bits, are not all 0 (R201). -/
def PadBad (x : Byte) (l : Nat) : Prop := l % 8 ≠ 0 ∧ ∃ k, l % 8 ≤ k ∧ k < 8 ∧ x.getLsbD (7 - k) = true

/-- A run of steps, host accesses and command ends alike. -/
inductive Reaches : State → State → Prop where
  | refl (s : State) : Reaches s s
  | tail {s t u : State} : Reaches s t → step t = .next u → Reaches s u

/-- A safe run from `s`: whatever state it reaches keeps the shape of `State.Inv`, and no step there is refused. -/
def Safe (s : State) : Prop := ∀ t, Reaches s t → t.Inv ∧ ∀ r, step t ≠ .refused r

end Sys2Proof.Machine
end

