-- ==== Sys2Proof/Certificates/Slice0/Obligations.lean ====
section
/-! DEFINITION. The statements for the provers: what HUFFCORE does, rule by rule of spec/. -/

open Sys2Proof Sys2Proof.Machine

/-! ## Command words (30_encoding.md) -/

/-- Every command is well formed and its word decodes to it (30_encoding.md R110 to R113). -/
def Obligations.EncodeThenDecode : Prop := ∀ i : Instr, i.wf = true ∧ decodeWord (encode i) = .ok i

/-- A word decodes exactly when bits 31:8 are 0 and bits 7:0 are one of the ten opcodes, and then it is the word of
the command it decodes to (R111, R112, R115). -/
def Obligations.LegalWordsDecodeUniquely : Prop :=
  ∀ w : Word,
    ((∃ i, decodeWord w = .ok i) ↔ w.toNat / 256 = 0 ∧ (w.toNat % 256 ≤ 7 ∨ w.toNat % 256 = 0x10 ∨ w.toNat % 256 = 0x11)) ∧
    ∀ i, decodeWord w = .ok i → w = encode i

/-- The ten words of the opcode table, written out, and six illegal ones (R111, V-ILL of 95_test_vectors.md). -/
def Obligations.WrittenOutWordsDecode : Prop :=
  decodeWord 0x00000000 = .ok .nop ∧ decodeWord 0x00000001 = .ok .count ∧ decodeWord 0x00000002 = .ok .build ∧
  decodeWord 0x00000003 = .ok .encode ∧ decodeWord 0x00000004 = .ok .decode ∧ decodeWord 0x00000005 = .ok .digest ∧
  decodeWord 0x00000006 = .ok .tblStore ∧ decodeWord 0x00000007 = .ok .tblLoad ∧
  decodeWord 0x00000010 = .ok .compress ∧ decodeWord 0x00000011 = .ok .decompress ∧
  decodeWord 0x00000008 = .error .reservedOpcode ∧ decodeWord 0x00000110 = .error .reservedBits ∧
  decodeWord 0x000000FF = .error .reservedOpcode ∧ decodeWord 0x80000000 = .error .reservedBits ∧
  decodeWord 0x00000012 = .error .reservedOpcode ∧ decodeWord 0x0000000F = .error .reservedOpcode

/-! ## Steps (10_state.md R55, 92_eei_decisions.md D43, log entries 1 and 2) -/

/-- While BUSY, the sequencer's turn runs the command CMD decodes to: the step is `exec` of it on the state whose
pending accesses are popped. It is the sequencer's turn when nothing is pending or its mark is next (log entry 1). -/
def Obligations.StepEndsCommandInFlight : Prop :=
  ∀ (s : State) (i : Instr), s.phase = .busy → decodeWord s.cmd = .ok i →
    (s.inputs = [] → step s = exec i s) ∧
    ∀ rest, s.inputs = .sequencer :: rest → step s = exec i { s with inputs := rest }

/-- A pending host access is one step, in either phase, on the state whose pending accesses are popped, and an idle
machine with nothing pending stays as it is (D43, R353, log entry 1). -/
def Obligations.StepMakesHostAccess : Prop :=
  (∀ (s : State) (a : Input) (rest : List Input), s.inputs = a :: rest → a ≠ .sequencer →
    step s = hostAccess a { s with inputs := rest }) ∧
  ∀ s : State, s.phase = .idle → s.inputs = [] → step s = .next s

/-- A word placed in flight is run by the very next step, as the command it decodes to (log entry 2). -/
def Obligations.StepAfterFetchWordRunsIt : Prop :=
  ∀ (s : State) (w : Nat) (i : Instr), decodeTableWord 32 w = some i →
    step (s.withFetchWord 32 w) = exec i (start (encode i) s)

/-- A legal word written to CMD in phase IDLE: CMD holds it, DONE, ERR, ERROR and ERR_INFO are 0, OVR and all else of
the block is as before, the phase is BUSY and IRQ is 0. No race on the destination is marked, and one on the source
exactly when the platform is not coherent and the host wrote a byte of the source that it has not cleaned (R326, R95
item 1; the marks and the list of uncleaned bytes are log entry 10). -/
def Obligations.LegalWordStartsCommand : Prop :=
  ∀ (s : State) (w : Word) (i : Instr), s.phase = .idle → decodeWord w = .ok i →
    ∃ t, hostAccess (.regWrite (s.regAddr 0x000C) 4 w) s = .next t ∧
      t = { s with
        cmd := w, done := false, err := false, errCode := 0, errSub := 0, errInfo := 0, phase := .busy, port := .done,
        srcRace := t.srcRace, dstRace := false } ∧
      t.error = 0 ∧ t.irq = false ∧
      (t.srcRace = true ↔ s.platform.coherentDma = false ∧
        ∃ x ∈ s.dirty, s.srcAddr.toNat ≤ x ∧ x < s.srcAddr.toNat + s.srcLen.toNat)

/-- An illegal word written to CMD in phase IDLE is ILLEGAL_CMD: CMD and ERR_INFO hold the word, ERROR is 1, ERR is 1,
DONE and OUT_LEN are 0, the phase stays IDLE and nothing else of the block changes (R327). -/
def Obligations.IllegalWordRejected : Prop :=
  ∀ (s : State) (w : Word), s.phase = .idle → (∀ i, decodeWord w ≠ .ok i) →
    ∃ t, hostAccess (.regWrite (s.regAddr 0x000C) 4 w) s = .next t ∧
      t = { s with
        cmd := w, done := false, errCode := 1, errSub := 0, errInfo := w, outLen := 0, err := true, port := .done } ∧
      t.error = 1

/-! ## Registers (10_state.md) -/

/-- Writes while BUSY: CMD only sets OVR, operand writes are ignored, CTRL.IE and STATUS's W1C take effect, SRST resets
(R47). -/
def Obligations.WritesWhileBusy : Prop :=
  ∀ (s : State) (v : Word), s.phase = .busy →
    hostAccess (.regWrite (s.regAddr 0x000C) 4 v) s = .next { s with ovr := true, port := .done } ∧
    (∀ off ∈ [0x0020, 0x0024, 0x0028, 0x002C, 0x0034],
      hostAccess (.regWrite (s.regAddr off) 4 v) s = .next { s with port := .done }) ∧
    (v.getLsbD 31 = false →
      hostAccess (.regWrite (s.regAddr 0x0008) 4 v) s = .next { s with ie := v.getLsbD 0, port := .done }) ∧
    (v.getLsbD 31 = true →
      ∃ t, hostAccess (.regWrite (s.regAddr 0x0008) 4 v) s = .next t ∧ t.IsResetOf s) ∧
    hostAccess (.regWrite (s.regAddr 0x0010) 4 v) s = .next
      { s with
        done := s.done && !v.getLsbD 1, err := s.err && !v.getLsbD 2, ovr := s.ovr && !v.getLsbD 3, port := .done }

/-- Operand writes in phase IDLE: the register takes the value and nothing else of the block changes (R38, R41). In
either phase, a write to any other offset but CTRL, CMD and STATUS, which are the read-only registers and windows and
the reserved offsets, changes nothing of the block (R32, R46). -/
def Obligations.OperandWritesWhileIdle : Prop :=
  (∀ (s : State) (v : Word) (off : Nat), off < 2 ^ 14 → off % 4 = 0 →
    off ∉ [0x0008, 0x000C, 0x0010, 0x0020, 0x0024, 0x0028, 0x002C, 0x0034] →
    hostAccess (.regWrite (s.regAddr off) 4 v) s = .next { s with port := .done }) ∧
  ∀ (s : State) (v : Word), s.phase = .idle →
    hostAccess (.regWrite (s.regAddr 0x0020) 4 v) s = .next { s with srcAddr := v, port := .done } ∧
    hostAccess (.regWrite (s.regAddr 0x0024) 4 v) s = .next { s with srcLen := v, port := .done } ∧
    hostAccess (.regWrite (s.regAddr 0x0028) 4 v) s = .next { s with dstAddr := v, port := .done } ∧
    hostAccess (.regWrite (s.regAddr 0x002C) 4 v) s = .next { s with dstCap := v, port := .done } ∧
    hostAccess (.regWrite (s.regAddr 0x0034) 4 v) s = .next { s with bitLen := v, port := .done }

/-- STATUS: each field at its bit, reserved bits 0, BUSY exactly while BUSY, and a write clears exactly those of DONE,
ERR and OVR it holds a 1 for, leaving ERROR and ERR_INFO (R35, R55). -/
def Obligations.StatusFieldsAndWriteOneToClear : Prop :=
  (∀ s : State,
    s.status.getLsbD 0 = decide (s.phase = .busy) ∧ s.status.getLsbD 1 = s.done ∧ s.status.getLsbD 2 = s.err ∧
    s.status.getLsbD 3 = s.ovr ∧ s.status.getLsbD 8 = s.freqV ∧ s.status.getLsbD 9 = s.tableV ∧
    s.status.getLsbD 10 = s.digestV ∧ s.status.getLsbD 11 = s.expV ∧
    ∀ k, 4 ≤ k ∧ k < 8 ∨ 12 ≤ k → s.status.getLsbD k = false) ∧
  ∀ (s : State) (v : Word), ∃ t, hostAccess (.regWrite (s.regAddr 0x0010) 4 v) s = .next t ∧
    t.status = s.status &&& ~~~(v &&& 0x0000000E) ∧ t = { s with done := t.done, err := t.err, ovr := t.ovr, port := .done }

/-- CTRL in either phase: SRST = 0 sets IE to bit 0 and nothing else, CTRL then reads that bit alone; SRST = 1 is the
soft reset, ignores every other bit and leaves IE = 0 (R33). That the platform, the pending accesses and the host's
caches survive the reset is the model's (log entry 16). -/
def Obligations.CtrlWrite : Prop :=
  (∀ (s : State) (v : Word), v.getLsbD 31 = false →
    ∃ t, hostAccess (.regWrite (s.regAddr 0x0008) 4 v) s = .next t ∧
      t = { s with ie := v.getLsbD 0, port := .done } ∧ t.ctrl = v &&& 1 ∧ t.irq = (v.getLsbD 0 && (s.done || s.err))) ∧
  (∀ (s : State) (v v' : Word), v.getLsbD 31 = true → v'.getLsbD 31 = true →
    ∃ t, hostAccess (.regWrite (s.regAddr 0x0008) 4 v) s = .next t ∧
      hostAccess (.regWrite (s.regAddr 0x0008) 4 v') s = .next t ∧ t.IsResetOf s ∧ t.ie = false ∧ t.ctrl = 0) ∧
  State.reset.ie = false

/-- A soft reset (CTRL write with SRST = 1) and a hardware reset, from any state: the block's registers, flags and
tables all take their reset values, phase IDLE, IRQ 0. Memory is as before, but for the destination bytes of a command
that was running and writes the destination (R350, R351, R352). What stays outside the block is log entry 16. -/
def Obligations.ResetsRestoreTheResetState : Prop :=
  ∀ (s : State) (v : Word), v.getLsbD 31 = true → ∀ a ∈ [Input.regWrite (s.regAddr 0x0008) 4 v, Input.hardReset],
    ∃ t, hostAccess a s = .next t ∧ t.irq = false ∧
      t.IsResetOf s ∧
      ((s.phase = .idle ∨ ∀ i, decodeWord s.cmd = .ok i → (profile i).writesDst = false) →
        t.mem = s.mem ∧ t.stale = s.stale) ∧
      SameOutside s.mem t.mem s.dstAddr.toNat s.dstCap.toNat

/-- The reset state: ID and VERSION are their constants, every other register of the window reads 0, the phase is IDLE,
IRQ is 0, every count is 0 and no symbol has a code (R60). -/
def Obligations.ResetStateReadsItsValues : Prop :=
  readStored State.reset .id = 0x48554646 ∧ readStored State.reset .version = 0x00010000 ∧
  (∀ r : Reg, r ≠ .id → r ≠ .version → readStored State.reset r = 0) ∧
  State.reset.phase = .idle ∧ State.reset.irq = false ∧
  (∀ x : Byte, State.reset.freq[x.toNat]'x.isLt = 0 ∧ codeOf State.reset.code x = [])

/-- A register access that is not 32 bits wide, not word aligned or outside the window changes no state and gets the
error response with the platform's parameter REG_ERR_RESPONSE (R88). That it is one and the same value for every such
access, read or write, at every address and width, is the model's choice (log entry 19). -/
def Obligations.IllegalPortAccessChangesNothing : Prop :=
  ∀ (s : State) (addr v : Word) (width : Nat),
    width ≠ 4 ∨ addr.toNat % 4 ≠ 0 ∨ addr.toNat / 2 ^ 14 ≠ s.platform.huffBase.toNat →
    hostAccess (.regWrite addr width v) s = .next { s with port := .error s.platform.regErr } ∧
    hostAccess (.regRead addr width) s = .next { s with port := .error s.platform.regErr }

/-- A register read, at any address and width and in either phase, changes nothing of the machine but the answer and
the draw counter (R46; the answer's record and the counter are the model's, log entries 12 and 3). -/
def Obligations.ReadsHaveNoSideEffect : Prop :=
  ∀ (s : State) (addr : Word) (width : Nat), ∃ t, hostAccess (.regRead addr width) s = .next t ∧
    t = { s with port := t.port, draws := t.draws }

/-- Reads while BUSY, in a state of the invariant: identification, control and operand registers read their values,
STATUS reads BUSY = 1, DONE = ERR = 0, OVR as stored and its reserved bits 0, ERROR and ERR_INFO read 0 (R48). The draw
counter is the model's, and so is it that every aligned read, also of a register R48 gives a value, takes a draw of its
own (log entry 3). -/
def Obligations.ReadsWhileBusy : Prop :=
  ∀ s : State, s.Inv → s.phase = .busy →
    (∀ r ∈ [(0x0000, (0x48554646 : Word)), (0x0004, 0x00010000), (0x0008, if s.ie then 1 else 0), (0x000C, s.cmd),
        (0x0014, 0), (0x0018, 0), (0x0020, s.srcAddr), (0x0024, s.srcLen), (0x0028, s.dstAddr), (0x002C, s.dstCap)],
      ∃ t, hostAccess (.regRead (s.regAddr r.1) 4) s = .next t ∧ t.port = .word r.2) ∧
    (∃ t w, hostAccess (.regRead (s.regAddr 0x0010) 4) s = .next t ∧ t.port = .word w ∧ w.getLsbD 0 = true ∧
      w.getLsbD 1 = false ∧ w.getLsbD 2 = false ∧ w.getLsbD 3 = s.ovr ∧
      ∀ k, 4 ≤ k ∧ k < 8 ∨ 12 ≤ k → w.getLsbD k = false) ∧
    ∀ off, off < 2 ^ 14 → off % 4 = 0 →
      ∃ t w, hostAccess (.regRead (s.regAddr off) 4) s = .next t ∧ t.port = .word w ∧ t.draws = s.draws + 1

/-- Reads in phase IDLE. The registers below 0x0040 read their stored values, NUM_SYMS reads the number of symbols
with a code, MAX_LEN the greatest code length, where no code has more than 255 bits (R52), and reserved offsets read 0
(R32 to R43, R46). The windows: FREQ[s] at 0x0400 + 4·s, CODE_LEN[s] at 0x0800 + 4·s, DIGEST_ACT and DIGEST_EXP word i
at 0x0040 + 4·i and 0x0060 + 4·i, and CODE_BITS word w of s at 0x2000 + 32·s + 4·w, whose bit 31 - j is code bit
32·w + j, or 0 past the code's end (R31, R44, R45, R50, R52). -/
def Obligations.TableWindowsReadTheTables : Prop :=
  ∀ s : State, s.phase = .idle →
    (∀ r ∈ [(0x0000, (0x48554646 : Word)), (0x0004, 0x00010000), (0x0008, if s.ie then 1 else 0), (0x000C, s.cmd),
        (0x0010, s.status), (0x0014, BitVec.ofNat 32 (s.errCode.toNat + 256 * s.errSub.toNat)), (0x0018, s.errInfo),
        (0x0020, s.srcAddr), (0x0024, s.srcLen), (0x0028, s.dstAddr), (0x002C, s.dstCap), (0x0030, s.outLen),
        (0x0034, s.bitLen)],
      ∃ t, hostAccess (.regRead (s.regAddr r.1) 4) s = .next t ∧ t.port = .word r.2) ∧
    (∃ t n, hostAccess (.regRead (s.regAddr 0x0038) 4) s = .next t ∧ t.port = .word n ∧
      n.toNat = symbols.countP fun x => !(codeOf s.code x).isEmpty) ∧
    ((∀ x, (codeOf s.code x).length ≤ 255) → ∃ t m, hostAccess (.regRead (s.regAddr 0x003C) 4) s = .next t ∧
      t.port = .word m ∧ (∀ x, (codeOf s.code x).length ≤ m.toNat) ∧ ∃ x, (codeOf s.code x).length = m.toNat) ∧
    (∀ off, off % 4 = 0 → off = 0x001C ∨ 0x0080 ≤ off ∧ off < 0x0400 ∨ 0x0C00 ≤ off ∧ off < 0x2000 →
      ∃ t, hostAccess (.regRead (s.regAddr off) 4) s = .next t ∧ t.port = .word 0) ∧
    (∀ x : Byte, ∃ t, hostAccess (.regRead (s.regAddr (0x0400 + 4 * x.toNat)) 4) s = .next t ∧
      t.port = .word (s.freq[x.toNat]'x.isLt)) ∧
    (∀ x : Byte, ∃ t, hostAccess (.regRead (s.regAddr (0x0800 + 4 * x.toNat)) 4) s = .next t ∧
      t.port = .word (BitVec.ofNat 32 ((codeOf s.code x).length % 256))) ∧
    (∀ i : Fin 8, (∃ t, hostAccess (.regRead (s.regAddr (0x0040 + 4 * i.val)) 4) s = .next t ∧
      t.port = .word s.digestAct[i]) ∧ ∃ t, hostAccess (.regRead (s.regAddr (0x0060 + 4 * i.val)) 4) s = .next t ∧
      t.port = .word s.digestExp[i]) ∧
    ∀ (x : Byte) (w : Nat), w < 8 → ∃ t b, hostAccess (.regRead (s.regAddr (0x2000 + 32 * x.toNat + 4 * w)) 4) s = .next t ∧
      t.port = .word b ∧ ∀ j, j < 32 → b.getLsbD (31 - j) = (codeOf s.code x).getD (32 * w + j) false

/-! ## The host's memory and waiting (20_memory.md, 30_encoding.md R118) -/

/-- Between commands the host reads back the bytes it wrote, whatever the platform's coherence, and every other byte
of memory is as before (20_memory.md R81, R99). It is the model's choice that the write is in memory at its own step (log
entry 20) and that this holds in every state of phase IDLE, also before the host has seen BUSY = 0 (log entry 22). That
no host access gets a bus error is log entry 6, and what the host's caches show is log entry 10. -/
def Obligations.HostReadsBackItsWrite : Prop :=
  ∀ (s : State) (a : Word) (bs : List Byte), s.phase = .idle → a.toNat + bs.length ≤ 2 ^ 32 →
    ∃ t u, hostAccess (.memWrite a bs) s = .next t ∧ hostAccess (.memRead a bs.length) t = .next u ∧
      u.port = .bytes bs ∧ StoresExactly s.mem t.mem a.toNat bs

/-- A host memory write, in either phase: exactly its bytes are stored, and it marks a race on the source, or on the
destination, exactly when a command runs, whatever the command, and the write meets that region (R93 items 3 and 4; that
a write of no bytes or to an empty region is none is log entry 7). That the bytes are in memory at the write's own step,
also on a coherent platform, is the model's choice (log entry 20), and that the write never gets a bus error is log
entry 6. Nothing else changes but the host's cache lists (log entry 10). A race marked on the destination makes only destination bytes `any`: with and without the mark the command's
end is the same in every register, flag and table, and in memory outside the destination region. -/
def Obligations.RacedDestinationLosesOnlyItsBytes : Prop :=
  (∀ (s : State) (a : Word) (bs : List Byte), a.toNat + bs.length ≤ 2 ^ 32 →
    ∃ t, hostAccess (.memWrite a bs) s = .next t ∧ StoresExactly s.mem t.mem a.toNat bs ∧
      t = { s with
        mem := t.mem, port := .done, srcRace := t.srcRace, dstRace := t.dstRace, dirty := t.dirty, stale := t.stale } ∧
      (t.srcRace = true ↔ s.srcRace = true ∨ s.phase = .busy ∧
        ∃ x, (a.toNat ≤ x ∧ x < a.toNat + bs.length) ∧ s.srcAddr.toNat ≤ x ∧ x < s.srcAddr.toNat + s.srcLen.toNat) ∧
      (t.dstRace = true ↔ s.dstRace = true ∨ s.phase = .busy ∧
        ∃ x, (a.toNat ≤ x ∧ x < a.toNat + bs.length) ∧ s.dstAddr.toNat ≤ x ∧ x < s.dstAddr.toNat + s.dstCap.toNat) ∧
      (∀ x, x ∈ t.dirty ↔ x ∈ s.dirty ∨ s.platform.coherentDma = false ∧ a.toNat ≤ x ∧ x < a.toNat + bs.length) ∧
      ∀ x, x ∈ t.stale ↔ x ∈ s.stale ∧ ¬(a.toNat ≤ x ∧ x < a.toNat + bs.length)) ∧
  ∀ (i : Instr) (s : State),
    ∃ t u, exec i { s with dstRace := true } = .next t ∧ exec i { s with dstRace := false } = .next u ∧
      t = { u with mem := t.mem, draws := t.draws, stale := t.stale } ∧
      SameOutside u.mem t.mem s.dstAddr.toNat s.dstCap.toNat

/-- `WAIT` on a running command: the poll reads BUSY = 1, the command ends, the poll reads BUSY = 0 and the statement is
done, in three steps (30_encoding.md R118, 70_reset_and_hazards.md R380, log entry 13). -/
def Obligations.WaitSeesTheCommandEnd : Prop :=
  ∀ (s : State) (i : Instr), s.phase = .busy → decodeWord s.cmd = .ok i →
    s.inputs = [.poll (s.regAddr 0x0010) 0x00000001 0x00000000] →
    ∃ t, Sys2Proof.core.run 3 s = .next t ∧ t.phase = .idle ∧ t.inputs = [] ∧ t.port = .word t.status

/-! ## The end of any command (60_exceptions.md) -/

/-- Every command in flight ends, in one completion or one error, with phase IDLE (R310, R325; of a command with a
raced source it is log entry 8). -/
def Obligations.EveryCommandEnds : Prop :=
  ∀ (i : Instr) (s : State), ∃ t, exec i s = .next t ∧ t.phase = .idle ∧
    (s.done = false → s.err = false → t.done = !t.err)

/-- The end of any command, completion or error, raises IRQ exactly when IE is 1 (R330). -/
def Obligations.InterruptAtEveryEnd : Prop :=
  ∀ (i : Instr) (s t : State), exec i s = .next t → t.irq = s.ie

/-- No command changes the registers of its operand regions, CMD, CTRL or OVR, nor the platform, nor the host's side:
its pending accesses, its last answer and what it holds back in its caches (R113, R321, R322; of a command with a raced
source it is log entry 8). The bytes its caches may not show change only on a platform that is not coherent, and only
by destination bytes that come to them (R97, log entry 10). -/
def Obligations.CommandsKeepControlAndOperands : Prop :=
  ∀ (i : Instr) (s t : State), exec i s = .next t →
    t.ie = s.ie ∧ t.cmd = s.cmd ∧ t.ovr = s.ovr ∧ t.srcAddr = s.srcAddr ∧ t.srcLen = s.srcLen ∧
    t.dstAddr = s.dstAddr ∧ t.dstCap = s.dstCap ∧ t.platform = s.platform ∧ t.inputs = s.inputs ∧ t.port = s.port ∧
    t.dirty = s.dirty ∧ (s.platform.coherentDma = true → t.stale = s.stale) ∧ (∀ x ∈ s.stale, x ∈ t.stale) ∧
    ∀ x ∈ t.stale, x ∈ s.stale ∨ s.dstAddr.toNat ≤ x ∧ x < s.dstAddr.toNat + s.dstCap.toNat

/-- However a command ends, it changes only the result state its row of R113 lists: FREQ by COUNT and COMPRESS alone,
the code table by BUILD, TBL_LOAD, COMPRESS and DECOMPRESS alone, DIGEST_ACT by DIGEST, COMPRESS and DECOMPRESS alone,
DIGEST_EXP by DECOMPRESS alone, BIT_LEN by ENCODE, COMPRESS and DECOMPRESS alone, each with its valid flag
(R113, R322; of a command with a raced source it is log entry 8). -/
def Obligations.CommandsKeepUnlistedResults : Prop :=
  ∀ (i : Instr) (s t : State), exec i s = .next t →
    (i ∉ [Instr.count, .compress] → t.freq = s.freq ∧ t.freqV = s.freqV) ∧
    (i ∉ [Instr.build, .tblLoad, .compress, .decompress] → t.code = s.code ∧ t.tableV = s.tableV) ∧
    (i ∉ [Instr.digest, .compress, .decompress] → t.digestAct = s.digestAct ∧ t.digestV = s.digestV) ∧
    (i ∉ [Instr.decompress] → t.digestExp = s.digestExp ∧ t.expV = s.expV) ∧
    (i ∉ [Instr.encode, .compress, .decompress] → t.bitLen = s.bitLen)

/-- NOP, COUNT, BUILD, DIGEST and TBL_LOAD change no byte of memory, however they end, when the host made no race
(R82, R114). -/
def Obligations.MemoryKeptWithoutDestination : Prop :=
  ∀ (i : Instr) (s t : State), s.NoRace → i ∈ [Instr.nop, .count, .build, .digest, .tblLoad] → exec i s = .next t →
    ∀ a, Memory.read t.mem a = Memory.read s.mem a

/-- No command changes a byte outside `[DST_ADDR, DST_ADDR + DST_CAP)`, however it ends, also where the host made a race
(R86; of a command with a raced source it is log entry 8). -/
def Obligations.MemoryKeptOutsideDestination : Prop :=
  ∀ (i : Instr) (s t : State), exec i s = .next t →
    SameOutside s.mem t.mem s.dstAddr.toNat s.dstCap.toNat

/-- A command that completes changes exactly bytes within `Dst(0..OUT_LEN - 1)`, and OUT_LEN is at most DST_CAP
(R39, R86). -/
def Obligations.CompletionWritesOutLenBytes : Prop :=
  ∀ (i : Instr) (s t : State), s.NoRace → s.done = false → exec i s = .next t → t.done = true →
    t.outLen.toNat ≤ s.dstCap.toNat ∧ SameOutside s.mem t.mem s.dstAddr.toNat t.outLen.toNat

/-- NOT_READY: BUILD without FREQ_V reports 0x100, ENCODE, DECODE and TBL_STORE without TABLE_V report 0x200, and
nothing but ERROR, ERR_INFO, ERR and OUT_LEN changes. With its one flag set, whatever the other, no command reports it,
and the commands that require none never do (R314, R321). -/
def Obligations.NotReadyWithoutTheFlag : Prop :=
  ∀ s : State, s.NoRace →
    (s.freqV = false → exec .build s = .next
      { s with errCode := 4, errSub := 0, errInfo := 0x00000100, outLen := 0, err := true, phase := .idle }) ∧
    (s.tableV = false → ∀ i ∈ [Instr.encode, .decode, .tblStore], exec i s = .next
      { s with errCode := 4, errSub := 0, errInfo := 0x00000200, outLen := 0, err := true, phase := .idle }) ∧
    ∀ (i : Instr) (t : State), (i = .build → s.freqV = true) →
      (i ∈ [Instr.encode, .decode, .tblStore] → s.tableV = true) → s.err = false → exec i s = .next t →
      t.err = true → t.errCode ≠ 4

/-- RANGE: with its flag set, a command whose source wraps (bit 0), whose destination wraps (bit 1), or whose two
regions, both used and not empty, share an address (bit 2), reports the sum of those bits and nothing but ERROR,
ERR_INFO, ERR and OUT_LEN changes. A command with none of the three never reports it (R319, R340, R341). -/
def Obligations.RangeOfIllegalRegions : Prop :=
  ∀ (i : Instr) (s : State) (src dst : Prop) (r : Nat), s.NoRace →
    (i ∈ [Instr.encode, .decode, .tblStore] → s.tableV = true) → (i = .build → s.freqV = true) →
    (src ↔ i ∈ [Instr.count, .encode, .decode, .digest, .tblLoad, .compress, .decompress]) →
    (dst ↔ i ∈ [Instr.encode, .decode, .tblStore, .compress, .decompress]) →
    (∃ b0 b1 b2 : Bool, r = b0.toNat + 2 * b1.toNat + 4 * b2.toNat ∧
      (b0 = true ↔ src ∧ 2 ^ 32 < s.srcAddr.toNat + s.srcLen.toNat) ∧
      (b1 = true ↔ dst ∧ 2 ^ 32 < s.dstAddr.toNat + s.dstCap.toNat) ∧
      (b2 = true ↔ src ∧ dst ∧ 0 < s.srcLen.toNat ∧ 0 < s.dstCap.toNat ∧
        s.srcAddr.toNat < s.dstAddr.toNat + s.dstCap.toNat ∧ s.dstAddr.toNat < s.srcAddr.toNat + s.srcLen.toNat)) →
    (r ≠ 0 → exec i s = .next
      { s with errCode := 6, errSub := 0, errInfo := BitVec.ofNat 32 r, outLen := 0, err := true, phase := .idle }) ∧
    (r = 0 → ∀ t, s.err = false → exec i s = .next t → t.err = true → t.errCode ≠ 6)

/-- A late error other than INTEGRITY clears the valid flags of the state its command writes, and every error leaves
OUT_LEN = 0 (R320, R322). -/
def Obligations.LateErrorsClearFlags : Prop :=
  ∀ (i : Instr) (s t : State), s.NoRace → s.err = false → exec i s = .next t → t.err = true →
    t.outLen = 0 ∧
    (t.errCode ≠ 3 → t.errCode ≠ 4 → t.errCode ≠ 6 →
      (i ∈ [Instr.count, .compress] → t.freqV = false) ∧
      (i ∈ [Instr.build, .tblLoad, .compress, .decompress] → t.tableV = false) ∧
      (i ∈ [Instr.digest, .compress, .decompress] → t.digestV = false) ∧
      (i = .decompress → t.expV = false))

/-- BUS reports an address of a region of the command whose access gets a bus error (R313, R316). -/
def Obligations.BusErrorNamesAFailingAddress : Prop :=
  ∀ (i : Instr) (s t : State), s.NoRace → s.err = false → exec i s = .next t → t.err = true → t.errCode = 7 →
    ∃ a : Nat, t.errInfo = BitVec.ofNat 32 a ∧
      ((i ∈ [Instr.count, .encode, .decode, .digest, .tblLoad, .compress, .decompress] ∧ s.srcAddr.toNat ≤ a ∧
          a < s.srcAddr.toNat + s.srcLen.toNat ∧ busOk s.platform a .read = false) ∨
        (i ∈ [Instr.encode, .decode, .tblStore, .compress, .decompress] ∧ s.dstAddr.toNat ≤ a ∧
          a < s.dstAddr.toNat + s.dstCap.toNat ∧ busOk s.platform a .write = false))

/-- A command that completes where no access gets a bus error, with k bytes of output, ends with BUS where a byte of
the source it reads does not read or a byte of `Dst(0..k - 1)` it writes does not write, and else completes just so
(R316 item 2). COUNT and DIGEST of a legal source with a byte that does not read end with BUS, their valid flag 0
(R140, R286). -/
def Obligations.UnreadableSourceIsBusError : Prop :=
  (∀ (i : Instr) (s t : State) (bad : Prop), s.NoRace → s.done = false →
    exec i { s with platform := { s.platform with busFaults := [] } } = .next t → t.done = true →
    (bad ↔
      (i ∈ [Instr.count, .encode, .decode, .digest, .tblLoad, .compress, .decompress] ∧
        ∃ a, s.srcAddr.toNat ≤ a ∧ a < s.srcAddr.toNat + s.srcLen.toNat ∧ busOk s.platform a .read = false) ∨
      (i ∈ [Instr.encode, .decode, .tblStore, .compress, .decompress] ∧
        ∃ a, s.dstAddr.toNat ≤ a ∧ a < s.dstAddr.toNat + t.outLen.toNat ∧ busOk s.platform a .write = false)) →
    (bad → ∃ u, exec i s = .next u ∧ u.err = true ∧ u.done = false ∧ u.error = 7 ∧ u.outLen = 0) ∧
    (¬bad → exec i s = .next { t with platform := s.platform })) ∧
  ∀ (i : Instr) (s : State), i ∈ [Instr.count, .digest] → s.NoRace →
    s.srcAddr.toNat + s.srcLen.toNat ≤ 2 ^ 32 →
    (∃ a, s.srcAddr.toNat ≤ a ∧ a < s.srcAddr.toNat + s.srcLen.toNat ∧ busOk s.platform a .read = false) →
    ∃ t, exec i s = .next t ∧ t.err = true ∧ t.error = 7 ∧ t.outLen = 0 ∧ (i = .count → t.freqV = false) ∧
      (i = .digest → t.digestV = false)

/-! ## NOP, COUNT and BUILD (45_control.md, 40_count_build.md) -/

/-- NOP completes from every state in which the host made no race: OUT_LEN is 0, DONE is 1, the phase is IDLE and
nothing else changes (R300). -/
def Obligations.NopCompletes : Prop :=
  ∀ s : State, s.NoRace → exec .nop s = .next { s with outLen := 0, done := true, phase := .idle }

/-- COUNT completes on a legal, readable source: FREQ[x] is the number of source bytes equal to x, FREQ_V and DONE are
1, OUT_LEN is 0 and nothing else changes (R140, R141). -/
def Obligations.CountCompletes : Prop :=
  ∀ s : State, s.NoRace → s.SrcReady →
    ∃ t, exec .count s = .next t ∧
      t = { s with freq := t.freq, freqV := true, outLen := 0, done := true, phase := .idle } ∧
      ∀ x : Byte, (t.freq[x.toNat]'x.isLt).toNat =
        (List.range s.srcLen.toNat).countP fun i => Memory.read s.mem (s.srcAddr.toNat + i) == x

/-- BUILD completes when FREQ_V is 1: the code table is BuildTable of FREQ, TABLE_V and DONE are 1, OUT_LEN is 0 and
nothing else changes (R155, R158). -/
def Obligations.BuildCompletes : Prop :=
  ∀ s : State, s.NoRace → s.freqV = true →
    exec .build s = .next
      { s with code := buildTable s.freq, tableV := true, outLen := 0, done := true, phase := .idle }

/-- The table BUILD makes, for every FREQ: prefix-free, a single code is "0", two or more are complete, and a symbol
has a code, of 1 to 255 bits, exactly when its count is not 0 (R53, R156 items 1 to 3). -/
def Obligations.BuiltTableIsACompletePrefixCode : Prop :=
  ∀ s t : State, s.NoRace → s.freqV = true → exec .build s = .next t →
    TableOk t.code ∧
    ∀ x : Byte, (codeOf t.code x ≠ [] ↔ s.freq[x.toNat]'x.isLt ≠ 0) ∧ (codeOf t.code x).length ≤ 255

/-- BUILD of an all-zero FREQ gives the empty table, and of a FREQ with one count, that of x, gives x the code "0" and
no other symbol a code (R149, R150). Of two counted symbols the one with the lower (count, symbol) gets "0" and the
other "1". Of three, x, y, z in the order of (count, symbol), x and y merge first: the lower of z and the merged node is
the left child of the root, z on a tie, and x is left of y (R146, R147, R152). -/
def Obligations.BuildOfNoneOrOneSymbol : Prop :=
  ∀ (s t : State) (f : Byte → Nat) (lower : Byte → Byte → Prop), s.NoRace → s.freqV = true →
    exec .build s = .next t → (∀ x : Byte, f x = (s.freq[x.toNat]'x.isLt).toNat) →
    (∀ x y, lower x y ↔ f x < f y ∨ f x = f y ∧ x.toNat < y.toNat) →
    ((∀ y, f y = 0) → ∀ y, codeOf t.code y = []) ∧
    (∀ x, f x ≠ 0 → (∀ y, y ≠ x → f y = 0) →
      codeOf t.code x = [false] ∧ ∀ y, y ≠ x → codeOf t.code y = []) ∧
    (∀ x y : Byte, f x ≠ 0 → lower x y → (∀ w, w ≠ x → w ≠ y → f w = 0) →
      codeOf t.code x = [false] ∧ codeOf t.code y = [true] ∧ ∀ w, w ≠ x → w ≠ y → codeOf t.code w = []) ∧
    ∀ x y z : Byte, f x ≠ 0 → lower x y → lower y z → (∀ w, w ≠ x → w ≠ y → w ≠ z → f w = 0) →
      (f z ≤ f x + f y →
        codeOf t.code z = [false] ∧ codeOf t.code x = [true, false] ∧ codeOf t.code y = [true, true]) ∧
      (f x + f y < f z →
        codeOf t.code x = [false, false] ∧ codeOf t.code y = [false, true] ∧ codeOf t.code z = [true])

/-! ## ENCODE and DECODE (41_encode_pack.md, 42_decode.md) -/

/-- ENCODE completes when every source byte has a code and the result fits: Dst holds the packed codes of the source
bytes in order, byte j holding bits 8·j to 8·j + 7 most significant first and 0 past the end, BIT_LEN is L, OUT_LEN is
ceil8(L), DONE is 1 and nothing else changes (R180 to R183, R185), but for the host's stale bytes (log entry 10). -/
def Obligations.EncodeCompletes : Prop :=
  ∀ (s : State) (bits : Bits), s.NoRace → s.tableV = true → s.SrcReady → s.Disjoint →
    bits = (srcBytes s).flatMap (codeOf s.code) → (∀ x ∈ srcBytes s, codeOf s.code x ≠ []) →
    bits.length ≤ 2 ^ 32 - 1 → s.DstReady (ceil8 bits.length) → ceil8 bits.length ≤ s.dstCap.toNat →
    ∃ t out, exec .encode s = .next t ∧
      t = { s with
        mem := t.mem, bitLen := BitVec.ofNat 32 bits.length, outLen := BitVec.ofNat 32 (ceil8 bits.length),
        done := true, phase := .idle, stale := staleWith s (ceil8 bits.length) } ∧
      StoresExactly s.mem t.mem s.dstAddr.toNat out ∧ out.length = (bits.length + 7) / 8 ∧
      ∀ j, j < out.length → ∀ k, k < 8 → (out.getD j 0).getLsbD (7 - k) = bits.getD (8 * j + k) false

/-- ENCODE's errors, in their order, when every access completes: UNCODED at the least offset of a byte with no code,
then TOO_LONG, then CAPACITY with the bytes needed (R185, R315). -/
def Obligations.EncodeErrors : Prop :=
  ∀ s : State, s.NoRace → s.tableV = true → s.SrcReady → s.Disjoint → s.DstReady s.dstCap.toNat → s.err = false →
    ∃ t, exec .encode s = .next t ∧
      (∀ k x, (srcBytes s)[k]? = some x → codeOf s.code x = [] →
        (∀ j y, j < k → (srcBytes s)[j]? = some y → codeOf s.code y ≠ []) →
        t.err = true ∧ t.error = 9 ∧ t.errInfo = BitVec.ofNat 32 k) ∧
      ((∀ x ∈ srcBytes s, codeOf s.code x ≠ []) →
        (2 ^ 32 - 1 < ((srcBytes s).flatMap (codeOf s.code)).length → t.err = true ∧ t.error = 8 ∧ t.errInfo = 0) ∧
        (((srcBytes s).flatMap (codeOf s.code)).length ≤ 2 ^ 32 - 1 →
          s.dstCap.toNat < ceil8 ((srcBytes s).flatMap (codeOf s.code)).length →
          t.err = true ∧ t.error = 5 ∧
            t.errInfo = BitVec.ofNat 32 (ceil8 ((srcBytes s).flatMap (codeOf s.code)).length)))

/-- `Unpack(Pack(b), |b|) = b` and `PadOK(Pack(b), |b|)`, for every bit string (R202). -/
def Obligations.UnpackInvertsPack : Prop :=
  ∀ b : Bits, unpack (pack b) b.length = b ∧ padOk (pack b) b.length = true

/-- DECODE completes when SRC_LEN is ceil8(BIT_LEN), the pad bits are 0, the bits decode and the symbols fit: Dst holds
the symbols, OUT_LEN is their number, DONE is 1 and nothing else changes (R200, R201, R203, R208), but for the host's
stale bytes (log entry 10). R203 defines the symbols for a table of R53. Where a raced command left another table with
TABLE_V = 1, which symbols Dst holds is the model's choice (log entry 21). -/
def Obligations.DecodeCompletes : Prop :=
  ∀ (s : State) (out : List Byte), s.NoRace → s.tableV = true → s.SrcReady → s.Disjoint →
    s.srcLen.toNat = ceil8 s.bitLen.toNat → padOk (srcBytes s) s.bitLen.toNat = true →
    decodeBits s.code (unpack (srcBytes s) s.bitLen.toNat) = .ok out → s.DstReady out.length →
    out.length ≤ s.dstCap.toNat →
    ∃ t, exec .decode s = .next t ∧
      t = { s with
        mem := t.mem, outLen := BitVec.ofNat 32 out.length, done := true, phase := .idle,
        stale := staleWith s out.length } ∧
      StoresExactly s.mem t.mem s.dstAddr.toNat out

/-- DECODE undoes ENCODE: with a table of R53 and a source that packs the codes of `b`, BIT_LEN being their number of
bits, DECODE completes and Dst holds `b` (R202, R205 item 1). -/
def Obligations.DecodeRecoversEncodedBytes : Prop :=
  ∀ (s : State) (b : List Byte), s.NoRace → s.tableV = true → TableOk s.code → s.SrcReady → s.Disjoint →
    (∀ x ∈ b, codeOf s.code x ≠ []) → s.bitLen.toNat = (b.flatMap (codeOf s.code)).length →
    srcBytes s = pack (b.flatMap (codeOf s.code)) → s.DstReady b.length → b.length ≤ s.dstCap.toNat →
    ∃ t, exec .decode s = .next t ∧ t.done = true ∧ t.err = s.err ∧ t.outLen = BitVec.ofNat 32 b.length ∧
      StoresExactly s.mem t.mem s.dstAddr.toNat b

/-- DECODE's errors in their order, when every access completes: TRUNC_PAYLOAD with 0, TRAILING with ceil8(L),
PAD_NONZERO with ceil8(L) - 1. Then, with a table of R53: INVALID_CODE with the index of the bit that left every code,
TRUNCATED_CODE with that of the first leftover bit, CAPACITY with the number of symbols (R203, R208, R312). -/
def Obligations.DecodeLengthAndPadErrors : Prop :=
  ∀ (s : State) (last : Byte) (u : Bits), s.NoRace → s.tableV = true → s.SrcReady → s.Disjoint →
    s.DstReady s.dstCap.toNat → s.err = false →
    last = Memory.read s.mem (s.srcAddr.toNat + s.srcLen.toNat - 1) → u = unpack (srcBytes s) s.bitLen.toNat →
    ∃ t, exec .decode s = .next t ∧
      (s.srcLen.toNat < ceil8 s.bitLen.toNat → t.err = true ∧ t.error = 0x0202 ∧ t.errInfo = 0) ∧
      (ceil8 s.bitLen.toNat < s.srcLen.toNat →
        t.err = true ∧ t.error = 0x0502 ∧ t.errInfo = BitVec.ofNat 32 (ceil8 s.bitLen.toNat)) ∧
      (s.srcLen.toNat = ceil8 s.bitLen.toNat → PadBad last s.bitLen.toNat →
        t.err = true ∧ t.error = 0x0D02 ∧ t.errInfo = BitVec.ofNat 32 (ceil8 s.bitLen.toNat - 1)) ∧
      (s.srcLen.toNat = ceil8 s.bitLen.toNat → ¬PadBad last s.bitLen.toNat → TableOk s.code →
        (∀ i, LeavesCodes s.code u i → t.err = true ∧ t.error = 0x0E02 ∧ t.errInfo = BitVec.ofNat 32 i) ∧
        (∀ i, EndsInCode s.code u i → t.err = true ∧ t.error = 0x0F02 ∧ t.errInfo = BitVec.ofNat 32 i) ∧
        ∀ b : List Byte, (∀ x ∈ b, codeOf s.code x ≠ []) → u = b.flatMap (codeOf s.code) → s.dstCap.toNat < b.length →
          t.err = true ∧ t.error = 5 ∧ t.errInfo = BitVec.ofNat 32 b.length)

/-! ## DIGEST (44_integrity.md) -/

/-- DIGEST completes on a legal, readable source: DIGEST_ACT word i is the big-endian reading of bytes 4·i to 4·i + 3
of SHA256 of the source bytes, DIGEST_V and DONE are 1, OUT_LEN is 0 and nothing else changes (R44, R286). -/
def Obligations.DigestCompletes : Prop :=
  ∀ s : State, s.NoRace → s.SrcReady →
    ∃ t, exec .digest s = .next t ∧
      t = { s with digestAct := t.digestAct, digestV := true, outLen := 0, done := true, phase := .idle } ∧
      (sha256 (srcBytes s)).length = 32 ∧
      ∀ i : Fin 8, be32bytes (t.digestAct[i]).toNat = ((sha256 (srcBytes s)).drop (4 * i.val)).take 4

/-! ## Code tables and containers (43_container.md) -/

/-- TBL_STORE completes when the serialized table fits: Dst holds the big-endian length prefix T and the T entry bytes,
one entry per symbol with a code in ascending order, OUT_LEN is 4 + T, DONE is 1 and nothing else changes, but for the
host's stale bytes (log entry 10). When it does not fit and every access completes, it ends with CAPACITY and 4 + T
(R232 to R234, R240). -/
def Obligations.TblStoreCompletes : Prop :=
  ∀ (s : State) (e : List Byte), s.NoRace → s.tableV = true →
    e = symbols.flatMap (fun x => if codeOf s.code x = [] then []
      else x :: BitVec.ofNat 8 (codeOf s.code x).length :: pack (codeOf s.code x)) →
    (s.DstReady (4 + e.length) → 4 + e.length ≤ s.dstCap.toNat →
      ∃ t, exec .tblStore s = .next t ∧
        t = { s with
          mem := t.mem, outLen := BitVec.ofNat 32 (4 + e.length), done := true, phase := .idle,
          stale := staleWith s (4 + e.length) } ∧
        StoresExactly s.mem t.mem s.dstAddr.toNat (be32bytes e.length ++ e)) ∧
    (s.DstReady s.dstCap.toNat → s.dstCap.toNat < 4 + e.length →
      ∃ t, exec .tblStore s = .next t ∧ t.err = true ∧ t.error = 5 ∧ t.errInfo = BitVec.ofNat 32 (4 + e.length) ∧
        t.outLen = 0)

/-- TBL_LOAD completes when the source is exactly its length prefix and that many entry bytes, and they parse: the code
table is the parsed one, TABLE_V and DONE are 1, OUT_LEN is 0 and nothing else changes (R245). -/
def Obligations.TblLoadCompletes : Prop :=
  ∀ (s : State) (table : CodeTable), s.NoRace → s.SrcReady → 4 ≤ s.srcLen.toNat →
    s.srcLen.toNat = 4 + be32 (srcBytes s) → parseEntries 4 ((srcBytes s).drop 4) = .ok table →
    exec .tblLoad s = .next
      { s with code := table, tableV := true, outLen := 0, done := true, phase := .idle }

/-- TBL_LOAD's length checks in their order, then the parser's error, when every source byte reads: TRUNC_TBLLEN with 0,
TRUNC_TABLE with 4, TRAILING with 4 + T, sums without wrap-around. TABLE_V is then 0 (R245, R312, R322). The parser's
errors, for entry bytes that are good entries `es` and then `r`, at offset base + o of `r`, or at base: TRUNC_ENTRY of
one byte or of too few code bytes, ZERO_LEN, ORDER, CODE_PAD, NOT_PREFIX_FREE, and INCOMPLETE_CODE where all are good but
the one code is not "0" or two or more fail Kraft's equality (R235). -/
def Obligations.TblLoadErrors : Prop :=
  (∀ (es : List (Byte × Bits)) (base o : Nat) (parse : List Byte → Except CommandError CodeTable), EntriesOk es →
    o = (es.flatMap entryBytes).length → (∀ r, parse r = parseEntries base (es.flatMap entryBytes ++ r)) →
    (∀ x, parse [x] = .error (.format .truncEntry (base + o))) ∧
    (∀ x r, parse (x :: 0 :: r) = .error (.format .zeroLen (base + o))) ∧
    (∀ (x l : Byte) (c r : List Byte) (code : Bits), l ≠ 0 → code = unpack c l.toNat →
      (c.length < ceil8 l.toNat → parse (x :: l :: c) = .error (.format .truncEntry (base + o))) ∧
      (c.length = ceil8 l.toNat →
        ((∃ e ∈ es, x.toNat ≤ e.1.toNat) → parse (x :: l :: c ++ r) = .error (.format .order (base + o))) ∧
        ((∀ e ∈ es, e.1.toNat < x.toNat) →
          (PadBad (c.getD (ceil8 l.toNat - 1) 0) l.toNat →
            parse (x :: l :: c ++ r) = .error (.format .codePad (base + o))) ∧
          (¬PadBad (c.getD (ceil8 l.toNat - 1) 0) l.toNat → (∃ e ∈ es, conflict e.2 code = true) →
            parse (x :: l :: c ++ r) = .error (.format .notPrefixFree (base + o)))))) ∧
    ((∃ e, es = [e] ∧ e.2 ≠ [false]) → parse [] = .error (.format .incompleteCode base)) ∧
    (2 ≤ es.length → (es.map fun e => 2 ^ (255 - e.2.length)).sum ≠ 2 ^ 255 →
      parse [] = .error (.format .incompleteCode base))) ∧
  ∀ s : State, s.NoRace → s.SrcReady → s.err = false →
    ∃ t, exec .tblLoad s = .next t ∧
      (s.srcLen.toNat < 4 → t.err = true ∧ t.tableV = false ∧ t.error = 0x0302 ∧ t.errInfo = 0) ∧
      (4 ≤ s.srcLen.toNat → s.srcLen.toNat < 4 + be32 (srcBytes s) →
        t.err = true ∧ t.tableV = false ∧ t.error = 0x0402 ∧ t.errInfo = 4) ∧
      (4 ≤ s.srcLen.toNat → 4 + be32 (srcBytes s) < s.srcLen.toNat →
        t.err = true ∧ t.tableV = false ∧ t.error = 0x0502 ∧ t.errInfo = BitVec.ofNat 32 (4 + be32 (srcBytes s))) ∧
      ∀ e, 4 ≤ s.srcLen.toNat → s.srcLen.toNat = 4 + be32 (srcBytes s) →
        parseEntries 4 ((srcBytes s).drop 4) = .error e →
        t.err = true ∧ t.tableV = false ∧ t.errCode = e.number ∧ t.errSub = e.sub ∧ t.errInfo = e.info

/-- The table round trip: the serialized form of a table of R53 is its length prefix and its entry bytes, and parsing
those entry bytes at any base gives the table back (R237). -/
def Obligations.TableRoundTrip : Prop :=
  ∀ (t : CodeTable) (base : Nat), TableOk t → (∀ x, (codeOf t x).length ≤ 255) →
    serializeTable t = be32bytes (tableBytes t).length ++ tableBytes t ∧ (tableBytes t).length ≤ 8704 ∧
    parseEntries base (tableBytes t) = .ok t

/-- A table ParseEntries returns meets R53, with codes of at most 255 bits (R236). -/
def Obligations.ParsedTableIsACompletePrefixCode : Prop :=
  ∀ (base : Nat) (e : List Byte) (t : CodeTable), parseEntries base e = .ok t →
    TableOk t ∧ ∀ x, (codeOf t x).length ≤ 255

/-- COMPRESS completes when its container fits: with F the counts of the source, the table is BuildTable of F, L the
encoded length, d the digest of the source, and Dst holds L, d, the packed payload and the serialized table; FREQ, the
table, DIGEST_ACT and BIT_LEN hold F, the table, d and L, their flags and DONE are 1, OUT_LEN is the container's length
and nothing else changes, but for the host's stale bytes (log entry 10). When every access completes, it ends with
TOO_LONG when L passes 2^32 - 1, else with CAPACITY and the container's length S = 40 + ceil8(L) + T when that does not
fit (R230, R250). -/
def Obligations.CompressCompletes : Prop :=
  ∀ (s : State) (table : CodeTable) (bits : Bits), s.NoRace → s.SrcReady → s.Disjoint →
    table = buildTable (countTable (srcBytes s)) → bits = (srcBytes s).flatMap (codeOf table) →
    (∀ c : List Byte, bits.length ≤ 2 ^ 32 - 1 →
      c = be32bytes bits.length ++ sha256 (srcBytes s) ++ pack bits ++ be32bytes (tableBytes table).length ++
        tableBytes table →
      c.length ≤ s.dstCap.toNat → s.DstReady c.length →
      ∃ t, exec .compress s = .next t ∧
        t = { s with
          mem := t.mem, freq := countTable (srcBytes s), freqV := true, code := table, tableV := true,
          digestAct := digestWords (sha256 (srcBytes s)), digestV := true, bitLen := BitVec.ofNat 32 bits.length,
          outLen := BitVec.ofNat 32 c.length, done := true, phase := .idle, stale := staleWith s c.length } ∧
        StoresExactly s.mem t.mem s.dstAddr.toNat c) ∧
    (s.DstReady s.dstCap.toNat →
      (2 ^ 32 - 1 < bits.length →
        ∃ t, exec .compress s = .next t ∧ t.err = true ∧ t.error = 8 ∧ t.errInfo = 0 ∧ t.outLen = 0) ∧
      (bits.length ≤ 2 ^ 32 - 1 → s.dstCap.toNat < 40 + ceil8 bits.length + (tableBytes table).length →
        ∃ t, exec .compress s = .next t ∧ t.err = true ∧ t.error = 5 ∧ t.outLen = 0 ∧
          t.errInfo = BitVec.ofNat 32 (40 + ceil8 bits.length + (tableBytes table).length)))

/-- COMPRESS of an empty source writes the 40-byte container: L = 0, the digest of no bytes, no payload, T = 0. It is a
success with every count 0 and the empty table (R238, R317). -/
def Obligations.EmptyInputContainer : Prop :=
  ∀ s : State, s.NoRace → s.srcLen = 0 → s.DstReady 40 → 40 ≤ s.dstCap.toNat →
    ∃ t, exec .compress s = .next t ∧ t.done = true ∧ t.err = s.err ∧ t.outLen = 40 ∧ t.bitLen = 0 ∧
      (∀ x : Byte, t.freq[x.toNat]'x.isLt = 0 ∧ codeOf t.code x = []) ∧
      StoresExactly s.mem t.mem s.dstAddr.toNat ([0, 0, 0, 0] ++ sha256 [] ++ [0, 0, 0, 0])

/-- DECOMPRESS completes on a container whose lengths are exact, whose table parses and agrees with L about being
empty, whose payload decodes, fits and has the stored digest: Dst holds the decoded bytes, the table, both digests and
BIT_LEN are the container's, their flags and DONE are 1, OUT_LEN is the number of bytes and nothing else changes
(R260), but for the host's stale bytes (log entry 10). -/
def Obligations.DecompressCompletes : Prop :=
  ∀ (s : State) (b out : List Byte) (l p : Nat) (table : CodeTable), s.NoRace → s.SrcReady → s.Disjoint →
    b = srcBytes s → 36 ≤ b.length → l = be32 b → p = ceil8 l → 40 + p ≤ b.length →
    b.length = 40 + p + be32 (b.drop (36 + p)) → parseEntries (40 + p) (b.drop (40 + p)) = .ok table →
    (l = 0 ↔ entries table = []) → padOk ((b.drop 36).take p) l = true →
    decodeBits table (unpack ((b.drop 36).take p) l) = .ok out → out.length ≤ s.dstCap.toNat →
    s.DstReady out.length → sha256 out = (b.drop 4).take 32 →
    ∃ t, exec .decompress s = .next t ∧
      t = { s with
        mem := t.mem, code := table, tableV := true, digestAct := digestWords (sha256 out), digestV := true,
        digestExp := digestWords ((b.drop 4).take 32), expV := true, bitLen := BitVec.ofNat 32 l,
        outLen := BitVec.ofNat 32 out.length, done := true, phase := .idle, stale := staleWith s out.length } ∧
      t.digestAct = t.digestExp ∧ StoresExactly s.mem t.mem s.dstAddr.toNat out

/-- INTEGRITY: the same container but for a stored digest that differs, when every access completes, ends with class 3
and keeps the parsed table, both digests and L with their flags 1; OUT_LEN is 0, and only destination bytes, the error
registers, the model's draw counter and the host's stale bytes (log entry 10) change besides (R323). -/
def Obligations.DecompressMismatchKeepsWhatItRead : Prop :=
  ∀ (s : State) (b out : List Byte) (l p : Nat) (table : CodeTable), s.NoRace → s.SrcReady → s.Disjoint →
    b = srcBytes s → 36 ≤ b.length → l = be32 b → p = ceil8 l → 40 + p ≤ b.length →
    b.length = 40 + p + be32 (b.drop (36 + p)) → parseEntries (40 + p) (b.drop (40 + p)) = .ok table →
    (l = 0 ↔ entries table = []) → padOk ((b.drop 36).take p) l = true →
    decodeBits table (unpack ((b.drop 36).take p) l) = .ok out → out.length ≤ s.dstCap.toNat →
    s.DstReady s.dstCap.toNat → sha256 out ≠ (b.drop 4).take 32 →
    ∃ t, exec .decompress s = .next t ∧
      t = { s with
        mem := t.mem, draws := t.draws, code := table, tableV := true, digestAct := digestWords (sha256 out),
        digestV := true, digestExp := digestWords ((b.drop 4).take 32), expV := true, bitLen := BitVec.ofNat 32 l,
        errCode := 3, errSub := 0, errInfo := 0, outLen := 0, err := true, phase := .idle,
        stale := staleWith s s.dstCap.toNat } ∧
      SameOutside s.mem t.mem s.dstAddr.toNat s.dstCap.toNat

/-- DECOMPRESS's errors in their order, when every access completes: TRUNC_HEADER with 0, TRUNC_PAYLOAD with 36,
TRUNC_TBLLEN with 36 + P, TRUNC_TABLE with 40 + P, TRAILING with 40 + P + T, sums without wrap-around; where the lengths
are exact, the parser's error at base 40 + P; where a table parses, EMPTY_MISMATCH with 0, PAD_NONZERO with
36 + P - 1, INVALID_CODE and TRUNCATED_CODE with the index of a payload bit, CAPACITY with the number of bytes. TABLE_V,
DIGEST_V and EXP_V are then 0 (R260, R312, R322). -/
def Obligations.DecompressLengthErrors : Prop :=
  ∀ (s : State) (b : List Byte) (l p : Nat), s.NoRace → s.SrcReady → s.Disjoint → s.DstReady s.dstCap.toNat →
    s.err = false → b = srcBytes s → l = be32 b → p = ceil8 l →
    ∃ t, exec .decompress s = .next t ∧
      (t.err = true → t.errCode ≠ 3 → t.tableV = false ∧ t.digestV = false ∧ t.expV = false ∧ t.outLen = 0) ∧
      (b.length < 36 → t.err = true ∧ t.error = 0x0102 ∧ t.errInfo = 0) ∧
      (36 ≤ b.length → b.length < 36 + p → t.err = true ∧ t.error = 0x0202 ∧ t.errInfo = 36) ∧
      (36 + p ≤ b.length → b.length < 40 + p →
        t.err = true ∧ t.error = 0x0302 ∧ t.errInfo = BitVec.ofNat 32 (36 + p)) ∧
      (40 + p ≤ b.length → b.length < 40 + p + be32 (b.drop (36 + p)) →
        t.err = true ∧ t.error = 0x0402 ∧ t.errInfo = BitVec.ofNat 32 (40 + p)) ∧
      (40 + p + be32 (b.drop (36 + p)) < b.length →
        t.err = true ∧ t.error = 0x0502 ∧ t.errInfo = BitVec.ofNat 32 (40 + p + be32 (b.drop (36 + p)))) ∧
      (40 + p ≤ b.length → b.length = 40 + p + be32 (b.drop (36 + p)) →
        (∀ e, parseEntries (40 + p) (b.drop (40 + p)) = .error e →
          t.err = true ∧ t.errCode = e.number ∧ t.errSub = e.sub ∧ t.errInfo = e.info) ∧
        ∀ (table : CodeTable) (u : Bits), parseEntries (40 + p) (b.drop (40 + p)) = .ok table →
          u = unpack ((b.drop 36).take p) l →
          (¬(l = 0 ↔ entries table = []) → t.err = true ∧ t.error = 0x0C02 ∧ t.errInfo = 0) ∧
          ((l = 0 ↔ entries table = []) → PadBad (b.getD (36 + p - 1) 0) l →
            t.err = true ∧ t.error = 0x0D02 ∧ t.errInfo = BitVec.ofNat 32 (36 + p - 1)) ∧
          ((l = 0 ↔ entries table = []) → ¬PadBad (b.getD (36 + p - 1) 0) l →
            (∀ i, LeavesCodes table u i → t.err = true ∧ t.error = 0x0E02 ∧ t.errInfo = BitVec.ofNat 32 i) ∧
            (∀ i, EndsInCode table u i → t.err = true ∧ t.error = 0x0F02 ∧ t.errInfo = BitVec.ofNat 32 i) ∧
            ∀ out : List Byte, (∀ x ∈ out, codeOf table x ≠ []) → u = out.flatMap (codeOf table) →
              s.dstCap.toNat < out.length → t.err = true ∧ t.error = 5 ∧ t.errInfo = BitVec.ofNat 32 out.length))

/-- THE ROUND TRIP: if COMPRESS of `B` completes, DECOMPRESS of the container it wrote, with room for `B` and no bus
error, completes and writes exactly `B` (R265 item 1). -/
def Obligations.CompressThenDecompress : Prop :=
  ∀ s t u : State, s.NoRace → s.done = false → exec .compress s = .next t → t.done = true →
    u.NoRace → u.SrcReady → u.Disjoint → u.DstReady s.srcLen.toNat → s.srcLen.toNat ≤ u.dstCap.toNat →
    srcBytes u = Memory.readRange t.mem s.dstAddr.toNat t.outLen.toNat →
    ∃ v, exec .decompress u = .next v ∧ v.done = true ∧ v.err = u.err ∧ v.outLen = s.srcLen ∧
      Memory.readRange v.mem u.dstAddr.toNat s.srcLen.toNat = srcBytes s ∧ v.digestAct = v.digestExp

/-- CORRUPTION IS DETECTED: if COMPRESS of `B` completed, DECOMPRESS of a copy of its container that differs, in
payload bytes alone, ends with FORMAT or INTEGRITY, or it wrote bytes that are not `B` and have the SHA256 of `B`, a
collision. Every access completes, and DST_CAP is at least the container's bitLength (R265 item 4). -/
def Obligations.CorruptedPayloadNeedsACollision : Prop :=
  ∀ (s t u : State) (c d : List Byte), s.NoRace → s.done = false → exec .compress s = .next t → t.done = true →
    c = Memory.readRange t.mem s.dstAddr.toNat t.outLen.toNat → d = srcBytes u → d.length = c.length →
    (∀ k, ¬(36 ≤ k ∧ k < 36 + ceil8 t.bitLen.toNat) → d.getD k 0 = c.getD k 0) → d ≠ c →
    u.NoRace → u.SrcReady → u.Disjoint → u.DstReady u.dstCap.toNat → t.bitLen.toNat ≤ u.dstCap.toNat → u.err = false →
    ∃ v, exec .decompress u = .next v ∧
      (v.err = true ∧ (v.errCode = 2 ∨ v.errCode = 3) ∨
        ∃ out, Memory.readRange v.mem u.dstAddr.toNat v.outLen.toNat = out ∧ out ≠ srcBytes s ∧
          sha256 out = sha256 (srcBytes s))

/-! ## Invariants -/

/-- The reset state meets every invariant (R60). -/
def Obligations.ResetMeetsTheInvariants : Prop :=
  State.reset.Inv ∧ State.reset.TableInv ∧ State.reset.FreqInv ∧ State.reset.NoRace

/-- THE SHAPE OF THE STATE: every step, host access or command end, raced or not, keeps `State.Inv` (R35, R36, R37, R52,
R55, R80, R326). -/
def Obligations.StepKeepsInv : Prop := ∀ s t : State, s.Inv → step s = .next t → t.Inv

/-- While TABLE_V = 1 the code table meets R53, and while FREQ_V = 1 the counts sum to at most 2^32 - 1: every step
keeps both, unless it ends COUNT, BUILD, TBL_LOAD, COMPRESS or DECOMPRESS with a source the host raced, whose results
R93 leaves unconstrained (R50, R53). That a raced command leaves FREQ and the table alone where it does not write them is
the model's, read from I7 (log entry 8). -/
def Obligations.StepKeepsTableAndFreqInv : Prop :=
  ∀ s t : State,
    (s.srcRace = false ∨ s.phase = .idle ∨ (∃ a rest, s.inputs = a :: rest ∧ a ≠ .sequencer) ∨
      ∃ i ∈ [Instr.nop, .encode, .decode, .digest, .tblStore], decodeWord s.cmd = .ok i) →
    step s = .next t → (s.TableInv → t.TableInv) ∧ (s.FreqInv → t.FreqInv)
end

