-- ==== Sys2Proof/Laws/State.lean ====
section
/-! SUPPORT. One lemma per field per update of the state, true by rfl: no later proof unfolds a record update. -/

namespace Sys2Proof.Machine

section completeFields
variable (s : State)
@[simp] theorem complete_phase : (complete s).phase = .idle := rfl
@[simp] theorem complete_ie : (complete s).ie = s.ie := rfl
@[simp] theorem complete_cmd : (complete s).cmd = s.cmd := rfl
@[simp] theorem complete_done : (complete s).done = true := rfl
@[simp] theorem complete_err : (complete s).err = s.err := rfl
@[simp] theorem complete_ovr : (complete s).ovr = s.ovr := rfl
@[simp] theorem complete_freqV : (complete s).freqV = s.freqV := rfl
@[simp] theorem complete_tableV : (complete s).tableV = s.tableV := rfl
@[simp] theorem complete_digestV : (complete s).digestV = s.digestV := rfl
@[simp] theorem complete_expV : (complete s).expV = s.expV := rfl
@[simp] theorem complete_errCode : (complete s).errCode = s.errCode := rfl
@[simp] theorem complete_errSub : (complete s).errSub = s.errSub := rfl
@[simp] theorem complete_errInfo : (complete s).errInfo = s.errInfo := rfl
@[simp] theorem complete_srcAddr : (complete s).srcAddr = s.srcAddr := rfl
@[simp] theorem complete_srcLen : (complete s).srcLen = s.srcLen := rfl
@[simp] theorem complete_dstAddr : (complete s).dstAddr = s.dstAddr := rfl
@[simp] theorem complete_dstCap : (complete s).dstCap = s.dstCap := rfl
@[simp] theorem complete_outLen : (complete s).outLen = s.outLen := rfl
@[simp] theorem complete_bitLen : (complete s).bitLen = s.bitLen := rfl
@[simp] theorem complete_digestAct : (complete s).digestAct = s.digestAct := rfl
@[simp] theorem complete_digestExp : (complete s).digestExp = s.digestExp := rfl
@[simp] theorem complete_freq : (complete s).freq = s.freq := rfl
@[simp] theorem complete_code : (complete s).code = s.code := rfl
@[simp] theorem complete_mem : (complete s).mem = s.mem := rfl
@[simp] theorem complete_platform : (complete s).platform = s.platform := rfl
@[simp] theorem complete_inputs : (complete s).inputs = s.inputs := rfl
@[simp] theorem complete_port : (complete s).port = s.port := rfl
@[simp] theorem complete_draws : (complete s).draws = s.draws := rfl
@[simp] theorem complete_srcRace : (complete s).srcRace = s.srcRace := rfl
@[simp] theorem complete_dstRace : (complete s).dstRace = s.dstRace := rfl
@[simp] theorem complete_dirty : (complete s).dirty = s.dirty := rfl
@[simp] theorem complete_stale : (complete s).stale = s.stale := rfl
end completeFields

section errorEndFields
variable (n m : BitVec 8) (i : Word) (s : State)
@[simp] theorem errorEnd_phase : (errorEnd n m i s).phase = .idle := rfl
@[simp] theorem errorEnd_ie : (errorEnd n m i s).ie = s.ie := rfl
@[simp] theorem errorEnd_cmd : (errorEnd n m i s).cmd = s.cmd := rfl
@[simp] theorem errorEnd_done : (errorEnd n m i s).done = s.done := rfl
@[simp] theorem errorEnd_err : (errorEnd n m i s).err = true := rfl
@[simp] theorem errorEnd_ovr : (errorEnd n m i s).ovr = s.ovr := rfl
@[simp] theorem errorEnd_freqV : (errorEnd n m i s).freqV = s.freqV := rfl
@[simp] theorem errorEnd_tableV : (errorEnd n m i s).tableV = s.tableV := rfl
@[simp] theorem errorEnd_digestV : (errorEnd n m i s).digestV = s.digestV := rfl
@[simp] theorem errorEnd_expV : (errorEnd n m i s).expV = s.expV := rfl
@[simp] theorem errorEnd_errCode : (errorEnd n m i s).errCode = n := rfl
@[simp] theorem errorEnd_errSub : (errorEnd n m i s).errSub = m := rfl
@[simp] theorem errorEnd_errInfo : (errorEnd n m i s).errInfo = i := rfl
@[simp] theorem errorEnd_srcAddr : (errorEnd n m i s).srcAddr = s.srcAddr := rfl
@[simp] theorem errorEnd_srcLen : (errorEnd n m i s).srcLen = s.srcLen := rfl
@[simp] theorem errorEnd_dstAddr : (errorEnd n m i s).dstAddr = s.dstAddr := rfl
@[simp] theorem errorEnd_dstCap : (errorEnd n m i s).dstCap = s.dstCap := rfl
@[simp] theorem errorEnd_outLen : (errorEnd n m i s).outLen = 0 := rfl
@[simp] theorem errorEnd_bitLen : (errorEnd n m i s).bitLen = s.bitLen := rfl
@[simp] theorem errorEnd_digestAct : (errorEnd n m i s).digestAct = s.digestAct := rfl
@[simp] theorem errorEnd_digestExp : (errorEnd n m i s).digestExp = s.digestExp := rfl
@[simp] theorem errorEnd_freq : (errorEnd n m i s).freq = s.freq := rfl
@[simp] theorem errorEnd_code : (errorEnd n m i s).code = s.code := rfl
@[simp] theorem errorEnd_mem : (errorEnd n m i s).mem = s.mem := rfl
@[simp] theorem errorEnd_platform : (errorEnd n m i s).platform = s.platform := rfl
@[simp] theorem errorEnd_inputs : (errorEnd n m i s).inputs = s.inputs := rfl
@[simp] theorem errorEnd_port : (errorEnd n m i s).port = s.port := rfl
@[simp] theorem errorEnd_draws : (errorEnd n m i s).draws = s.draws := rfl
@[simp] theorem errorEnd_srcRace : (errorEnd n m i s).srcRace = s.srcRace := rfl
@[simp] theorem errorEnd_dstRace : (errorEnd n m i s).dstRace = s.dstRace := rfl
@[simp] theorem errorEnd_dirty : (errorEnd n m i s).dirty = s.dirty := rfl
@[simp] theorem errorEnd_stale : (errorEnd n m i s).stale = s.stale := rfl
end errorEndFields

section raiseFields
variable (e : CommandError) (s : State)
@[simp] theorem raise_phase : (raise e s).phase = .idle := rfl
@[simp] theorem raise_ie : (raise e s).ie = s.ie := rfl
@[simp] theorem raise_cmd : (raise e s).cmd = s.cmd := rfl
@[simp] theorem raise_done : (raise e s).done = s.done := rfl
@[simp] theorem raise_err : (raise e s).err = true := rfl
@[simp] theorem raise_ovr : (raise e s).ovr = s.ovr := rfl
@[simp] theorem raise_freqV : (raise e s).freqV = s.freqV := rfl
@[simp] theorem raise_tableV : (raise e s).tableV = s.tableV := rfl
@[simp] theorem raise_digestV : (raise e s).digestV = s.digestV := rfl
@[simp] theorem raise_expV : (raise e s).expV = s.expV := rfl
@[simp] theorem raise_errCode : (raise e s).errCode = e.number := rfl
@[simp] theorem raise_errSub : (raise e s).errSub = e.sub := rfl
@[simp] theorem raise_errInfo : (raise e s).errInfo = e.info := rfl
@[simp] theorem raise_srcAddr : (raise e s).srcAddr = s.srcAddr := rfl
@[simp] theorem raise_srcLen : (raise e s).srcLen = s.srcLen := rfl
@[simp] theorem raise_dstAddr : (raise e s).dstAddr = s.dstAddr := rfl
@[simp] theorem raise_dstCap : (raise e s).dstCap = s.dstCap := rfl
@[simp] theorem raise_outLen : (raise e s).outLen = 0 := rfl
@[simp] theorem raise_bitLen : (raise e s).bitLen = s.bitLen := rfl
@[simp] theorem raise_digestAct : (raise e s).digestAct = s.digestAct := rfl
@[simp] theorem raise_digestExp : (raise e s).digestExp = s.digestExp := rfl
@[simp] theorem raise_freq : (raise e s).freq = s.freq := rfl
@[simp] theorem raise_code : (raise e s).code = s.code := rfl
@[simp] theorem raise_mem : (raise e s).mem = s.mem := rfl
@[simp] theorem raise_platform : (raise e s).platform = s.platform := rfl
@[simp] theorem raise_inputs : (raise e s).inputs = s.inputs := rfl
@[simp] theorem raise_port : (raise e s).port = s.port := rfl
@[simp] theorem raise_draws : (raise e s).draws = s.draws := rfl
@[simp] theorem raise_srcRace : (raise e s).srcRace = s.srcRace := rfl
@[simp] theorem raise_dstRace : (raise e s).dstRace = s.dstRace := rfl
@[simp] theorem raise_dirty : (raise e s).dirty = s.dirty := rfl
@[simp] theorem raise_stale : (raise e s).stale = s.stale := rfl
end raiseFields

section startFields
variable (w : Word) (s : State)
@[simp] theorem start_phase : (start w s).phase = .busy := rfl
@[simp] theorem start_ie : (start w s).ie = s.ie := rfl
@[simp] theorem start_cmd : (start w s).cmd = w := rfl
@[simp] theorem start_done : (start w s).done = false := rfl
@[simp] theorem start_err : (start w s).err = false := rfl
@[simp] theorem start_ovr : (start w s).ovr = s.ovr := rfl
@[simp] theorem start_freqV : (start w s).freqV = s.freqV := rfl
@[simp] theorem start_tableV : (start w s).tableV = s.tableV := rfl
@[simp] theorem start_digestV : (start w s).digestV = s.digestV := rfl
@[simp] theorem start_expV : (start w s).expV = s.expV := rfl
@[simp] theorem start_errCode : (start w s).errCode = 0 := rfl
@[simp] theorem start_errSub : (start w s).errSub = 0 := rfl
@[simp] theorem start_errInfo : (start w s).errInfo = 0 := rfl
@[simp] theorem start_srcAddr : (start w s).srcAddr = s.srcAddr := rfl
@[simp] theorem start_srcLen : (start w s).srcLen = s.srcLen := rfl
@[simp] theorem start_dstAddr : (start w s).dstAddr = s.dstAddr := rfl
@[simp] theorem start_dstCap : (start w s).dstCap = s.dstCap := rfl
@[simp] theorem start_outLen : (start w s).outLen = s.outLen := rfl
@[simp] theorem start_bitLen : (start w s).bitLen = s.bitLen := rfl
@[simp] theorem start_digestAct : (start w s).digestAct = s.digestAct := rfl
@[simp] theorem start_digestExp : (start w s).digestExp = s.digestExp := rfl
@[simp] theorem start_freq : (start w s).freq = s.freq := rfl
@[simp] theorem start_code : (start w s).code = s.code := rfl
@[simp] theorem start_mem : (start w s).mem = s.mem := rfl
@[simp] theorem start_platform : (start w s).platform = s.platform := rfl
@[simp] theorem start_inputs : (start w s).inputs = s.inputs := rfl
@[simp] theorem start_port : (start w s).port = s.port := rfl
@[simp] theorem start_draws : (start w s).draws = s.draws := rfl
@[simp] theorem start_srcRace : (start w s).srcRace = unsettled s := rfl
@[simp] theorem start_dstRace : (start w s).dstRace = false := rfl
@[simp] theorem start_dirty : (start w s).dirty = s.dirty := rfl
@[simp] theorem start_stale : (start w s).stale = s.stale := rfl
end startFields

section rejectCommandFields
variable (w : Word) (s : State)
@[simp] theorem rejectCommand_phase : (rejectCommand w s).phase = s.phase := rfl
@[simp] theorem rejectCommand_ie : (rejectCommand w s).ie = s.ie := rfl
@[simp] theorem rejectCommand_cmd : (rejectCommand w s).cmd = w := rfl
@[simp] theorem rejectCommand_done : (rejectCommand w s).done = false := rfl
@[simp] theorem rejectCommand_err : (rejectCommand w s).err = true := rfl
@[simp] theorem rejectCommand_ovr : (rejectCommand w s).ovr = s.ovr := rfl
@[simp] theorem rejectCommand_freqV : (rejectCommand w s).freqV = s.freqV := rfl
@[simp] theorem rejectCommand_tableV : (rejectCommand w s).tableV = s.tableV := rfl
@[simp] theorem rejectCommand_digestV : (rejectCommand w s).digestV = s.digestV := rfl
@[simp] theorem rejectCommand_expV : (rejectCommand w s).expV = s.expV := rfl
@[simp] theorem rejectCommand_errCode : (rejectCommand w s).errCode = 1 := rfl
@[simp] theorem rejectCommand_errSub : (rejectCommand w s).errSub = 0 := rfl
@[simp] theorem rejectCommand_errInfo : (rejectCommand w s).errInfo = w := rfl
@[simp] theorem rejectCommand_srcAddr : (rejectCommand w s).srcAddr = s.srcAddr := rfl
@[simp] theorem rejectCommand_srcLen : (rejectCommand w s).srcLen = s.srcLen := rfl
@[simp] theorem rejectCommand_dstAddr : (rejectCommand w s).dstAddr = s.dstAddr := rfl
@[simp] theorem rejectCommand_dstCap : (rejectCommand w s).dstCap = s.dstCap := rfl
@[simp] theorem rejectCommand_outLen : (rejectCommand w s).outLen = 0 := rfl
@[simp] theorem rejectCommand_bitLen : (rejectCommand w s).bitLen = s.bitLen := rfl
@[simp] theorem rejectCommand_digestAct : (rejectCommand w s).digestAct = s.digestAct := rfl
@[simp] theorem rejectCommand_digestExp : (rejectCommand w s).digestExp = s.digestExp := rfl
@[simp] theorem rejectCommand_freq : (rejectCommand w s).freq = s.freq := rfl
@[simp] theorem rejectCommand_code : (rejectCommand w s).code = s.code := rfl
@[simp] theorem rejectCommand_mem : (rejectCommand w s).mem = s.mem := rfl
@[simp] theorem rejectCommand_platform : (rejectCommand w s).platform = s.platform := rfl
@[simp] theorem rejectCommand_inputs : (rejectCommand w s).inputs = s.inputs := rfl
@[simp] theorem rejectCommand_port : (rejectCommand w s).port = s.port := rfl
@[simp] theorem rejectCommand_draws : (rejectCommand w s).draws = s.draws := rfl
@[simp] theorem rejectCommand_srcRace : (rejectCommand w s).srcRace = s.srcRace := rfl
@[simp] theorem rejectCommand_dstRace : (rejectCommand w s).dstRace = s.dstRace := rfl
@[simp] theorem rejectCommand_dirty : (rejectCommand w s).dirty = s.dirty := rfl
@[simp] theorem rejectCommand_stale : (rejectCommand w s).stale = s.stale := rfl
end rejectCommandFields

section storeResultsFields
variable (r : Results) (s : State)
@[simp] theorem storeResults_phase : (storeResults r s).phase = s.phase := rfl
@[simp] theorem storeResults_ie : (storeResults r s).ie = s.ie := rfl
@[simp] theorem storeResults_cmd : (storeResults r s).cmd = s.cmd := rfl
@[simp] theorem storeResults_done : (storeResults r s).done = s.done := rfl
@[simp] theorem storeResults_err : (storeResults r s).err = s.err := rfl
@[simp] theorem storeResults_ovr : (storeResults r s).ovr = s.ovr := rfl
@[simp] theorem storeResults_freqV : (storeResults r s).freqV = (s.freqV || r.freq.isSome) := rfl
@[simp] theorem storeResults_tableV : (storeResults r s).tableV = (s.tableV || r.code.isSome) := rfl
@[simp] theorem storeResults_digestV : (storeResults r s).digestV = (s.digestV || r.digestAct.isSome) := rfl
@[simp] theorem storeResults_expV : (storeResults r s).expV = (s.expV || r.digestExp.isSome) := rfl
@[simp] theorem storeResults_errCode : (storeResults r s).errCode = s.errCode := rfl
@[simp] theorem storeResults_errSub : (storeResults r s).errSub = s.errSub := rfl
@[simp] theorem storeResults_errInfo : (storeResults r s).errInfo = s.errInfo := rfl
@[simp] theorem storeResults_srcAddr : (storeResults r s).srcAddr = s.srcAddr := rfl
@[simp] theorem storeResults_srcLen : (storeResults r s).srcLen = s.srcLen := rfl
@[simp] theorem storeResults_dstAddr : (storeResults r s).dstAddr = s.dstAddr := rfl
@[simp] theorem storeResults_dstCap : (storeResults r s).dstCap = s.dstCap := rfl
@[simp] theorem storeResults_outLen : (storeResults r s).outLen = s.outLen := rfl
@[simp] theorem storeResults_bitLen :
    (storeResults r s).bitLen = (r.bitLen.map (BitVec.ofNat 32)).getD s.bitLen := rfl
@[simp] theorem storeResults_digestAct : (storeResults r s).digestAct = r.digestAct.getD s.digestAct := rfl
@[simp] theorem storeResults_digestExp : (storeResults r s).digestExp = r.digestExp.getD s.digestExp := rfl
@[simp] theorem storeResults_freq : (storeResults r s).freq = r.freq.getD s.freq := rfl
@[simp] theorem storeResults_code : (storeResults r s).code = r.code.getD s.code := rfl
@[simp] theorem storeResults_mem : (storeResults r s).mem = s.mem := rfl
@[simp] theorem storeResults_platform : (storeResults r s).platform = s.platform := rfl
@[simp] theorem storeResults_inputs : (storeResults r s).inputs = s.inputs := rfl
@[simp] theorem storeResults_port : (storeResults r s).port = s.port := rfl
@[simp] theorem storeResults_draws : (storeResults r s).draws = s.draws := rfl
@[simp] theorem storeResults_srcRace : (storeResults r s).srcRace = s.srcRace := rfl
@[simp] theorem storeResults_dstRace : (storeResults r s).dstRace = s.dstRace := rfl
@[simp] theorem storeResults_dirty : (storeResults r s).dirty = s.dirty := rfl
@[simp] theorem storeResults_stale : (storeResults r s).stale = s.stale := rfl
end storeResultsFields

section writeResultsFields
variable (r : Results) (s : State)
@[simp] theorem writeResults_phase : (writeResults r s).phase = s.phase := rfl
@[simp] theorem writeResults_ie : (writeResults r s).ie = s.ie := rfl
@[simp] theorem writeResults_cmd : (writeResults r s).cmd = s.cmd := rfl
@[simp] theorem writeResults_done : (writeResults r s).done = s.done := rfl
@[simp] theorem writeResults_err : (writeResults r s).err = s.err := rfl
@[simp] theorem writeResults_ovr : (writeResults r s).ovr = s.ovr := rfl
@[simp] theorem writeResults_freqV : (writeResults r s).freqV = (s.freqV || r.freq.isSome) := rfl
@[simp] theorem writeResults_tableV : (writeResults r s).tableV = (s.tableV || r.code.isSome) := rfl
@[simp] theorem writeResults_digestV : (writeResults r s).digestV = (s.digestV || r.digestAct.isSome) := rfl
@[simp] theorem writeResults_expV : (writeResults r s).expV = (s.expV || r.digestExp.isSome) := rfl
@[simp] theorem writeResults_errCode : (writeResults r s).errCode = s.errCode := rfl
@[simp] theorem writeResults_errSub : (writeResults r s).errSub = s.errSub := rfl
@[simp] theorem writeResults_errInfo : (writeResults r s).errInfo = s.errInfo := rfl
@[simp] theorem writeResults_srcAddr : (writeResults r s).srcAddr = s.srcAddr := rfl
@[simp] theorem writeResults_srcLen : (writeResults r s).srcLen = s.srcLen := rfl
@[simp] theorem writeResults_dstAddr : (writeResults r s).dstAddr = s.dstAddr := rfl
@[simp] theorem writeResults_dstCap : (writeResults r s).dstCap = s.dstCap := rfl
@[simp] theorem writeResults_outLen : (writeResults r s).outLen = BitVec.ofNat 32 r.out.length := rfl
@[simp] theorem writeResults_bitLen :
    (writeResults r s).bitLen = (r.bitLen.map (BitVec.ofNat 32)).getD s.bitLen := rfl
@[simp] theorem writeResults_digestAct : (writeResults r s).digestAct = r.digestAct.getD s.digestAct := rfl
@[simp] theorem writeResults_digestExp : (writeResults r s).digestExp = r.digestExp.getD s.digestExp := rfl
@[simp] theorem writeResults_freq : (writeResults r s).freq = r.freq.getD s.freq := rfl
@[simp] theorem writeResults_code : (writeResults r s).code = r.code.getD s.code := rfl
@[simp] theorem writeResults_mem : (writeResults r s).mem = s.mem.writeRange s.dstAddr.toNat r.out := rfl
@[simp] theorem writeResults_platform : (writeResults r s).platform = s.platform := rfl
@[simp] theorem writeResults_inputs : (writeResults r s).inputs = s.inputs := rfl
@[simp] theorem writeResults_port : (writeResults r s).port = s.port := rfl
@[simp] theorem writeResults_draws : (writeResults r s).draws = s.draws := rfl
@[simp] theorem writeResults_srcRace : (writeResults r s).srcRace = s.srcRace := rfl
@[simp] theorem writeResults_dstRace : (writeResults r s).dstRace = s.dstRace := rfl
@[simp] theorem writeResults_dirty : (writeResults r s).dirty = s.dirty := rfl
@[simp] theorem writeResults_stale : (writeResults r s).stale = staleWith s r.out.length := rfl
end writeResultsFields

section loseDstFields
variable (s : State)
@[simp] theorem loseDst_phase : (loseDst s).phase = s.phase := rfl
@[simp] theorem loseDst_ie : (loseDst s).ie = s.ie := rfl
@[simp] theorem loseDst_cmd : (loseDst s).cmd = s.cmd := rfl
@[simp] theorem loseDst_done : (loseDst s).done = s.done := rfl
@[simp] theorem loseDst_err : (loseDst s).err = s.err := rfl
@[simp] theorem loseDst_ovr : (loseDst s).ovr = s.ovr := rfl
@[simp] theorem loseDst_freqV : (loseDst s).freqV = s.freqV := rfl
@[simp] theorem loseDst_tableV : (loseDst s).tableV = s.tableV := rfl
@[simp] theorem loseDst_digestV : (loseDst s).digestV = s.digestV := rfl
@[simp] theorem loseDst_expV : (loseDst s).expV = s.expV := rfl
@[simp] theorem loseDst_errCode : (loseDst s).errCode = s.errCode := rfl
@[simp] theorem loseDst_errSub : (loseDst s).errSub = s.errSub := rfl
@[simp] theorem loseDst_errInfo : (loseDst s).errInfo = s.errInfo := rfl
@[simp] theorem loseDst_srcAddr : (loseDst s).srcAddr = s.srcAddr := rfl
@[simp] theorem loseDst_srcLen : (loseDst s).srcLen = s.srcLen := rfl
@[simp] theorem loseDst_dstAddr : (loseDst s).dstAddr = s.dstAddr := rfl
@[simp] theorem loseDst_dstCap : (loseDst s).dstCap = s.dstCap := rfl
@[simp] theorem loseDst_outLen : (loseDst s).outLen = s.outLen := rfl
@[simp] theorem loseDst_bitLen : (loseDst s).bitLen = s.bitLen := rfl
@[simp] theorem loseDst_digestAct : (loseDst s).digestAct = s.digestAct := rfl
@[simp] theorem loseDst_digestExp : (loseDst s).digestExp = s.digestExp := rfl
@[simp] theorem loseDst_freq : (loseDst s).freq = s.freq := rfl
@[simp] theorem loseDst_code : (loseDst s).code = s.code := rfl
@[simp] theorem loseDst_mem : (loseDst s).mem = s.mem.loseRange s.draws s.dstAddr.toNat (dstBytes s) := rfl
@[simp] theorem loseDst_platform : (loseDst s).platform = s.platform := rfl
@[simp] theorem loseDst_inputs : (loseDst s).inputs = s.inputs := rfl
@[simp] theorem loseDst_port : (loseDst s).port = s.port := rfl
@[simp] theorem loseDst_draws : (loseDst s).draws = s.draws + 1 := rfl
@[simp] theorem loseDst_srcRace : (loseDst s).srcRace = s.srcRace := rfl
@[simp] theorem loseDst_dstRace : (loseDst s).dstRace = s.dstRace := rfl
@[simp] theorem loseDst_dirty : (loseDst s).dirty = s.dirty := rfl
@[simp] theorem loseDst_stale : (loseDst s).stale = staleWith s (dstBytes s) := rfl
end loseDstFields

section loseRegsFields
variable (p : Profile) (v : Config.BitSlot → Bool) (s : State)
@[simp] theorem loseRegs_phase : (loseRegs p v s).phase = s.phase := rfl
@[simp] theorem loseRegs_ie : (loseRegs p v s).ie = s.ie := rfl
@[simp] theorem loseRegs_cmd : (loseRegs p v s).cmd = s.cmd := rfl
@[simp] theorem loseRegs_done : (loseRegs p v s).done = s.done := rfl
@[simp] theorem loseRegs_err : (loseRegs p v s).err = s.err := rfl
@[simp] theorem loseRegs_ovr : (loseRegs p v s).ovr = s.ovr := rfl
@[simp] theorem loseRegs_freqV : (loseRegs p v s).freqV = if p.writesFreq then v .freqV else s.freqV := rfl
@[simp] theorem loseRegs_tableV : (loseRegs p v s).tableV = if p.writesTable then v .tableV else s.tableV := rfl
@[simp] theorem loseRegs_digestV : (loseRegs p v s).digestV = if p.writesAct then v .digestV else s.digestV := rfl
@[simp] theorem loseRegs_expV : (loseRegs p v s).expV = if p.writesExp then v .expV else s.expV := rfl
@[simp] theorem loseRegs_errCode : (loseRegs p v s).errCode = s.errCode := rfl
@[simp] theorem loseRegs_errSub : (loseRegs p v s).errSub = s.errSub := rfl
@[simp] theorem loseRegs_errInfo : (loseRegs p v s).errInfo = s.errInfo := rfl
@[simp] theorem loseRegs_srcAddr : (loseRegs p v s).srcAddr = s.srcAddr := rfl
@[simp] theorem loseRegs_srcLen : (loseRegs p v s).srcLen = s.srcLen := rfl
@[simp] theorem loseRegs_dstAddr : (loseRegs p v s).dstAddr = s.dstAddr := rfl
@[simp] theorem loseRegs_dstCap : (loseRegs p v s).dstCap = s.dstCap := rfl
@[simp] theorem loseRegs_outLen : (loseRegs p v s).outLen = s.outLen := rfl
@[simp] theorem loseRegs_bitLen :
    (loseRegs p v s).bitLen = if p.writesBitLen then Config.anyWord s.draws .bitLen else s.bitLen := rfl
@[simp] theorem loseRegs_digestAct :
    (loseRegs p v s).digestAct = if p.writesAct then tabulate 8 fun i => Config.anyWord s.draws (.digestAct i) else s.digestAct := rfl
@[simp] theorem loseRegs_digestExp :
    (loseRegs p v s).digestExp = if p.writesExp then tabulate 8 fun i => Config.anyWord s.draws (.digestExp i) else s.digestExp := rfl
@[simp] theorem loseRegs_freq :
    (loseRegs p v s).freq = if p.writesFreq then tabulate 256 fun i => Config.anyWord s.draws (.freq i) else s.freq := rfl
@[simp] theorem loseRegs_code :
    (loseRegs p v s).code = if p.writesTable then tabulate 256 fun i => (Config.anyCode s.draws i).take 255 else s.code := rfl
@[simp] theorem loseRegs_mem : (loseRegs p v s).mem = s.mem := rfl
@[simp] theorem loseRegs_platform : (loseRegs p v s).platform = s.platform := rfl
@[simp] theorem loseRegs_inputs : (loseRegs p v s).inputs = s.inputs := rfl
@[simp] theorem loseRegs_port : (loseRegs p v s).port = s.port := rfl
@[simp] theorem loseRegs_draws : (loseRegs p v s).draws = s.draws + 1 := rfl
@[simp] theorem loseRegs_srcRace : (loseRegs p v s).srcRace = s.srcRace := rfl
@[simp] theorem loseRegs_dstRace : (loseRegs p v s).dstRace = s.dstRace := rfl
@[simp] theorem loseRegs_dirty : (loseRegs p v s).dirty = s.dirty := rfl
@[simp] theorem loseRegs_stale : (loseRegs p v s).stale = s.stale := rfl
end loseRegsFields

section setInputsFields
variable (l : List Input) (s : State)
@[simp] theorem setInputs_phase : (setInputs l s).phase = s.phase := rfl
@[simp] theorem setInputs_ie : (setInputs l s).ie = s.ie := rfl
@[simp] theorem setInputs_cmd : (setInputs l s).cmd = s.cmd := rfl
@[simp] theorem setInputs_done : (setInputs l s).done = s.done := rfl
@[simp] theorem setInputs_err : (setInputs l s).err = s.err := rfl
@[simp] theorem setInputs_ovr : (setInputs l s).ovr = s.ovr := rfl
@[simp] theorem setInputs_freqV : (setInputs l s).freqV = s.freqV := rfl
@[simp] theorem setInputs_tableV : (setInputs l s).tableV = s.tableV := rfl
@[simp] theorem setInputs_digestV : (setInputs l s).digestV = s.digestV := rfl
@[simp] theorem setInputs_expV : (setInputs l s).expV = s.expV := rfl
@[simp] theorem setInputs_errCode : (setInputs l s).errCode = s.errCode := rfl
@[simp] theorem setInputs_errSub : (setInputs l s).errSub = s.errSub := rfl
@[simp] theorem setInputs_errInfo : (setInputs l s).errInfo = s.errInfo := rfl
@[simp] theorem setInputs_srcAddr : (setInputs l s).srcAddr = s.srcAddr := rfl
@[simp] theorem setInputs_srcLen : (setInputs l s).srcLen = s.srcLen := rfl
@[simp] theorem setInputs_dstAddr : (setInputs l s).dstAddr = s.dstAddr := rfl
@[simp] theorem setInputs_dstCap : (setInputs l s).dstCap = s.dstCap := rfl
@[simp] theorem setInputs_outLen : (setInputs l s).outLen = s.outLen := rfl
@[simp] theorem setInputs_bitLen : (setInputs l s).bitLen = s.bitLen := rfl
@[simp] theorem setInputs_digestAct : (setInputs l s).digestAct = s.digestAct := rfl
@[simp] theorem setInputs_digestExp : (setInputs l s).digestExp = s.digestExp := rfl
@[simp] theorem setInputs_freq : (setInputs l s).freq = s.freq := rfl
@[simp] theorem setInputs_code : (setInputs l s).code = s.code := rfl
@[simp] theorem setInputs_mem : (setInputs l s).mem = s.mem := rfl
@[simp] theorem setInputs_platform : (setInputs l s).platform = s.platform := rfl
@[simp] theorem setInputs_inputs : (setInputs l s).inputs = l := rfl
@[simp] theorem setInputs_port : (setInputs l s).port = s.port := rfl
@[simp] theorem setInputs_draws : (setInputs l s).draws = s.draws := rfl
@[simp] theorem setInputs_srcRace : (setInputs l s).srcRace = s.srcRace := rfl
@[simp] theorem setInputs_dstRace : (setInputs l s).dstRace = s.dstRace := rfl
@[simp] theorem setInputs_dirty : (setInputs l s).dirty = s.dirty := rfl
@[simp] theorem setInputs_stale : (setInputs l s).stale = s.stale := rfl
end setInputsFields

section setPortFields
variable (r : PortResponse) (s : State)
@[simp] theorem setPort_phase : (setPort r s).phase = s.phase := rfl
@[simp] theorem setPort_ie : (setPort r s).ie = s.ie := rfl
@[simp] theorem setPort_cmd : (setPort r s).cmd = s.cmd := rfl
@[simp] theorem setPort_done : (setPort r s).done = s.done := rfl
@[simp] theorem setPort_err : (setPort r s).err = s.err := rfl
@[simp] theorem setPort_ovr : (setPort r s).ovr = s.ovr := rfl
@[simp] theorem setPort_freqV : (setPort r s).freqV = s.freqV := rfl
@[simp] theorem setPort_tableV : (setPort r s).tableV = s.tableV := rfl
@[simp] theorem setPort_digestV : (setPort r s).digestV = s.digestV := rfl
@[simp] theorem setPort_expV : (setPort r s).expV = s.expV := rfl
@[simp] theorem setPort_errCode : (setPort r s).errCode = s.errCode := rfl
@[simp] theorem setPort_errSub : (setPort r s).errSub = s.errSub := rfl
@[simp] theorem setPort_errInfo : (setPort r s).errInfo = s.errInfo := rfl
@[simp] theorem setPort_srcAddr : (setPort r s).srcAddr = s.srcAddr := rfl
@[simp] theorem setPort_srcLen : (setPort r s).srcLen = s.srcLen := rfl
@[simp] theorem setPort_dstAddr : (setPort r s).dstAddr = s.dstAddr := rfl
@[simp] theorem setPort_dstCap : (setPort r s).dstCap = s.dstCap := rfl
@[simp] theorem setPort_outLen : (setPort r s).outLen = s.outLen := rfl
@[simp] theorem setPort_bitLen : (setPort r s).bitLen = s.bitLen := rfl
@[simp] theorem setPort_digestAct : (setPort r s).digestAct = s.digestAct := rfl
@[simp] theorem setPort_digestExp : (setPort r s).digestExp = s.digestExp := rfl
@[simp] theorem setPort_freq : (setPort r s).freq = s.freq := rfl
@[simp] theorem setPort_code : (setPort r s).code = s.code := rfl
@[simp] theorem setPort_mem : (setPort r s).mem = s.mem := rfl
@[simp] theorem setPort_platform : (setPort r s).platform = s.platform := rfl
@[simp] theorem setPort_inputs : (setPort r s).inputs = s.inputs := rfl
@[simp] theorem setPort_port : (setPort r s).port = r := rfl
@[simp] theorem setPort_draws : (setPort r s).draws = s.draws := rfl
@[simp] theorem setPort_srcRace : (setPort r s).srcRace = s.srcRace := rfl
@[simp] theorem setPort_dstRace : (setPort r s).dstRace = s.dstRace := rfl
@[simp] theorem setPort_dirty : (setPort r s).dirty = s.dirty := rfl
@[simp] theorem setPort_stale : (setPort r s).stale = s.stale := rfl
end setPortFields

section nextDrawFields
variable (s : State)
@[simp] theorem nextDraw_phase : (nextDraw s).phase = s.phase := rfl
@[simp] theorem nextDraw_ie : (nextDraw s).ie = s.ie := rfl
@[simp] theorem nextDraw_cmd : (nextDraw s).cmd = s.cmd := rfl
@[simp] theorem nextDraw_done : (nextDraw s).done = s.done := rfl
@[simp] theorem nextDraw_err : (nextDraw s).err = s.err := rfl
@[simp] theorem nextDraw_ovr : (nextDraw s).ovr = s.ovr := rfl
@[simp] theorem nextDraw_freqV : (nextDraw s).freqV = s.freqV := rfl
@[simp] theorem nextDraw_tableV : (nextDraw s).tableV = s.tableV := rfl
@[simp] theorem nextDraw_digestV : (nextDraw s).digestV = s.digestV := rfl
@[simp] theorem nextDraw_expV : (nextDraw s).expV = s.expV := rfl
@[simp] theorem nextDraw_errCode : (nextDraw s).errCode = s.errCode := rfl
@[simp] theorem nextDraw_errSub : (nextDraw s).errSub = s.errSub := rfl
@[simp] theorem nextDraw_errInfo : (nextDraw s).errInfo = s.errInfo := rfl
@[simp] theorem nextDraw_srcAddr : (nextDraw s).srcAddr = s.srcAddr := rfl
@[simp] theorem nextDraw_srcLen : (nextDraw s).srcLen = s.srcLen := rfl
@[simp] theorem nextDraw_dstAddr : (nextDraw s).dstAddr = s.dstAddr := rfl
@[simp] theorem nextDraw_dstCap : (nextDraw s).dstCap = s.dstCap := rfl
@[simp] theorem nextDraw_outLen : (nextDraw s).outLen = s.outLen := rfl
@[simp] theorem nextDraw_bitLen : (nextDraw s).bitLen = s.bitLen := rfl
@[simp] theorem nextDraw_digestAct : (nextDraw s).digestAct = s.digestAct := rfl
@[simp] theorem nextDraw_digestExp : (nextDraw s).digestExp = s.digestExp := rfl
@[simp] theorem nextDraw_freq : (nextDraw s).freq = s.freq := rfl
@[simp] theorem nextDraw_code : (nextDraw s).code = s.code := rfl
@[simp] theorem nextDraw_mem : (nextDraw s).mem = s.mem := rfl
@[simp] theorem nextDraw_platform : (nextDraw s).platform = s.platform := rfl
@[simp] theorem nextDraw_inputs : (nextDraw s).inputs = s.inputs := rfl
@[simp] theorem nextDraw_port : (nextDraw s).port = s.port := rfl
@[simp] theorem nextDraw_draws : (nextDraw s).draws = s.draws + 1 := rfl
@[simp] theorem nextDraw_srcRace : (nextDraw s).srcRace = s.srcRace := rfl
@[simp] theorem nextDraw_dstRace : (nextDraw s).dstRace = s.dstRace := rfl
@[simp] theorem nextDraw_dirty : (nextDraw s).dirty = s.dirty := rfl
@[simp] theorem nextDraw_stale : (nextDraw s).stale = s.stale := rfl
end nextDrawFields

section setOutLenFields
variable (n : Word) (s : State)
@[simp] theorem setOutLen_phase : (setOutLen n s).phase = s.phase := rfl
@[simp] theorem setOutLen_ie : (setOutLen n s).ie = s.ie := rfl
@[simp] theorem setOutLen_cmd : (setOutLen n s).cmd = s.cmd := rfl
@[simp] theorem setOutLen_done : (setOutLen n s).done = s.done := rfl
@[simp] theorem setOutLen_err : (setOutLen n s).err = s.err := rfl
@[simp] theorem setOutLen_ovr : (setOutLen n s).ovr = s.ovr := rfl
@[simp] theorem setOutLen_freqV : (setOutLen n s).freqV = s.freqV := rfl
@[simp] theorem setOutLen_tableV : (setOutLen n s).tableV = s.tableV := rfl
@[simp] theorem setOutLen_digestV : (setOutLen n s).digestV = s.digestV := rfl
@[simp] theorem setOutLen_expV : (setOutLen n s).expV = s.expV := rfl
@[simp] theorem setOutLen_errCode : (setOutLen n s).errCode = s.errCode := rfl
@[simp] theorem setOutLen_errSub : (setOutLen n s).errSub = s.errSub := rfl
@[simp] theorem setOutLen_errInfo : (setOutLen n s).errInfo = s.errInfo := rfl
@[simp] theorem setOutLen_srcAddr : (setOutLen n s).srcAddr = s.srcAddr := rfl
@[simp] theorem setOutLen_srcLen : (setOutLen n s).srcLen = s.srcLen := rfl
@[simp] theorem setOutLen_dstAddr : (setOutLen n s).dstAddr = s.dstAddr := rfl
@[simp] theorem setOutLen_dstCap : (setOutLen n s).dstCap = s.dstCap := rfl
@[simp] theorem setOutLen_outLen : (setOutLen n s).outLen = n := rfl
@[simp] theorem setOutLen_bitLen : (setOutLen n s).bitLen = s.bitLen := rfl
@[simp] theorem setOutLen_digestAct : (setOutLen n s).digestAct = s.digestAct := rfl
@[simp] theorem setOutLen_digestExp : (setOutLen n s).digestExp = s.digestExp := rfl
@[simp] theorem setOutLen_freq : (setOutLen n s).freq = s.freq := rfl
@[simp] theorem setOutLen_code : (setOutLen n s).code = s.code := rfl
@[simp] theorem setOutLen_mem : (setOutLen n s).mem = s.mem := rfl
@[simp] theorem setOutLen_platform : (setOutLen n s).platform = s.platform := rfl
@[simp] theorem setOutLen_inputs : (setOutLen n s).inputs = s.inputs := rfl
@[simp] theorem setOutLen_port : (setOutLen n s).port = s.port := rfl
@[simp] theorem setOutLen_draws : (setOutLen n s).draws = s.draws := rfl
@[simp] theorem setOutLen_srcRace : (setOutLen n s).srcRace = s.srcRace := rfl
@[simp] theorem setOutLen_dstRace : (setOutLen n s).dstRace = s.dstRace := rfl
@[simp] theorem setOutLen_dirty : (setOutLen n s).dirty = s.dirty := rfl
@[simp] theorem setOutLen_stale : (setOutLen n s).stale = s.stale := rfl
end setOutLenFields

section clearRacesFields
variable (s : State)
@[simp] theorem clearRaces_phase : (clearRaces s).phase = s.phase := rfl
@[simp] theorem clearRaces_ie : (clearRaces s).ie = s.ie := rfl
@[simp] theorem clearRaces_cmd : (clearRaces s).cmd = s.cmd := rfl
@[simp] theorem clearRaces_done : (clearRaces s).done = s.done := rfl
@[simp] theorem clearRaces_err : (clearRaces s).err = s.err := rfl
@[simp] theorem clearRaces_ovr : (clearRaces s).ovr = s.ovr := rfl
@[simp] theorem clearRaces_freqV : (clearRaces s).freqV = s.freqV := rfl
@[simp] theorem clearRaces_tableV : (clearRaces s).tableV = s.tableV := rfl
@[simp] theorem clearRaces_digestV : (clearRaces s).digestV = s.digestV := rfl
@[simp] theorem clearRaces_expV : (clearRaces s).expV = s.expV := rfl
@[simp] theorem clearRaces_errCode : (clearRaces s).errCode = s.errCode := rfl
@[simp] theorem clearRaces_errSub : (clearRaces s).errSub = s.errSub := rfl
@[simp] theorem clearRaces_errInfo : (clearRaces s).errInfo = s.errInfo := rfl
@[simp] theorem clearRaces_srcAddr : (clearRaces s).srcAddr = s.srcAddr := rfl
@[simp] theorem clearRaces_srcLen : (clearRaces s).srcLen = s.srcLen := rfl
@[simp] theorem clearRaces_dstAddr : (clearRaces s).dstAddr = s.dstAddr := rfl
@[simp] theorem clearRaces_dstCap : (clearRaces s).dstCap = s.dstCap := rfl
@[simp] theorem clearRaces_outLen : (clearRaces s).outLen = s.outLen := rfl
@[simp] theorem clearRaces_bitLen : (clearRaces s).bitLen = s.bitLen := rfl
@[simp] theorem clearRaces_digestAct : (clearRaces s).digestAct = s.digestAct := rfl
@[simp] theorem clearRaces_digestExp : (clearRaces s).digestExp = s.digestExp := rfl
@[simp] theorem clearRaces_freq : (clearRaces s).freq = s.freq := rfl
@[simp] theorem clearRaces_code : (clearRaces s).code = s.code := rfl
@[simp] theorem clearRaces_mem : (clearRaces s).mem = s.mem := rfl
@[simp] theorem clearRaces_platform : (clearRaces s).platform = s.platform := rfl
@[simp] theorem clearRaces_inputs : (clearRaces s).inputs = s.inputs := rfl
@[simp] theorem clearRaces_port : (clearRaces s).port = s.port := rfl
@[simp] theorem clearRaces_draws : (clearRaces s).draws = s.draws := rfl
@[simp] theorem clearRaces_srcRace : (clearRaces s).srcRace = false := rfl
@[simp] theorem clearRaces_dstRace : (clearRaces s).dstRace = false := rfl
@[simp] theorem clearRaces_dirty : (clearRaces s).dirty = s.dirty := rfl
@[simp] theorem clearRaces_stale : (clearRaces s).stale = s.stale := rfl
end clearRacesFields

section hostMemWriteFields
variable (a : Nat) (bs : List Byte) (s : State)
@[simp] theorem hostMemWrite_phase : (hostMemWrite a bs s).phase = s.phase := rfl
@[simp] theorem hostMemWrite_ie : (hostMemWrite a bs s).ie = s.ie := rfl
@[simp] theorem hostMemWrite_cmd : (hostMemWrite a bs s).cmd = s.cmd := rfl
@[simp] theorem hostMemWrite_done : (hostMemWrite a bs s).done = s.done := rfl
@[simp] theorem hostMemWrite_err : (hostMemWrite a bs s).err = s.err := rfl
@[simp] theorem hostMemWrite_ovr : (hostMemWrite a bs s).ovr = s.ovr := rfl
@[simp] theorem hostMemWrite_freqV : (hostMemWrite a bs s).freqV = s.freqV := rfl
@[simp] theorem hostMemWrite_tableV : (hostMemWrite a bs s).tableV = s.tableV := rfl
@[simp] theorem hostMemWrite_digestV : (hostMemWrite a bs s).digestV = s.digestV := rfl
@[simp] theorem hostMemWrite_expV : (hostMemWrite a bs s).expV = s.expV := rfl
@[simp] theorem hostMemWrite_errCode : (hostMemWrite a bs s).errCode = s.errCode := rfl
@[simp] theorem hostMemWrite_errSub : (hostMemWrite a bs s).errSub = s.errSub := rfl
@[simp] theorem hostMemWrite_errInfo : (hostMemWrite a bs s).errInfo = s.errInfo := rfl
@[simp] theorem hostMemWrite_srcAddr : (hostMemWrite a bs s).srcAddr = s.srcAddr := rfl
@[simp] theorem hostMemWrite_srcLen : (hostMemWrite a bs s).srcLen = s.srcLen := rfl
@[simp] theorem hostMemWrite_dstAddr : (hostMemWrite a bs s).dstAddr = s.dstAddr := rfl
@[simp] theorem hostMemWrite_dstCap : (hostMemWrite a bs s).dstCap = s.dstCap := rfl
@[simp] theorem hostMemWrite_outLen : (hostMemWrite a bs s).outLen = s.outLen := rfl
@[simp] theorem hostMemWrite_bitLen : (hostMemWrite a bs s).bitLen = s.bitLen := rfl
@[simp] theorem hostMemWrite_digestAct : (hostMemWrite a bs s).digestAct = s.digestAct := rfl
@[simp] theorem hostMemWrite_digestExp : (hostMemWrite a bs s).digestExp = s.digestExp := rfl
@[simp] theorem hostMemWrite_freq : (hostMemWrite a bs s).freq = s.freq := rfl
@[simp] theorem hostMemWrite_code : (hostMemWrite a bs s).code = s.code := rfl
@[simp] theorem hostMemWrite_mem : (hostMemWrite a bs s).mem = s.mem.writeRange a bs := rfl
@[simp] theorem hostMemWrite_platform : (hostMemWrite a bs s).platform = s.platform := rfl
@[simp] theorem hostMemWrite_inputs : (hostMemWrite a bs s).inputs = s.inputs := rfl
@[simp] theorem hostMemWrite_port : (hostMemWrite a bs s).port = .done := rfl
@[simp] theorem hostMemWrite_draws : (hostMemWrite a bs s).draws = s.draws := rfl
@[simp] theorem hostMemWrite_srcRace : (hostMemWrite a bs s).srcRace = (s.srcRace || meetsSrc a bs.length s) := rfl
@[simp] theorem hostMemWrite_dstRace : (hostMemWrite a bs s).dstRace = (s.dstRace || meetsDst a bs.length s) := rfl
@[simp] theorem hostMemWrite_dirty :
    (hostMemWrite a bs s).dirty = if s.platform.coherentDma then s.dirty else addRange a bs.length s.dirty := rfl
@[simp] theorem hostMemWrite_stale : (hostMemWrite a bs s).stale = removeRange a bs.length s.stale := rfl
end hostMemWriteFields

section loseBytesFields
variable (xs : List Nat) (s : State)
@[simp] theorem loseBytes_phase : (loseBytes xs s).phase = s.phase := rfl
@[simp] theorem loseBytes_ie : (loseBytes xs s).ie = s.ie := rfl
@[simp] theorem loseBytes_cmd : (loseBytes xs s).cmd = s.cmd := rfl
@[simp] theorem loseBytes_done : (loseBytes xs s).done = s.done := rfl
@[simp] theorem loseBytes_err : (loseBytes xs s).err = s.err := rfl
@[simp] theorem loseBytes_ovr : (loseBytes xs s).ovr = s.ovr := rfl
@[simp] theorem loseBytes_freqV : (loseBytes xs s).freqV = s.freqV := rfl
@[simp] theorem loseBytes_tableV : (loseBytes xs s).tableV = s.tableV := rfl
@[simp] theorem loseBytes_digestV : (loseBytes xs s).digestV = s.digestV := rfl
@[simp] theorem loseBytes_expV : (loseBytes xs s).expV = s.expV := rfl
@[simp] theorem loseBytes_errCode : (loseBytes xs s).errCode = s.errCode := rfl
@[simp] theorem loseBytes_errSub : (loseBytes xs s).errSub = s.errSub := rfl
@[simp] theorem loseBytes_errInfo : (loseBytes xs s).errInfo = s.errInfo := rfl
@[simp] theorem loseBytes_srcAddr : (loseBytes xs s).srcAddr = s.srcAddr := rfl
@[simp] theorem loseBytes_srcLen : (loseBytes xs s).srcLen = s.srcLen := rfl
@[simp] theorem loseBytes_dstAddr : (loseBytes xs s).dstAddr = s.dstAddr := rfl
@[simp] theorem loseBytes_dstCap : (loseBytes xs s).dstCap = s.dstCap := rfl
@[simp] theorem loseBytes_outLen : (loseBytes xs s).outLen = s.outLen := rfl
@[simp] theorem loseBytes_bitLen : (loseBytes xs s).bitLen = s.bitLen := rfl
@[simp] theorem loseBytes_digestAct : (loseBytes xs s).digestAct = s.digestAct := rfl
@[simp] theorem loseBytes_digestExp : (loseBytes xs s).digestExp = s.digestExp := rfl
@[simp] theorem loseBytes_freq : (loseBytes xs s).freq = s.freq := rfl
@[simp] theorem loseBytes_code : (loseBytes xs s).code = s.code := rfl
@[simp] theorem loseBytes_mem : (loseBytes xs s).mem = xs.foldl (fun m x => m.loseRange s.draws x 1) s.mem := rfl
@[simp] theorem loseBytes_platform : (loseBytes xs s).platform = s.platform := rfl
@[simp] theorem loseBytes_inputs : (loseBytes xs s).inputs = s.inputs := rfl
@[simp] theorem loseBytes_port : (loseBytes xs s).port = s.port := rfl
@[simp] theorem loseBytes_draws : (loseBytes xs s).draws = s.draws + 1 := rfl
@[simp] theorem loseBytes_srcRace : (loseBytes xs s).srcRace = s.srcRace := rfl
@[simp] theorem loseBytes_dstRace : (loseBytes xs s).dstRace = s.dstRace := rfl
@[simp] theorem loseBytes_dirty : (loseBytes xs s).dirty = s.dirty := rfl
@[simp] theorem loseBytes_stale : (loseBytes xs s).stale = s.stale := rfl
end loseBytesFields

section hostCleanFields
variable (a n : Nat) (s : State)
@[simp] theorem hostClean_phase : (hostClean a n s).phase = s.phase := rfl
@[simp] theorem hostClean_ie : (hostClean a n s).ie = s.ie := rfl
@[simp] theorem hostClean_cmd : (hostClean a n s).cmd = s.cmd := rfl
@[simp] theorem hostClean_done : (hostClean a n s).done = s.done := rfl
@[simp] theorem hostClean_err : (hostClean a n s).err = s.err := rfl
@[simp] theorem hostClean_ovr : (hostClean a n s).ovr = s.ovr := rfl
@[simp] theorem hostClean_freqV : (hostClean a n s).freqV = s.freqV := rfl
@[simp] theorem hostClean_tableV : (hostClean a n s).tableV = s.tableV := rfl
@[simp] theorem hostClean_digestV : (hostClean a n s).digestV = s.digestV := rfl
@[simp] theorem hostClean_expV : (hostClean a n s).expV = s.expV := rfl
@[simp] theorem hostClean_errCode : (hostClean a n s).errCode = s.errCode := rfl
@[simp] theorem hostClean_errSub : (hostClean a n s).errSub = s.errSub := rfl
@[simp] theorem hostClean_errInfo : (hostClean a n s).errInfo = s.errInfo := rfl
@[simp] theorem hostClean_srcAddr : (hostClean a n s).srcAddr = s.srcAddr := rfl
@[simp] theorem hostClean_srcLen : (hostClean a n s).srcLen = s.srcLen := rfl
@[simp] theorem hostClean_dstAddr : (hostClean a n s).dstAddr = s.dstAddr := rfl
@[simp] theorem hostClean_dstCap : (hostClean a n s).dstCap = s.dstCap := rfl
@[simp] theorem hostClean_outLen : (hostClean a n s).outLen = s.outLen := rfl
@[simp] theorem hostClean_bitLen : (hostClean a n s).bitLen = s.bitLen := rfl
@[simp] theorem hostClean_digestAct : (hostClean a n s).digestAct = s.digestAct := rfl
@[simp] theorem hostClean_digestExp : (hostClean a n s).digestExp = s.digestExp := rfl
@[simp] theorem hostClean_freq : (hostClean a n s).freq = s.freq := rfl
@[simp] theorem hostClean_code : (hostClean a n s).code = s.code := rfl
@[simp] theorem hostClean_mem :
    (hostClean a n s).mem = (loseBytes ((dirtyIn a n s).filter s.stale.contains) s).mem := rfl
@[simp] theorem hostClean_platform : (hostClean a n s).platform = s.platform := rfl
@[simp] theorem hostClean_inputs : (hostClean a n s).inputs = s.inputs := rfl
@[simp] theorem hostClean_port : (hostClean a n s).port = .done := rfl
@[simp] theorem hostClean_draws : (hostClean a n s).draws = s.draws + 1 := rfl
@[simp] theorem hostClean_srcRace : (hostClean a n s).srcRace = s.srcRace := rfl
@[simp] theorem hostClean_dstRace :
    (hostClean a n s).dstRace = (s.dstRace || (dirtyIn a n s).any fun x => meetsDst x 1 s) := rfl
@[simp] theorem hostClean_dirty : (hostClean a n s).dirty = removeRange a n s.dirty := rfl
@[simp] theorem hostClean_stale : (hostClean a n s).stale = s.stale := rfl
end hostCleanFields

section hostInvalidateFields
variable (a n : Nat) (s : State)
@[simp] theorem hostInvalidate_phase : (hostInvalidate a n s).phase = s.phase := rfl
@[simp] theorem hostInvalidate_ie : (hostInvalidate a n s).ie = s.ie := rfl
@[simp] theorem hostInvalidate_cmd : (hostInvalidate a n s).cmd = s.cmd := rfl
@[simp] theorem hostInvalidate_done : (hostInvalidate a n s).done = s.done := rfl
@[simp] theorem hostInvalidate_err : (hostInvalidate a n s).err = s.err := rfl
@[simp] theorem hostInvalidate_ovr : (hostInvalidate a n s).ovr = s.ovr := rfl
@[simp] theorem hostInvalidate_freqV : (hostInvalidate a n s).freqV = s.freqV := rfl
@[simp] theorem hostInvalidate_tableV : (hostInvalidate a n s).tableV = s.tableV := rfl
@[simp] theorem hostInvalidate_digestV : (hostInvalidate a n s).digestV = s.digestV := rfl
@[simp] theorem hostInvalidate_expV : (hostInvalidate a n s).expV = s.expV := rfl
@[simp] theorem hostInvalidate_errCode : (hostInvalidate a n s).errCode = s.errCode := rfl
@[simp] theorem hostInvalidate_errSub : (hostInvalidate a n s).errSub = s.errSub := rfl
@[simp] theorem hostInvalidate_errInfo : (hostInvalidate a n s).errInfo = s.errInfo := rfl
@[simp] theorem hostInvalidate_srcAddr : (hostInvalidate a n s).srcAddr = s.srcAddr := rfl
@[simp] theorem hostInvalidate_srcLen : (hostInvalidate a n s).srcLen = s.srcLen := rfl
@[simp] theorem hostInvalidate_dstAddr : (hostInvalidate a n s).dstAddr = s.dstAddr := rfl
@[simp] theorem hostInvalidate_dstCap : (hostInvalidate a n s).dstCap = s.dstCap := rfl
@[simp] theorem hostInvalidate_outLen : (hostInvalidate a n s).outLen = s.outLen := rfl
@[simp] theorem hostInvalidate_bitLen : (hostInvalidate a n s).bitLen = s.bitLen := rfl
@[simp] theorem hostInvalidate_digestAct : (hostInvalidate a n s).digestAct = s.digestAct := rfl
@[simp] theorem hostInvalidate_digestExp : (hostInvalidate a n s).digestExp = s.digestExp := rfl
@[simp] theorem hostInvalidate_freq : (hostInvalidate a n s).freq = s.freq := rfl
@[simp] theorem hostInvalidate_code : (hostInvalidate a n s).code = s.code := rfl
@[simp] theorem hostInvalidate_mem :
    (hostInvalidate a n s).mem = (loseBytes ((dirtyIn a n s).filter fun x => !s.stale.contains x) s).mem := rfl
@[simp] theorem hostInvalidate_platform : (hostInvalidate a n s).platform = s.platform := rfl
@[simp] theorem hostInvalidate_inputs : (hostInvalidate a n s).inputs = s.inputs := rfl
@[simp] theorem hostInvalidate_port : (hostInvalidate a n s).port = .done := rfl
@[simp] theorem hostInvalidate_draws : (hostInvalidate a n s).draws = s.draws + 1 := rfl
@[simp] theorem hostInvalidate_srcRace : (hostInvalidate a n s).srcRace = s.srcRace := rfl
@[simp] theorem hostInvalidate_dstRace : (hostInvalidate a n s).dstRace = s.dstRace := rfl
@[simp] theorem hostInvalidate_dirty : (hostInvalidate a n s).dirty = removeRange a n s.dirty := rfl
@[simp] theorem hostInvalidate_stale : (hostInvalidate a n s).stale = removeRange a n s.stale := rfl
end hostInvalidateFields

section clearStatusFields
variable (v : Word) (s : State)
@[simp] theorem clearStatus_phase : (clearStatus v s).phase = s.phase := rfl
@[simp] theorem clearStatus_ie : (clearStatus v s).ie = s.ie := rfl
@[simp] theorem clearStatus_cmd : (clearStatus v s).cmd = s.cmd := rfl
@[simp] theorem clearStatus_done : (clearStatus v s).done = (s.done && !v.getLsbD 1) := rfl
@[simp] theorem clearStatus_err : (clearStatus v s).err = (s.err && !v.getLsbD 2) := rfl
@[simp] theorem clearStatus_ovr : (clearStatus v s).ovr = (s.ovr && !v.getLsbD 3) := rfl
@[simp] theorem clearStatus_freqV : (clearStatus v s).freqV = s.freqV := rfl
@[simp] theorem clearStatus_tableV : (clearStatus v s).tableV = s.tableV := rfl
@[simp] theorem clearStatus_digestV : (clearStatus v s).digestV = s.digestV := rfl
@[simp] theorem clearStatus_expV : (clearStatus v s).expV = s.expV := rfl
@[simp] theorem clearStatus_errCode : (clearStatus v s).errCode = s.errCode := rfl
@[simp] theorem clearStatus_errSub : (clearStatus v s).errSub = s.errSub := rfl
@[simp] theorem clearStatus_errInfo : (clearStatus v s).errInfo = s.errInfo := rfl
@[simp] theorem clearStatus_srcAddr : (clearStatus v s).srcAddr = s.srcAddr := rfl
@[simp] theorem clearStatus_srcLen : (clearStatus v s).srcLen = s.srcLen := rfl
@[simp] theorem clearStatus_dstAddr : (clearStatus v s).dstAddr = s.dstAddr := rfl
@[simp] theorem clearStatus_dstCap : (clearStatus v s).dstCap = s.dstCap := rfl
@[simp] theorem clearStatus_outLen : (clearStatus v s).outLen = s.outLen := rfl
@[simp] theorem clearStatus_bitLen : (clearStatus v s).bitLen = s.bitLen := rfl
@[simp] theorem clearStatus_digestAct : (clearStatus v s).digestAct = s.digestAct := rfl
@[simp] theorem clearStatus_digestExp : (clearStatus v s).digestExp = s.digestExp := rfl
@[simp] theorem clearStatus_freq : (clearStatus v s).freq = s.freq := rfl
@[simp] theorem clearStatus_code : (clearStatus v s).code = s.code := rfl
@[simp] theorem clearStatus_mem : (clearStatus v s).mem = s.mem := rfl
@[simp] theorem clearStatus_platform : (clearStatus v s).platform = s.platform := rfl
@[simp] theorem clearStatus_inputs : (clearStatus v s).inputs = s.inputs := rfl
@[simp] theorem clearStatus_port : (clearStatus v s).port = s.port := rfl
@[simp] theorem clearStatus_draws : (clearStatus v s).draws = s.draws := rfl
@[simp] theorem clearStatus_srcRace : (clearStatus v s).srcRace = s.srcRace := rfl
@[simp] theorem clearStatus_dstRace : (clearStatus v s).dstRace = s.dstRace := rfl
@[simp] theorem clearStatus_dirty : (clearStatus v s).dirty = s.dirty := rfl
@[simp] theorem clearStatus_stale : (clearStatus v s).stale = s.stale := rfl
end clearStatusFields

end Sys2Proof.Machine
end

