-- ==== Sys2Proof/Laws/Memory.lean ====
section
/-! SUPPORT. The laws of memory: reading after writing, and that every operation keeps the canonical form. -/

namespace Sys2Proof.Machine

namespace Memory

@[simp] theorem read_nil (a : Nat) : read [] a = unlisted := rfl

theorem read_cons (c : Host.Cell) (m : Memory) (a : Nat) :
    read (c :: m) a = if c.1 = a then c.2 else read m a := rfl

/-- Reading two lists one after the other: the first that lists the address decides. -/
theorem read_append (m n : Memory) (a : Nat) :
    read (m ++ n) a = if a ∈ m.map Prod.fst then read m a else read n a := by
  induction m with
  | nil => simp
  | cons c m ih =>
    by_cases h : c.1 = a
    · simp [read_cons, h]
    · simp [read_cons, h, ih, Ne.symm h]

theorem read_of_not_listed {m : Memory} {a : Nat} (h : a ∉ m.map Prod.fst) : read m a = unlisted := by
  induction m with
  | nil => rfl
  | cons c m ih =>
    simp only [List.map_cons, List.mem_cons, not_or] at h
    rw [read_cons, if_neg (Ne.symm h.1), ih h.2]

/-- Keeping the cells whose address passes a test. -/
theorem read_filter (p : Nat → Bool) (m : Memory) (a : Nat) :
    read (m.filter fun c => p c.1) a = if p a then read m a else unlisted := by
  induction m with
  | nil => simp
  | cons c m ih =>
    by_cases hc : p c.1
    · by_cases h : c.1 = a
      · subst h; simp [read_cons, hc]
      · simp [hc, read_cons, h, ih]
    · by_cases h : c.1 = a
      · subst h; simp [hc, ih]
      · simp [hc, ih, read_cons, h]

theorem cells_bounds {a : Nat} {bs : List Byte} {c : Host.Cell} (h : c ∈ cells a bs) :
    a ≤ c.1 ∧ c.1 < a + bs.length ∧ c.2 ≠ unlisted := by
  induction bs generalizing a with
  | nil => simp [cells] at h
  | cons b bs ih =>
    simp only [cells] at h
    split at h
    · have := ih h; simp only [List.length_cons]; exact ⟨by omega, by omega, this.2.2⟩
    · rcases List.mem_cons.1 h with rfl | h
      · simp; assumption
      · have := ih h; simp only [List.length_cons]; exact ⟨by omega, by omega, this.2.2⟩

theorem cells_ascending (a : Nat) (bs : List Byte) : (cells a bs).Pairwise fun c d => c.1 < d.1 := by
  induction bs generalizing a with
  | nil => exact List.Pairwise.nil
  | cons b bs ih =>
    simp only [cells]
    split
    · exact ih _
    · exact List.pairwise_cons.2 ⟨fun c hc => (cells_bounds hc).1, ih _⟩

theorem read_cells (a : Nat) (bs : List Byte) (x : Nat) :
    read (cells a bs) x = if a ≤ x ∧ x < a + bs.length then bs.getD (x - a) unlisted else unlisted := by
  induction bs generalizing a with
  | nil => simp [cells]
  | cons b bs ih =>
    have hstep : read (cells a (b :: bs)) x = if a = x then b else read (cells (a + 1) bs) x := by
      simp only [cells]
      split
      · rename_i hb
        by_cases hx : a = x
        · subst hx; rw [if_pos rfl, hb, ih]; simp
        · rw [if_neg hx]
      · rfl
    rw [hstep, ih]
    by_cases hx : a = x
    · subst hx; simp
    · by_cases h1 : a + 1 ≤ x ∧ x < a + 1 + bs.length
      · have h2 : a ≤ x ∧ x < a + (b :: bs).length := by simp only [List.length_cons]; omega
        rw [if_neg hx, if_pos h1, if_pos h2]
        obtain ⟨k, rfl⟩ : ∃ k, x = a + 1 + k := ⟨x - (a + 1), by omega⟩
        rw [show a + 1 + k - (a + 1) = k by omega, show a + 1 + k - a = k + 1 by omega]
        rfl
      · have h2 : ¬(a ≤ x ∧ x < a + (b :: bs).length) := by simp only [List.length_cons]; omega
        rw [if_neg hx, if_neg h1, if_neg h2]

/-- The one law of a store: the bytes written are read back, every other byte reads as before. -/
theorem read_writeRange (m : Memory) (a : Nat) (bs : List Byte) (x : Nat) :
    read (m.writeRange a bs) x = if a ≤ x ∧ x < a + bs.length then bs.getD (x - a) 0 else read m x := by
  cases bs with
  | nil =>
    have : ¬(a ≤ x ∧ x < a + ([] : List Byte).length) := by simp
    rw [if_neg this]; rfl
  | cons b bs =>
    have hlow := read_filter (fun n => decide (n < a)) m x
    have hhigh := read_filter (fun n => decide (a + (b :: bs).length ≤ n)) m x
    have hcells := read_cells a (b :: bs) x
    have hlen : 0 < (b :: bs).length := by simp
    simp only [writeRange, read_append, List.map_append, List.mem_append]
    generalize hbs : (b :: bs) = cs at *
    by_cases hin : a ≤ x ∧ x < a + cs.length
    · have h1 : x ∉ (m.filter fun c => decide (c.1 < a)).map Prod.fst := by
        simp only [List.mem_map, List.mem_filter, not_exists, not_and]
        rintro c ⟨-, hc⟩ rfl
        simp at hc; omega
      rw [if_pos hin] at hcells ⊢
      by_cases h2 : x ∈ (cells a cs).map Prod.fst
      · rw [if_pos (Or.inr h2), if_neg h1]; exact hcells
      · rw [if_neg (by tauto), hhigh, if_neg (by simp; omega), ← read_of_not_listed h2]; exact hcells
    · rw [if_neg hin] at hcells ⊢
      have h2 : x ∉ (cells a cs).map Prod.fst := by
        simp only [List.mem_map, not_exists, not_and]
        rintro c hc rfl
        have := cells_bounds hc; omega
      by_cases h1 : x ∈ (m.filter fun c => decide (c.1 < a)).map Prod.fst
      · rw [if_pos (Or.inl h1), if_pos h1, hlow]
        obtain ⟨c, hc, rfl⟩ := List.mem_map.1 h1
        rw [if_pos (List.mem_filter.1 hc).2]
      · rw [if_neg (by tauto), hhigh]
        by_cases hx : a + cs.length ≤ x
        · rw [if_pos (by simpa using hx)]
        · rw [if_neg (by simpa using hx)]
          have hxa : x < a := by omega
          by_cases hm : x ∈ m.map Prod.fst
          · obtain ⟨c, hc, rfl⟩ := List.mem_map.1 hm
            exact absurd (List.mem_map.2 ⟨c, List.mem_filter.2 ⟨hc, by simpa using hxa⟩, rfl⟩) h1
          · rw [read_of_not_listed hm]

/-- Every store keeps the canonical form, for bytes that exist. -/
theorem wf_writeRange {m : Memory} (h : wf m) {a : Nat} {bs : List Byte} (hb : a + bs.length ≤ 2 ^ 32) :
    wf (m.writeRange a bs) := by
  cases bs with
  | nil => exact h
  | cons b bs =>
    simp only [writeRange]
    generalize (b :: bs) = cs at *
    refine ⟨List.pairwise_append.2 ⟨List.pairwise_append.2 ⟨h.1.filter _, cells_ascending a cs, ?_⟩,
      h.1.filter _, ?_⟩, ?_⟩
    · intro c hc d hd
      have h1 := (List.mem_filter.1 hc).2
      have h2 := (cells_bounds hd).1
      simp at h1; omega
    · intro c hc d hd
      have h2 := (List.mem_filter.1 hd).2
      simp at h2
      rcases List.mem_append.1 hc with hc | hc
      · have h1 := (List.mem_filter.1 hc).2
        simp at h1; omega
      · have := cells_bounds hc; omega
    · intro c hc
      rcases List.mem_append.1 hc with hc | hc
      · rcases List.mem_append.1 hc with hc | hc
        · exact h.2 c (List.mem_filter.1 hc).1
        · have := cells_bounds hc
          exact ⟨by omega, this.2.2⟩
      · exact h.2 c (List.mem_filter.1 hc).1

@[simp] theorem length_readRange (m : Memory) (a n : Nat) : (readRange m a n).length = n := by simp [readRange]

theorem getElem_readRange (m : Memory) (a n i : Nat) (h : i < (readRange m a n).length) :
    (readRange m a n)[i] = read m (a + i) := by simp [readRange]

/-- A lost range is free inside and as before outside. -/
theorem read_loseRange (m : Memory) (d a n x : Nat) :
    read (m.loseRange d a n) x = if a ≤ x ∧ x < a + n then Config.anyByte d x else read m x := by
  have hlen : ((List.range n).map fun i => Config.anyByte d (a + i)).length = n := by simp
  rw [loseRange, read_writeRange, hlen]
  by_cases h : a ≤ x ∧ x < a + n
  · rw [if_pos h, if_pos h, List.getD_eq_getElem _ _ (by rw [hlen]; omega)]
    simp only [List.getElem_map, List.getElem_range]
    rw [show a + (x - a) = x by omega]
  · rw [if_neg h, if_neg h]

theorem wf_loseRange {m : Memory} (h : wf m) {d a n : Nat} (hb : a + n ≤ 2 ^ 32) : wf (m.loseRange d a n) :=
  wf_writeRange h (by simpa using hb)

/-- What a store leaves, in the words of the claims. -/
theorem storesExactly_writeRange (m : Memory) (a : Nat) (bs : List Byte) :
    StoresExactly m (m.writeRange a bs) a bs := fun x => read_writeRange m a bs x

theorem sameOutside_writeRange (m : Memory) (a : Nat) (bs : List Byte) :
    SameOutside m (m.writeRange a bs) a bs.length := fun x hx => by rw [read_writeRange, if_neg hx]

theorem sameOutside_loseRange (m : Memory) (d a n : Nat) : SameOutside m (m.loseRange d a n) a n :=
  fun x hx => by rw [read_loseRange, if_neg hx]

end Memory

/-- The reset state's memory has the canonical form. -/
theorem wf_reset : Memory.wf State.reset.mem := by decide

theorem SameOutside.refl (m : Memory) (a n : Nat) : SameOutside m m a n := fun _ _ => rfl

theorem SameOutside.trans {m m' m'' : Memory} {a n : Nat} (h : SameOutside m m' a n) (h' : SameOutside m' m'' a n) :
    SameOutside m m'' a n := fun x hx => (h' x hx).trans (h x hx)

/-- Outside a range is outside a shorter one. -/
theorem SameOutside.mono {m m' : Memory} {a n k : Nat} (h : SameOutside m m' a n) (hk : n ≤ k) :
    SameOutside m m' a k := fun x hx => h x fun h' => hx ⟨h'.1, by omega⟩

end Sys2Proof.Machine
end

