-- ==== Sys2Proof/Laws/Bits.lean ====
section
/-! SUPPORT. The laws of bit order, byte order and tables. -/

namespace Sys2Proof.Machine

@[simp] theorem getElem_tabulate {α : Type} (n : Nat) (f : Nat → α) (i : Nat) (h : i < n) :
    (tabulate n f)[i] = f i := by
  show (((List.range n).map f).toArray)[i]'(by simpa using h) = f i
  simp

@[simp] theorem toList_tabulate {α : Type} (n : Nat) (f : Nat → α) : (tabulate n f).toList = (List.range n).map f := rfl

/-- A byte built from bits gives them back (R84). -/
theorem bitOfByte_byteOfBits (f : Nat → Bool) (i : Nat) (h : i < 8) : bitOfByte (byteOfBits f) i = f i := by
  have key : ∀ b0 b1 b2 b3 b4 b5 b6 b7 : Bool, ∀ j : Fin 8,
      bitOfByte (BitVec.ofNat 8 (2 * (2 * (2 * (2 * (2 * (2 * (2 * (2 * 0 + b0.toNat) + b1.toNat) + b2.toNat) +
        b3.toNat) + b4.toNat) + b5.toNat) + b6.toNat) + b7.toNat)) j.val =
      ([b0, b1, b2, b3, b4, b5, b6, b7] : List Bool).getD j.val false := by decide
  have := key (f 0) (f 1) (f 2) (f 3) (f 4) (f 5) (f 6) (f 7) ⟨i, h⟩
  rw [show byteOfBits f = BitVec.ofNat 8 (2 * (2 * (2 * (2 * (2 * (2 * (2 * (2 * 0 + (f 0).toNat) + (f 1).toNat) +
    (f 2).toNat) + (f 3).toNat) + (f 4).toNat) + (f 5).toNat) + (f 6).toNat) + (f 7).toNat) from rfl, this]
  interval_cases i <;> rfl

@[simp] theorem length_be32bytes (v : Nat) : (be32bytes v).length = 4 := rfl

/-- Four big-endian bytes give their number back (R12). -/
theorem be32_be32bytes_append (v : Nat) (h : v < 2 ^ 32) (r : List Byte) : be32 (be32bytes v ++ r) = v := by
  show (BitVec.ofNat 8 (v / 2 ^ 24)).toNat * 2 ^ 24 + (BitVec.ofNat 8 (v / 2 ^ 16)).toNat * 2 ^ 16 +
    (BitVec.ofNat 8 (v / 2 ^ 8)).toNat * 2 ^ 8 + (BitVec.ofNat 8 v).toNat = v
  simp only [BitVec.toNat_ofNat]
  omega

/-- Four bytes hold a number below 2^32. -/
theorem be32_lt (bs : List Byte) : be32 bs < 2 ^ 32 := by
  unfold be32
  have h0 := (bs.getD 0 0).isLt
  have h1 := (bs.getD 1 0).isLt
  have h2 := (bs.getD 2 0).isLt
  have h3 := (bs.getD 3 0).isLt
  omega

@[simp] theorem length_symbols : symbols.length = 256 := by simp [symbols]

@[simp] theorem getElem_symbols (i : Nat) (h : i < symbols.length) : symbols[i] = BitVec.ofNat 8 i := by simp [symbols]

/-- A symbol is an entry exactly with its own, non-empty code (R52). -/
theorem mem_entries (t : CodeTable) (e : Byte × Bits) : e ∈ entries t ↔ e.2 = codeOf t e.1 ∧ e.2 ≠ [] := by
  have hlen : symbols.length = t.toList.length := by simp
  simp only [entries, List.mem_filter, Bool.not_eq_true', List.isEmpty_eq_false_iff]
  refine and_congr_left fun _ => ⟨fun h => ?_, fun h => ?_⟩
  · obtain ⟨i, hi, rfl⟩ := List.mem_iff_getElem.1 h
    have hi' : i < 256 := by simpa using hi
    simp only [List.getElem_zip, getElem_symbols, codeOf, Vector.getElem_toList]
    congr 1
    simp [Nat.mod_eq_of_lt hi']
  · refine List.mem_iff_getElem.2 ⟨e.1.toNat, by simpa using e.1.isLt, ?_⟩
    simp only [List.getElem_zip, getElem_symbols, Vector.getElem_toList]
    exact Prod.ext (by simp) (by rw [h]; rfl)

/-- A table's entries are its symbols with their codes, the symbols without one left out (R52). -/
theorem entries_eq (t : CodeTable) :
    entries t = (symbols.map fun x => (x, codeOf t x)).filter fun e => !e.2.isEmpty := by
  unfold entries
  congr 1
  refine List.ext_getElem (by simp) fun i h1 h2 => ?_
  have hi : i < 256 := by simpa using h2
  simp [codeOf, Nat.mod_eq_of_lt hi]

/-- The codes of a table made from a list. -/
theorem codeOf_tableOf (es : List (Byte × Bits)) (s : Byte) :
    codeOf (tableOf es) s = ((es.find? fun e => e.1.toNat == s.toNat).map (·.2)).getD [] := by
  simp [codeOf, tableOf]

/-- The bits of a number built most significant first. -/
theorem testBit_foldl_bits (f : Nat → Bool) (n k : Nat) (h : k < n) :
    ((List.range n).foldl (fun acc j => 2 * acc + (f j).toNat) 0).testBit (n - 1 - k) = f k := by
  induction n with
  | zero => omega
  | succ n ih =>
    rw [List.range_succ, List.foldl_append]
    simp only [List.foldl_cons, List.foldl_nil]
    by_cases hk : k = n
    · subst hk
      rw [show k + 1 - 1 - k = 0 by omega, Nat.testBit_zero]
      cases f k <;> simp
    · rw [show n + 1 - 1 - k = (n - 1 - k) + 1 by omega, Nat.testBit_succ]
      rw [show ∀ x, (2 * x + (f n).toNat) / 2 = x from fun x => by have := (f n).toNat_le; omega]
      exact ih (by omega)

/-- A word of the CODE_BITS window by its bits: bit 31 - j is code bit 32·w + j (R52). -/
theorem getLsbD_codeBitsWord (c : Bits) (w j : Nat) (h : j < 32) :
    (codeBitsWord c w).getLsbD (31 - j) = c.getD (32 * w + j) false := by
  unfold codeBitsWord
  rw [BitVec.getLsbD_ofNat]
  have := testBit_foldl_bits (fun j => c.getD (32 * w + j) false) 32 j h
  simp only [show 31 - j < 32 by omega, decide_true, Bool.true_and]
  exact this

/-- A range put in a list of addresses. -/
theorem mem_addRange {a n x : Nat} {xs : List Nat} :
    x ∈ addRange a n xs ↔ (a ≤ x ∧ x < a + n) ∨ (x ∈ xs ∧ ¬(a ≤ x ∧ x < a + n)) := by
  by_cases hn : n = 0
  · subst hn
    simp only [addRange, if_pos]
    exact ⟨fun h => Or.inr ⟨h, by omega⟩, fun h => h.elim (fun h => by omega) And.left⟩
  simp only [addRange, if_neg hn, List.mem_append, List.mem_filter, decide_eq_true_eq, List.mem_range'_1]
  constructor
  · rintro ((⟨h1, h2⟩ | h) | ⟨h1, h2⟩)
    · exact Or.inr ⟨h1, by omega⟩
    · exact Or.inl h
    · exact Or.inr ⟨h1, by omega⟩
  · rintro (h | ⟨h1, h2⟩)
    · exact Or.inl (Or.inr h)
    · rcases Nat.lt_or_ge x a with h | h
      · exact Or.inl (Or.inl ⟨h1, h⟩)
      · exact Or.inr ⟨h1, by omega⟩

/-- Putting a range in keeps the list ascending. -/
theorem ascending_addRange {a n : Nat} {xs : List Nat} (h : xs.Pairwise (· < ·)) : (addRange a n xs).Pairwise (· < ·) := by
  by_cases hn : n = 0
  · rw [addRange, if_pos hn]; exact h
  rw [addRange, if_neg hn]
  refine List.pairwise_append.2 ⟨List.pairwise_append.2 ⟨h.filter _, List.pairwise_lt_range', ?_⟩, h.filter _, ?_⟩
  · intro x hx y hy
    have := (List.mem_filter.1 hx).2
    have := List.mem_range'_1.1 hy
    simp_all; omega
  · intro x hx y hy
    have := (List.mem_filter.1 hy).2
    simp only [decide_eq_true_eq] at this
    rcases List.mem_append.1 hx with hx | hx
    · have := (List.mem_filter.1 hx).2
      simp only [decide_eq_true_eq] at this; omega
    · have := List.mem_range'_1.1 hx; omega

theorem ascending_removeRange {a n : Nat} {xs : List Nat} (h : xs.Pairwise (· < ·)) :
    (removeRange a n xs).Pairwise (· < ·) := h.filter _

end Sys2Proof.Machine
end

