-- ==== Sys2Proof/Laws/Decode.lean ====
section
/-! SUPPORT. The small laws of the decoder. -/

namespace Sys2Proof

/-- Decoding, case by case: what each outcome says of the word's fields (R112). -/
theorem decodeWord_ok {w : Word} {i : Instr} (h : decodeWord w = .ok i) :
    rsvField w = 0 ∧ ∃ r, opcodeTable.find? (fun r => r.1 == opField w) = some r ∧ r.2 = i := by
  unfold decodeWord at h
  split at h
  · cases h
  · rename_i hr
    split at h
    · rename_i r hf
      exact ⟨not_not.1 hr, r, hf, by simpa using h⟩
    · cases h

@[simp] theorem opField_encode (i : Instr) : opField (encode i) = i.opcode := by cases i <;> decide

@[simp] theorem rsvField_encode (i : Instr) : rsvField (encode i) = 0 := by cases i <;> decide

end Sys2Proof
end

