-- ==== Sys2Proof/Laws/Ops.lean ====
section
/-! SUPPORT. The laws of the shared operations: the start check, bus errors, and everything a command's end can do. -/

namespace Sys2Proof.Machine

/-- When every region is legal (R319). -/
theorem rangeBits_eq_zero_iff (p : Profile) (s : State) :
    rangeBits p s = 0 ↔ (p.readsSrc = true → srcWraps s = false) ∧ (p.writesDst = true → dstWraps s = false) ∧
      (p.readsSrc = true → p.writesDst = true → regionsOverlap s = false) := by
  unfold rangeBits
  cases p.readsSrc <;> cases p.writesDst <;> cases srcWraps s <;> cases dstWraps s <;> cases regionsOverlap s <;> decide

/-- When the start check lets a command through (R319). -/
theorem prologue_eq_none_iff (c : Instr) (s : State) :
    prologue c s = none ↔
      ((profile c).needsFreq = true → s.freqV = true) ∧ ((profile c).needsTable = true → s.tableV = true) ∧
      ((profile c).readsSrc = true → s.srcAddr.toNat + s.srcLen.toNat ≤ 2 ^ 32) ∧
      ((profile c).writesDst = true → s.dstAddr.toNat + s.dstCap.toNat ≤ 2 ^ 32) ∧
      ((profile c).readsSrc = true → (profile c).writesDst = true → regionsOverlap s = false) := by
  have h := rangeBits_eq_zero_iff (profile c) s
  simp only [srcWraps, dstWraps, decide_eq_false_iff_not, Nat.not_lt] at h
  rw [← h]
  unfold prologue
  simp only
  by_cases h1 : ((profile c).needsFreq && !s.freqV) = true
  · rw [if_pos h1]; simp at h1; simp [h1]
  · rw [if_neg h1]
    by_cases h2 : ((profile c).needsTable && !s.tableV) = true
    · rw [if_pos h2]; simp at h2; simp [h2]
    · rw [if_neg h2]
      simp only [Bool.and_eq_true, Bool.not_eq_true', not_and, Bool.not_eq_false] at h1 h2
      by_cases h3 : rangeBits (profile c) s = 0
      · simp [h3]; exact ⟨h1, h2⟩
      · simp [h3]

/-- The regions share no address exactly when R341's condition fails. -/
theorem regionsOverlap_eq_false_iff (s : State) : regionsOverlap s = false ↔ s.Disjoint := by
  unfold regionsOverlap rangesMeet State.Disjoint
  rw [decide_eq_false_iff_not]
  omega

/-- The listed addresses are those of the range where BusOk is false (R316). -/
theorem mem_badAddrs (p : Platform) (k : Access) (a n x : Nat) :
    x ∈ badAddrs p k a n ↔ (a ≤ x ∧ x < a + n) ∧ busOk p x k = false := by
  unfold badAddrs busOk
  simp only [List.mem_flatMap, Bool.not_eq_false', List.any_eq_true, Bool.and_eq_true, decide_eq_true_eq]
  constructor
  · rintro ⟨f, hf, hx⟩
    split at hx
    · have := List.mem_range'_1.1 hx
      exact ⟨by omega, f, hf, ⟨by assumption, by omega⟩, by omega⟩
    · cases hx
  · rintro ⟨hx, f, hf, ⟨hd, h1⟩, h2⟩
    exact ⟨f, hf, by rw [if_pos hd]; exact List.mem_range'_1.2 (by omega)⟩

/-- No address of the range gets a bus error. -/
theorem badAddrs_eq_nil_iff (p : Platform) (k : Access) (a n : Nat) :
    badAddrs p k a n = [] ↔ ∀ x, a ≤ x → x < a + n → busOk p x k = true := by
  rw [List.eq_nil_iff_forall_not_mem]
  refine forall_congr' fun x => ?_
  rw [mem_badAddrs]
  cases busOk p x k <;> simp

/-- Clearing race marks that are not set changes nothing. -/
theorem clearRaces_of_noRace {t : State} (h1 : t.srcRace = false) (h2 : t.dstRace = false) : clearRaces t = t := by
  cases t
  simp only at h1 h2
  subst h1 h2
  rfl

@[simp] theorem loseDstIf_true (s : State) : loseDstIf true s = loseDst s := rfl

@[simp] theorem loseDstIf_false (s : State) : loseDstIf false s = s := rfl

/-- What a rule may write: only what the profile of its command lists (R113), within DST_CAP bytes. -/
structure Results.Fits (p : Profile) (cap : Nat) (r : Results) : Prop where
  room : r.out.length ≤ cap
  out : p.writesDst = false → r.out = []
  freq : p.writesFreq = false → r.freq = none
  code : p.writesTable = false → r.code = none
  act : p.writesAct = false → r.digestAct = none
  exp : p.writesExp = false → r.digestExp = none
  bitLen : p.writesBitLen = false → r.bitLen = none

/-- A rule's outcome keeps to its command's profile. INTEGRITY is DECOMPRESS's alone, which has a destination. -/
def RuleOutcome.Fits (p : Profile) (cap : Nat) : RuleOutcome → Prop
  | .success r => r.Fits p cap
  | .early _ => True
  | .late _ => True
  | .mismatch r => r.Fits p cap ∧ p.writesDst = true

/-- No outcome of a command touches the race marks. -/
theorem settle_races (c : Instr) (o : RuleOutcome) (s : State) :
    (settle c o s).srcRace = s.srcRace ∧ (settle c o s).dstRace = s.dstRace := by
  rcases o with r | e | e | r
  · exact ⟨rfl, rfl⟩
  · exact ⟨rfl, rfl⟩
  · unfold settle loseResults
    cases (profile c).writesDst <;> exact ⟨rfl, rfl⟩
  · exact ⟨rfl, rfl⟩

/-- The end of a command with no race: its outcome after bus errors (R316). -/
theorem runCommand_of_noRace {c : Instr} {body : State → RuleOutcome} {s : State} (hr : s.NoRace) :
    runCommand c body s = settle c (busOutcome c (checkedOutcome c body s) s) s := by
  have h := settle_races c (busOutcome c (checkedOutcome c body s) s) s
  rw [hr.src, hr.dst] at h
  simp only [runCommand, endCommand, hr.src, hr.dst, loseDstIf_false, Bool.false_eq_true, if_false]
  exact clearRaces_of_noRace h.1 h.2

theorem checkedOutcome_of_none {c : Instr} {body : State → RuleOutcome} {s : State} (h : prologue c s = none) :
    checkedOutcome c body s = body s := by
  simp only [checkedOutcome, h]

theorem checkedOutcome_of_some {c : Instr} {body : State → RuleOutcome} {s : State} {e : CommandError}
    (h : prologue c s = some e) : checkedOutcome c body s = .early e := by
  simp only [checkedOutcome, h]

/-- An early error, with no race: the error registers and nothing else (R321). -/
theorem runCommand_early {c : Instr} {body : State → RuleOutcome} {s : State} {e : CommandError} (hr : s.NoRace)
    (hp : prologue c s = some e) : runCommand c body s = raise e s := by
  rw [runCommand_of_noRace hr, checkedOutcome_of_some hp]
  rfl

/-- No bus error can occur: the success stands (R316 item 2). -/
theorem busOutcome_success {c : Instr} {r : Results} {s : State}
    (h : badReads c s ++ badWrites c r.out.length s = []) : busOutcome c (.success r) s = .success r := by
  simp only [busOutcome, h]

/-- No bus error can occur: the late error stands (R316 item 3). -/
theorem busOutcome_late {c : Instr} {e : CommandError} {s : State}
    (h : badReads c s ++ badWrites c s.dstCap.toNat s = []) : busOutcome c (.late e) s = .late e := by
  simp only [busOutcome, h]

/-- No bus error can occur: the mismatch stands (R316 item 3). -/
theorem busOutcome_mismatch {c : Instr} {r : Results} {s : State}
    (h : badReads c s ++ badWrites c s.dstCap.toNat s = []) : busOutcome c (.mismatch r) s = .mismatch r := by
  simp only [busOutcome, h]

/-- After bus errors an outcome is what it was, or BUS at an address of a region (R316). -/
theorem busOutcome_cases (c : Instr) (o : RuleOutcome) (s : State) :
    busOutcome c o s = o ∨
      ∃ a, busOutcome c o s = .late (.bus a) ∧ a ∈ badReads c s ++ badWrites c s.dstCap.toNat s ∨
        ∃ r, o = .success r ∧ busOutcome c o s = .late (.bus a) ∧ a ∈ badReads c s ++ badWrites c r.out.length s := by
  have pick : ∀ (l : List Nat) (a : Nat) (k : Nat), (a :: l).getD (k % (l.length + 1)) a ∈ a :: l := by
    intro l a k
    have hk : k % (l.length + 1) < (a :: l).length := by
      simpa using Nat.mod_lt k (Nat.succ_pos l.length)
    rw [List.getD_eq_getElem _ _ hk]
    exact List.getElem_mem hk
  cases o with
  | early e => exact Or.inl rfl
  | success r =>
    rcases h : badReads c s ++ badWrites c r.out.length s with _ | ⟨a, as⟩
    · exact Or.inl (busOutcome_success h)
    · refine Or.inr ⟨(a :: as).getD (Config.anyChoice s.draws .bus % (as.length + 1)) a, Or.inr ⟨r, rfl, ?_, ?_⟩⟩
      · simp only [busOutcome, h]
      · rw [h]
        exact pick as a _
  | late e =>
    rcases h : badReads c s ++ badWrites c s.dstCap.toNat s with _ | ⟨a, as⟩
    · exact Or.inl (busOutcome_late h)
    · rcases hb : (a :: as)[Config.anyChoice s.draws .bus % (as.length + 2)]? with _ | b
      · exact Or.inl (by simp only [busOutcome, h, hb])
      · exact Or.inr ⟨b, Or.inl ⟨by simp only [busOutcome, h, hb], List.mem_of_getElem? hb⟩⟩
  | mismatch r =>
    rcases h : badReads c s ++ badWrites c s.dstCap.toNat s with _ | ⟨a, as⟩
    · exact Or.inl (busOutcome_mismatch h)
    · rcases hb : (a :: as)[Config.anyChoice s.draws .bus % (as.length + 2)]? with _ | b
      · exact Or.inl (by simp only [busOutcome, h, hb])
      · exact Or.inr ⟨b, Or.inl ⟨by simp only [busOutcome, h, hb], List.mem_of_getElem? hb⟩⟩

/-- Everything the end of a command can do, raced or not: the unconstrained end of R93, an early error (R321), a
late error (R322), a success (R325), or INTEGRITY (R323). -/
theorem endCommand_cases (c : Instr) (body : State → RuleOutcome) (s : State) :
    (s.srcRace = true ∧ endCommand c body s = racedEnd c s) ∨ (∃ e, endCommand c body s = raise e s) ∨
      (∃ e, endCommand c body s = raise e (loseResults c s)) ∨
      (∃ r, body s = .success r ∧ prologue c s = none ∧ endCommand c body s = complete (writeResults r s)) ∨
      (∃ r, body s = .mismatch r ∧ prologue c s = none ∧
        endCommand c body s = raise .integrity (loseDst (storeResults r s))) := by
  unfold endCommand
  split
  · rename_i hr; exact Or.inl ⟨hr, rfl⟩
  · rcases hp : prologue c s with _ | e
    · rw [checkedOutcome_of_none hp]
      rcases busOutcome_cases c (body s) s with h | ⟨a, h | ⟨r, -, h⟩⟩
      · rw [h]
        rcases hb : body s with r | e | e | r
        · exact Or.inr (Or.inr (Or.inr (Or.inl ⟨r, rfl, rfl, rfl⟩)))
        · exact Or.inr (Or.inl ⟨e, rfl⟩)
        · exact Or.inr (Or.inr (Or.inl ⟨e, rfl⟩))
        · exact Or.inr (Or.inr (Or.inr (Or.inr ⟨r, rfl, rfl, rfl⟩)))
      · rw [h.1]; exact Or.inr (Or.inr (Or.inl ⟨_, rfl⟩))
      · rw [h.1]; exact Or.inr (Or.inr (Or.inl ⟨_, rfl⟩))
    · rw [checkedOutcome_of_some hp]; exact Or.inr (Or.inl ⟨e, rfl⟩)

/-- The raced end, register by register: it is a completion or an error end over lost results (R93 item 3). -/
theorem racedEnd_cases (c : Instr) (s : State) :
    ∃ v : Config.BitSlot → Bool, ∃ w : Word,
      racedEnd c s = complete (setOutLen w (loseDst (loseRegs (profile c) v s))) ∨
      ∃ n m, 1 ≤ n.toNat ∧ n.toNat ≤ 9 ∧ m.toNat ≤ 15 ∧ (n ≠ 2 → m = 0) ∧
        racedEnd c s = errorEnd n m w (loseDst (loseRegs (profile c) v s)) := by
  unfold racedEnd
  have hlt : Config.anyChoice s.draws .outcome % 10 < 10 := Nat.mod_lt _ (by decide)
  generalize Config.anyChoice s.draws .outcome % 10 = k at hlt ⊢
  rcases k with _ | k
  · exact ⟨Config.anyBit s.draws, _, Or.inl rfl⟩
  · refine ⟨Config.anyBit s.draws, _, Or.inr ⟨BitVec.ofNat 8 (k + 1), _, ?_, ?_, ?_, ?_, rfl⟩⟩
    · simp; omega
    · simp; omega
    · split
      · have := Nat.mod_lt (Config.anyChoice s.draws .sub) (show 0 < 15 by decide)
        simp; omega
      · decide
    · intro hn
      rw [if_neg]
      intro hk
      rw [hk] at hn
      exact hn rfl

/-- What the end of a command never writes: the operand registers, CMD, CTRL, OVR and everything outside the block
(R113, R321, R322), but for the host's stale bytes (`GrowsStale`). It always leaves phase IDLE (R320, R325). -/
structure KeepsControl (s t : State) : Prop where
  phase : t.phase = .idle
  ie : t.ie = s.ie
  cmd : t.cmd = s.cmd
  ovr : t.ovr = s.ovr
  srcAddr : t.srcAddr = s.srcAddr
  srcLen : t.srcLen = s.srcLen
  dstAddr : t.dstAddr = s.dstAddr
  dstCap : t.dstCap = s.dstCap
  platform : t.platform = s.platform
  inputs : t.inputs = s.inputs
  port : t.port = s.port
  dirty : t.dirty = s.dirty

theorem KeepsControl.loseDstIf {s t : State} (b : Bool) (h : KeepsControl s t) : KeepsControl s (loseDstIf b t) := by
  cases b
  · exact h
  · exact ⟨h.1, h.2, h.3, h.4, h.5, h.6, h.7, h.8, h.9, h.10, h.11, h.12⟩

/-- Lost results, then an end of the command that only writes outcome registers. -/
theorem keepsControl_lost (b : Bool) (p : Profile) (v : Config.BitSlot → Bool) (n m : BitVec 8) (w : Word) (s : State) :
    KeepsControl s (complete (setOutLen w (loseDstIf b (loseRegs p v s)))) ∧
      KeepsControl s (errorEnd n m w (loseDstIf b (loseRegs p v s))) := by
  cases b <;> exact ⟨by constructor <;> rfl, by constructor <;> rfl⟩

theorem endCommand_keepsControl (c : Instr) (body : State → RuleOutcome) (s : State) :
    KeepsControl s (endCommand c body s) := by
  rcases endCommand_cases c body s with ⟨-, h⟩ | ⟨e, h⟩ | ⟨e, h⟩ | ⟨r, -, -, h⟩ | ⟨r, -, -, h⟩ <;> rw [h]
  · obtain ⟨v, w, h | ⟨n, m, -, -, -, -, h⟩⟩ := racedEnd_cases c s <;> rw [h]
    · exact (keepsControl_lost true _ _ 0 0 _ _).1
    · exact (keepsControl_lost true _ _ _ _ _ _).2
  · constructor <;> rfl
  · exact (keepsControl_lost _ _ _ _ _ _ _).2
  · constructor <;> rfl
  · constructor <;> rfl

theorem runCommand_keepsControl (c : Instr) (body : State → RuleOutcome) (s : State) :
    KeepsControl s (runCommand c body s) := by
  have h := (endCommand_keepsControl c body s).loseDstIf s.dstRace
  exact ⟨h.1, h.2, h.3, h.4, h.5, h.6, h.7, h.8, h.9, h.10, h.11, h.12⟩

/-- The destination bytes that exist are within DST_CAP. -/
theorem dstBytes_le (s : State) : dstBytes s ≤ s.dstCap.toNat := Nat.min_le_left _ _

/-- The destination bytes that exist do exist. -/
theorem dstBytes_bound (s : State) : s.dstAddr.toNat + dstBytes s ≤ 2 ^ 32 := by
  have := s.dstAddr.isLt
  unfold dstBytes
  omega

/-- The destination bytes of a legal region are all of it (R340). -/
theorem dstBytes_of_legal {s : State} (h : s.dstAddr.toNat + s.dstCap.toNat ≤ 2 ^ 32) : dstBytes s = s.dstCap.toNat := by
  unfold dstBytes
  omega

theorem sameOutside_loseDst (s : State) : SameOutside s.mem (loseDst s).mem s.dstAddr.toNat s.dstCap.toNat := by
  rw [loseDst_mem]
  exact (Memory.sameOutside_loseRange _ _ _ _).mono (dstBytes_le s)

theorem sameOutside_loseDstIf (b : Bool) (s : State) :
    SameOutside s.mem (loseDstIf b s).mem s.dstAddr.toNat s.dstCap.toNat := by
  cases b
  · exact SameOutside.refl _ _ _
  · exact sameOutside_loseDst s

/-- A command that writes no destination byte leaves the host's stale bytes (log entry 10). -/
@[simp] theorem staleWith_zero (s : State) : staleWith s 0 = s.stale := by
  unfold staleWith addRange
  simp

/-- What a command's end does to the bytes the host's caches may not show: on a platform that is not coherent they grow,
by destination bytes alone (R97, log entry 10). -/
structure GrowsStale (s t : State) : Prop where
  coherent : s.platform.coherentDma = true → t.stale = s.stale
  keeps : ∀ x, x ∈ s.stale → x ∈ t.stale
  within : ∀ x, x ∈ t.stale → x ∈ s.stale ∨ s.dstAddr.toNat ≤ x ∧ x < s.dstAddr.toNat + s.dstCap.toNat
  ascending : s.stale.Pairwise (· < ·) → t.stale.Pairwise (· < ·)

theorem GrowsStale.of_eq {s t : State} (h : t.stale = s.stale) : GrowsStale s t :=
  ⟨fun _ => h, fun _ hx => h ▸ hx, fun _ hx => Or.inl (h ▸ hx), fun hp => h ▸ hp⟩

theorem GrowsStale.of_staleWith {s t : State} {n : Nat} (hn : n ≤ s.dstCap.toNat) (h : t.stale = staleWith s n) :
    GrowsStale s t := by
  unfold staleWith at h
  split at h
  · exact .of_eq h
  · rename_i hc
    refine ⟨fun hc' => absurd hc' hc, fun x hx => ?_, fun x hx => ?_, fun hp => h ▸ ascending_addRange hp⟩
    · rw [h, mem_addRange]
      rcases Decidable.em (s.dstAddr.toNat ≤ x ∧ x < s.dstAddr.toNat + n) with hr | hr
      · exact Or.inl hr
      · exact Or.inr ⟨hx, hr⟩
    · rw [h, mem_addRange] at hx
      rcases hx with ⟨h1, h2⟩ | ⟨hx, -⟩
      · exact Or.inr ⟨h1, by omega⟩
      · exact Or.inl hx

theorem growsStale_loseDst (s : State) : GrowsStale s (loseDst s) := .of_staleWith (dstBytes_le s) rfl

theorem GrowsStale.loseDstIf {s t : State} (b : Bool) (k : KeepsControl s t) (h : GrowsStale s t) :
    GrowsStale s (loseDstIf b t) := by
  cases b
  · exact h
  · have g := growsStale_loseDst t
    refine ⟨fun hc => ?_, fun x hx => g.keeps x (h.keeps x hx), fun x hx => ?_, fun hp => g.ascending (h.ascending hp)⟩
    · exact (g.coherent (by rw [k.platform]; exact hc)).trans (h.coherent hc)
    · rcases g.within x hx with hx | hx
      · exact h.within x hx
      · rw [k.dstAddr, k.dstCap] at hx; exact Or.inr hx

theorem runCommand_growsStale {c : Instr} {body : State → RuleOutcome} {s : State}
    (hf : (body s).Fits (profile c) s.dstCap.toNat) : GrowsStale s (runCommand c body s) := by
  have key : GrowsStale s (endCommand c body s) := by
    rcases endCommand_cases c body s with ⟨-, h⟩ | ⟨e, h⟩ | ⟨e, h⟩ | ⟨r, hb, -, h⟩ | ⟨r, hb, -, h⟩ <;> rw [h]
    · obtain ⟨v, w, h | ⟨n, m, -, -, -, -, h⟩⟩ := racedEnd_cases c s <;> rw [h] <;>
        exact .of_staleWith (dstBytes_le s) rfl
    · exact .of_eq rfl
    · unfold loseResults
      cases (profile c).writesDst
      · exact .of_eq rfl
      · exact .of_staleWith (dstBytes_le s) rfl
    · rw [hb] at hf
      exact .of_staleWith hf.room rfl
    · exact .of_staleWith (dstBytes_le s) rfl
  have g := key.loseDstIf s.dstRace (endCommand_keepsControl c body s)
  exact ⟨g.1, g.2, g.3, g.4⟩

/-- The end of a command writes nothing outside its destination region (R86). -/
theorem runCommand_sameOutside {c : Instr} {body : State → RuleOutcome} {s : State}
    (hf : (body s).Fits (profile c) s.dstCap.toNat) :
    SameOutside s.mem (runCommand c body s).mem s.dstAddr.toNat s.dstCap.toNat := by
  have key : SameOutside s.mem (endCommand c body s).mem s.dstAddr.toNat s.dstCap.toNat := by
    rcases endCommand_cases c body s with ⟨-, h⟩ | ⟨e, h⟩ | ⟨e, h⟩ | ⟨r, hb, -, h⟩ | ⟨r, hb, -, h⟩ <;> rw [h]
    · obtain ⟨v, w, h | ⟨n, m, -, -, -, -, h⟩⟩ := racedEnd_cases c s <;> rw [h] <;>
        exact sameOutside_loseDst (loseRegs (profile c) v s)
    · exact SameOutside.refl _ _ _
    · exact sameOutside_loseDstIf _ (loseRegs (profile c) _ s)
    · rw [hb] at hf
      exact (Memory.sameOutside_writeRange _ _ _).mono hf.room
    · exact sameOutside_loseDst (storeResults r s)
  have k := endCommand_keepsControl c body s
  have h := sameOutside_loseDstIf s.dstRace (endCommand c body s)
  rw [k.dstAddr, k.dstCap] at h
  exact key.trans h

/-- The end of a command without a destination, and without a race, leaves memory as it is (R82, R114). -/
theorem runCommand_mem_of_noDst {c : Instr} {body : State → RuleOutcome} {s : State} (hr : s.NoRace)
    (hw : (profile c).writesDst = false) (hf : (body s).Fits (profile c) s.dstCap.toNat) :
    (runCommand c body s).mem = s.mem := by
  have key : (endCommand c body s).mem = s.mem := by
    rcases endCommand_cases c body s with ⟨hs, -⟩ | ⟨e, h⟩ | ⟨e, h⟩ | ⟨r, hb, -, h⟩ | ⟨r, hb, -, h⟩
    · exact absurd (hr.src.symm.trans hs) (by decide)
    · rw [h]; rfl
    · rw [h, loseResults, hw]; rfl
    · rw [hb] at hf
      rw [h, complete_mem, writeResults_mem, hf.out hw]; rfl
    · rw [hb] at hf
      exact absurd (hf.2.symm.trans hw) (by decide)
  rw [runCommand, hr.dst, loseDstIf_false, clearRaces_mem, key]

/-- What the end of a command does to result registers its profile does not list: nothing (R113). -/
structure KeepsUnlisted (p : Profile) (s t : State) : Prop where
  freq : p.writesFreq = false → t.freq = s.freq ∧ t.freqV = s.freqV
  table : p.writesTable = false → t.code = s.code ∧ t.tableV = s.tableV
  act : p.writesAct = false → t.digestAct = s.digestAct ∧ t.digestV = s.digestV
  exp : p.writesExp = false → t.digestExp = s.digestExp ∧ t.expV = s.expV
  bitLen : p.writesBitLen = false → t.bitLen = s.bitLen

theorem keepsUnlisted_storeResults {p : Profile} {cap : Nat} {r : Results} (h : r.Fits p cap) (s : State) :
    KeepsUnlisted p s (storeResults r s) := by
  constructor <;> intro hw
  · simp [h.freq hw]
  · simp [h.code hw]
  · simp [h.act hw]
  · simp [h.exp hw]
  · simp [h.bitLen hw]

theorem keepsUnlisted_loseRegs (b : Bool) (p : Profile) (v : Config.BitSlot → Bool) (s : State) :
    KeepsUnlisted p s (loseDstIf b (loseRegs p v s)) := by
  cases b <;> constructor <;> intro hw <;> simp [hw]

theorem runCommand_keepsUnlisted {c : Instr} {body : State → RuleOutcome} {s : State}
    (hf : (body s).Fits (profile c) s.dstCap.toNat) : KeepsUnlisted (profile c) s (runCommand c body s) := by
  have key : KeepsUnlisted (profile c) s (endCommand c body s) := by
    rcases endCommand_cases c body s with ⟨-, h⟩ | ⟨e, h⟩ | ⟨e, h⟩ | ⟨r, hb, -, h⟩ | ⟨r, hb, -, h⟩ <;> rw [h]
    · obtain ⟨v, w, h | ⟨n, m, -, -, -, -, h⟩⟩ := racedEnd_cases c s <;> rw [h] <;>
        have k := keepsUnlisted_loseRegs true (profile c) v s <;> exact ⟨k.1, k.2, k.3, k.4, k.5⟩
    · exact ⟨fun _ => ⟨rfl, rfl⟩, fun _ => ⟨rfl, rfl⟩, fun _ => ⟨rfl, rfl⟩, fun _ => ⟨rfl, rfl⟩, fun _ => rfl⟩
    · have k := keepsUnlisted_loseRegs (profile c).writesDst (profile c) (fun _ => false) s
      exact ⟨k.1, k.2, k.3, k.4, k.5⟩
    · rw [hb] at hf
      have k := keepsUnlisted_storeResults hf s
      exact ⟨k.1, k.2, k.3, k.4, k.5⟩
    · rw [hb] at hf
      have k := keepsUnlisted_storeResults hf.1 s
      exact ⟨k.1, k.2, k.3, k.4, k.5⟩
  unfold runCommand
  cases s.dstRace <;> exact ⟨key.1, key.2, key.3, key.4, key.5⟩

theorem memWf_loseDstIf (b : Bool) {s : State} (h : Memory.wf s.mem) : Memory.wf (loseDstIf b s).mem := by
  cases b
  · exact h
  · exact Memory.wf_loseRange h (dstBytes_bound s)

/-- The end of a command keeps the canonical memory (R80). -/
theorem runCommand_memWf {c : Instr} {body : State → RuleOutcome} {s : State} (hm : Memory.wf s.mem)
    (hf : (body s).Fits (profile c) s.dstCap.toNat) : Memory.wf (runCommand c body s).mem := by
  have key : Memory.wf (endCommand c body s).mem := by
    rcases endCommand_cases c body s with ⟨-, h⟩ | ⟨e, h⟩ | ⟨e, h⟩ | ⟨r, hb, hp, h⟩ | ⟨r, hb, -, h⟩ <;> rw [h]
    · obtain ⟨v, w, h | ⟨n, m, -, -, -, -, h⟩⟩ := racedEnd_cases c s <;> rw [h] <;>
        exact memWf_loseDstIf true (s := loseRegs (profile c) v s) hm
    · exact hm
    · exact memWf_loseDstIf _ (s := loseRegs (profile c) _ s) hm
    · rw [hb] at hf
      rw [complete_mem, writeResults_mem]
      rcases hw : (profile c).writesDst with _ | _
      · rw [hf.out hw]; exact hm
      · have := ((prologue_eq_none_iff c s).1 hp).2.2.2.1 hw
        have := hf.room
        exact Memory.wf_writeRange hm (by omega)
    · exact memWf_loseDstIf true (s := storeResults r s) hm
  exact memWf_loseDstIf _ key

/-- Bytes the host's caches lose: the memory keeps its canonical form (R80). -/
theorem memWf_loseBytes {xs : List Nat} {s : State} (h : Memory.wf s.mem) (hx : ∀ x ∈ xs, x < 2 ^ 32) :
    Memory.wf (loseBytes xs s).mem := by
  rw [loseBytes_mem]
  generalize s.mem = m at h
  induction xs generalizing m with
  | nil => exact h
  | cons x xs ih =>
    have := hx x List.mem_cons_self
    exact ih (fun y hy => hx y (List.mem_cons_of_mem _ hy)) _ (Memory.wf_loseRange h (by omega))

/-- Bytes the host's caches lose: every other byte reads as before (log entry 10). -/
theorem read_loseBytes {xs : List Nat} {s : State} {a : Nat} (ha : a ∉ xs) :
    Memory.read (loseBytes xs s).mem a = Memory.read s.mem a := by
  rw [loseBytes_mem]
  generalize s.mem = m
  induction xs generalizing m with
  | nil => rfl
  | cons x xs ih =>
    rw [List.mem_cons, not_or] at ha
    exact (ih ha.2 _).trans (Memory.sameOutside_loseRange _ _ _ _ a (by omega))

end Sys2Proof.Machine
end

