-- ==== Sys2Proof/Laws/Exec.lean ====
section
/-! SUPPORT. The laws of the meanings: each is one end step over its rule, and each rule keeps to its row of R113. -/

namespace Sys2Proof.Machine

/-- The rule of a command, past its start check. -/
def ruleOf : Instr → State → RuleOutcome
  | .nop => nopRule
  | .count => countRule
  | .build => buildRule
  | .encode => encodeRule
  | .decode => decodeRule
  | .digest => digestRule
  | .tblStore => tblStoreRule
  | .tblLoad => tblLoadRule
  | .compress => compressRule
  | .decompress => decompressRule

/-- Every meaning is the shared end step over its rule, so every command ends (R310, R325). -/
theorem exec_eq (i : Instr) (s : State) : exec i s = .next (runCommand i (ruleOf i) s) := by cases i <;> rfl

@[simp] theorem length_pack (b : Bits) : (pack b).length = ceil8 b.length := by simp [pack]

@[simp] theorem length_unpack (d : List Byte) (l : Nat) : (unpack d l).length = l := by simp [unpack]

namespace Sha256

theorem length_compressBlock {h : List Word} (hh : h.length = 8) (b : List Byte) : (compressBlock h b).length = 8 := by
  simp [compressBlock, Vars.toList, hh]

theorem length_hashBlocks (m : List Byte) : (hashBlocks m).length = 8 := by
  unfold hashBlocks
  generalize List.range (m.length / 64) = is
  have : ∀ h : List Word, h.length = 8 →
      (is.foldl (fun h i => compressBlock h ((m.drop (64 * i)).take 64)) h).length = 8 := by
    induction is with
    | nil => exact fun h hh => hh
    | cons i is ih => exact fun h hh => ih _ (length_compressBlock hh _)
  exact this h0 rfl

end Sha256

/-- A digest has 32 bytes (R285). -/
@[simp] theorem length_sha256 (m : List Byte) : (sha256 m).length = 32 := by
  have h := Sha256.length_hashBlocks (Sha256.pad m)
  simp [sha256, List.length_flatMap, h]

/-- The entry bytes, symbol by symbol (R233, R234). -/
theorem tableBytes_eq (t : CodeTable) : tableBytes t = symbols.flatMap fun x =>
    if codeOf t x = [] then [] else x :: BitVec.ofNat 8 (codeOf t x).length :: pack (codeOf t x) := by
  unfold tableBytes
  rw [entries_eq]
  induction symbols with
  | nil => rfl
  | cons x xs ih =>
    rw [List.map_cons, List.flatMap_cons, ← ih]
    by_cases h : codeOf t x = [] <;> simp [h, entryBytes]

/-- A container has 36 + P + (4 + T) bytes (R230). -/
theorem length_containerOf (b : List Byte) (t : CodeTable) :
    (containerOf b t).length = 36 + ceil8 (encodeBits t b).length + (serializeTable t).length := by
  simp [containerOf]
  omega

/-- A result with no destination bytes and no BIT_LEN fits any profile that lists what it holds. -/
theorem Results.fits_regs {p : Profile} {cap : Nat} {r : Results} (ho : r.out = []) (hb : r.bitLen = none)
    (he : r.digestExp = none) (hf : p.writesFreq = false → r.freq = none) (hc : p.writesTable = false → r.code = none)
    (ha : p.writesAct = false → r.digestAct = none) : r.Fits p cap :=
  ⟨by simp [ho], fun _ => ho, hf, hc, ha, fun _ => he, fun _ => hb⟩

/-- A result of destination bytes alone. -/
theorem Results.fits_out {p : Profile} {cap : Nat} {out : List Byte} (h : out.length ≤ cap) (hw : p.writesDst = true) :
    Results.Fits p cap { out := out } :=
  ⟨h, fun h => by simp [hw] at h, fun _ => rfl, fun _ => rfl, fun _ => rfl, fun _ => rfl, fun _ => rfl⟩

theorem encodeRule_fits (s : State) : (encodeRule s).Fits (profile .encode) s.dstCap.toNat := by
  simp only [encodeRule]
  split
  · trivial
  · split
    · trivial
    · split
      · trivial
      · exact ⟨by rw [length_pack]; omega, fun h => by simp [profile] at h, fun _ => rfl, fun _ => rfl, fun _ => rfl,
          fun _ => rfl, fun h => by simp [profile] at h⟩

theorem decodeRule_fits (s : State) : (decodeRule s).Fits (profile .decode) s.dstCap.toNat := by
  simp only [decodeRule]
  split
  · trivial
  · split
    · trivial
    · split
      · trivial
      · split
        · trivial
        · split
          · trivial
          · exact Results.fits_out (by omega) rfl

theorem tblStoreRule_fits (s : State) : (tblStoreRule s).Fits (profile .tblStore) s.dstCap.toNat := by
  simp only [tblStoreRule]
  split
  · trivial
  · exact Results.fits_out (by omega) rfl

theorem tblLoadRule_fits (s : State) : (tblLoadRule s).Fits (profile .tblLoad) s.dstCap.toNat := by
  simp only [tblLoadRule]
  split
  · trivial
  · split
    · trivial
    · split
      · trivial
      · split
        · trivial
        · exact Results.fits_regs rfl rfl rfl (fun _ => rfl) (fun h => by simp [profile] at h) fun _ => rfl

theorem compressRule_fits (s : State) : (compressRule s).Fits (profile .compress) s.dstCap.toNat := by
  simp only [compressRule]
  split
  · trivial
  · split
    · trivial
    · exact ⟨by rw [length_containerOf]; omega, fun h => by simp [profile] at h, fun h => by simp [profile] at h,
        fun h => by simp [profile] at h, fun h => by simp [profile] at h, fun _ => rfl, fun h => by simp [profile] at h⟩

theorem decompressBody_fits (b : List Byte) (l cap : Nat) : (decompressBody b l cap).Fits (profile .decompress) cap := by
  simp only [decompressBody]
  split
  · trivial
  · split
    · trivial
    · split
      · trivial
      · split
        · trivial
        · split
          · trivial
          · split
            · exact ⟨by simp only; omega, fun h => by simp [profile] at h, fun _ => rfl, fun h => by simp [profile] at h,
                fun h => by simp [profile] at h, fun h => by simp [profile] at h, fun h => by simp [profile] at h⟩
            · exact ⟨⟨by simp only; omega, fun h => by simp [profile] at h, fun _ => rfl, fun h => by simp [profile] at h,
                fun h => by simp [profile] at h, fun h => by simp [profile] at h, fun h => by simp [profile] at h⟩, rfl⟩

theorem decompressRule_fits (s : State) : (decompressRule s).Fits (profile .decompress) s.dstCap.toNat := by
  simp only [decompressRule]
  split
  · trivial
  · split
    · trivial
    · split
      · trivial
      · split
        · trivial
        · split
          · trivial
          · exact decompressBody_fits _ _ _

/-- A rule writes only what its command's row of R113 lists, within DST_CAP bytes (R86, R113, R114). -/
theorem ruleOf_fits (i : Instr) (s : State) : (ruleOf i s).Fits (profile i) s.dstCap.toNat := by
  cases i
  case nop => exact Results.fits_regs rfl rfl rfl (fun _ => rfl) (fun _ => rfl) fun _ => rfl
  case count => exact Results.fits_regs rfl rfl rfl (fun h => by simp [profile] at h) (fun _ => rfl) fun _ => rfl
  case build => exact Results.fits_regs rfl rfl rfl (fun _ => rfl) (fun h => by simp [profile] at h) fun _ => rfl
  case digest => exact Results.fits_regs rfl rfl rfl (fun _ => rfl) (fun _ => rfl) fun h => by simp [profile] at h
  case encode => exact encodeRule_fits s
  case decode => exact decodeRule_fits s
  case tblStore => exact tblStoreRule_fits s
  case tblLoad => exact tblLoadRule_fits s
  case compress => exact compressRule_fits s
  case decompress => exact decompressRule_fits s

end Sys2Proof.Machine
end

