-- ==== Sys2Proof/Laws/PerInstr.lean ====
section
/-! SUPPORT. The per-instruction family FieldEncoding: each command's word is its opcode under a zero RSV field
(30_encoding.md R110, R111). -/

namespace Sys2Proof.Laws.FieldEncoding

/-- The command's word is legal, and is its opcode read as a number. -/
def Statement (i : Instr) : Prop := wordLegal (encode i) = true ∧ (encode i).toNat = i.opcode.toNat ∧ i.wf = true

theorem nop : Statement .nop := by unfold Statement; decide
theorem count : Statement .count := by unfold Statement; decide
theorem build : Statement .build := by unfold Statement; decide
theorem encode : Statement .encode := by unfold Statement; decide
theorem decode : Statement .decode := by unfold Statement; decide
theorem digest : Statement .digest := by unfold Statement; decide
theorem tblStore : Statement .tblStore := by unfold Statement; decide
theorem tblLoad : Statement .tblLoad := by unfold Statement; decide
theorem compress : Statement .compress := by unfold Statement; decide
theorem decompress : Statement .decompress := by unfold Statement; decide

end Sys2Proof.Laws.FieldEncoding
end

