-- ==== Sys2Proof/Laws/Step.lean ====
section
/-! SUPPORT. The laws of a step: everything one step can do, said once. -/

namespace Sys2Proof.Machine

@[simp] theorem busy_eq_true_iff (s : State) : s.busy = true ↔ s.phase = .busy := by
  cases h : s.phase <;> simp [State.busy, h]

/-- Everything a step that goes on can do: the host's next access, the end of the command in flight, or nothing. -/
theorem step_cases {s t : State} (h : step s = .next t) :
    (∃ a u, nextTurn s = .host a u ∧ hostAccess a u = .next t) ∨
      (∃ i u, nextTurn s = .finish u ∧ decodeWord u.cmd = .ok i ∧ t = runCommand i (ruleOf i) u) ∨
      nextTurn s = .rest t := by
  unfold step at h
  split at h
  · rename_i a u hn; exact Or.inl ⟨a, u, hn, h⟩
  · rename_i u hn; cases h; exact Or.inr (Or.inr hn)
  · rename_i u hn
    split at h
    · rename_i i hf
      rw [exec_eq] at h
      cases h
      exact Or.inr (Or.inl ⟨i, u, hn, hf, rfl⟩)
    · cases h

/-- Setting the pending accesses to what they are changes nothing. -/
theorem setInputs_of_eq {s : State} {l : List Input} (h : s.inputs = l) : setInputs l s = s := by
  subst h; rfl

theorem sequencerTurn_cases (s : State) :
    (sequencerTurn s = .finish s ∧ s.phase = .busy) ∨ (sequencerTurn s = .rest s ∧ s.phase = .idle) := by
  cases hp : s.phase <;> simp [sequencerTurn, State.busy, hp]

/-- Whose turn comes next only pops the pending accesses, and a command ends only while BUSY. -/
theorem nextTurn_cases (s : State) :
    (∃ a rest, s.inputs = a :: rest ∧ nextTurn s = .host a (setInputs rest s)) ∨
      ∃ rest, (nextTurn s = .finish (setInputs rest s) ∧ s.phase = .busy) ∨
        (nextTurn s = .rest (setInputs rest s) ∧ s.phase = .idle) := by
  unfold nextTurn
  split
  · rename_i h
    refine Or.inr ⟨[], ?_⟩
    rw [setInputs_of_eq h]
    exact sequencerTurn_cases s
  · rename_i rest h; exact Or.inr ⟨rest, sequencerTurn_cases (setInputs rest s)⟩
  · rename_i a rest h1 h2; exact Or.inl ⟨a, rest, h2, rfl⟩

/-- Induction over a run: what holds at its first state and is kept by every step holds all along. -/
theorem Reaches.induct {P : State → Prop} {s t : State} (h : Reaches s t) (h0 : P s)
    (hstep : ∀ u v, P u → step u = .next v → P v) : P t := by
  induction h with
  | refl => exact h0
  | tail _ hs ih => exact hstep _ _ ih hs

end Sys2Proof.Machine
end

