-- ==== Sys2Proof/Tests/Slice0.lean ====
section
/-! SUPPORT. The model's own tests, with values from spec/95_test_vectors.md and the examples of the command rules,
and for each statement with hypotheses a state that meets them. -/

set_option Elab.async false -- one theorem at a time: many at once need more memory than the check has

namespace Sys2Proof.Tests

open Sys2Proof.Machine

/-- The reset state with `src` as source region at 0x1000 and `cap` destination bytes at 0x8000. -/
def small (src : List Byte) (cap : Word) : State :=
  { State.reset with
    mem := Memory.writeRange [] 0x1000 src, srcAddr := 0x1000, srcLen := BitVec.ofNat 32 src.length, dstAddr := 0x8000,
    dstCap := cap }

/-- A state with a code table that is valid. -/
def withTable (t : CodeTable) (s : State) : State := { s with code := t, tableV := true }

/-- A state with BIT_LEN = `l`. -/
def withBits (l : Word) (s : State) : State := { s with bitLen := l }

/-- The reset state with the counts of `src`, valid. -/
def counted (src : List Byte) : State := { State.reset with freq := countTable src, freqV := true }

/-- The reset state running the command of a word. -/
def running (w : Word) : State := { State.reset with cmd := w, phase := .busy }

/-- A state whose platform answers every access at 0x1000 to 0x100F with a bus error. -/
def faulty (s : State) : State := { s with platform := { s.platform with busFaults := [⟨0x1000, 16, true, true⟩] } }

/-- The next state of an outcome. -/
def nextOf : Host.Outcome State Fault Refusal → Option State
  | .next t => some t
  | .fault _ => none
  | .refused _ => none

/-- "aaabbc" (95_test_vectors.md). -/
def aaabbc : List Byte := [0x61, 0x61, 0x61, 0x62, 0x62, 0x63]

/-- The entries of the table of "aaabbc": a = "0", b = "11", c = "10" (R233, R240). -/
def abcEntries : List Byte := [0x61, 0x01, 0x00, 0x62, 0x02, 0xC0, 0x63, 0x02, 0x80]

/-- The table of "aaabbc". -/
def abcTable : CodeTable := tableOf [(0x61, [false]), (0x62, [true, true]), (0x63, [true, false])]

/-- The table with the two codes a = "0" and b = "1". -/
def abTable : CodeTable := tableOf [(0x61, [false]), (0x62, [true])]

/-- SHA256("aaabbc") (R285). -/
def digestAaabbc : List Byte :=
  [0x00, 0x37, 0x25, 0x0E, 0xF9, 0x35, 0x76, 0x8E, 0x23, 0x36, 0x10, 0xE9, 0xAF, 0x6D, 0x13, 0x4F,
   0x91, 0x8B, 0x82, 0x86, 0x51, 0x8B, 0xF2, 0x03, 0x99, 0x11, 0xDD, 0xB4, 0xF1, 0x08, 0xC3, 0xCF]

/-- The container of "aaabbc" with the stored digest `d` (R250). -/
def container (d : List Byte) : List Byte := [0, 0, 0, 9] ++ d ++ [0x1F, 0x00] ++ [0, 0, 0, 9] ++ abcEntries

/-! ## Well-formedness and decoding -/

/-- Reserved bits, reserved opcodes: the words of V-ILL (R112, R115). -/
theorem test_illegal_words_refused :
    wordLegal 0x00000110 = false ∧ wordLegal 0x00000008 = false ∧ wordLegal 0x0000000F = false ∧
    wordLegal 0x00000012 = false ∧ wordLegal 0x000000FF = false ∧ wordLegal 0x80000000 = false := by decide

/-- Host accesses past 2^32 - 1 (R80). -/
theorem test_ill_formed_accesses_refused :
    (Input.memWrite 0xFFFFFFFF [0, 0]).wf = false ∧ (Input.memRead 0xFFFFFFFF 2).wf = false ∧
    (Input.cacheClean 0xFFFFFFF0 17).wf = false ∧ (Input.cacheInvalidate 0 (2 ^ 32 + 1)).wf = false := by decide

/-- The last bytes of memory may be accessed (R80). -/
theorem test_top_of_memory_well_formed :
    (Input.memWrite 0xFFFFFFFF [0]).wf = true ∧ (Input.memRead 0 (2 ^ 32)).wf = true := by decide

/-- Each word of R111, bit by bit: bits 31:8 zero, then the opcode. -/
theorem test_words_of_the_opcode_table :
    decodeWord (0#24 ++ 0b00000000#8) = .ok .nop ∧
    decodeWord (0#24 ++ 0b00000001#8) = .ok .count ∧ decodeWord (0#24 ++ 0b00000010#8) = .ok .build ∧
    decodeWord (0#24 ++ 0b00000011#8) = .ok .encode ∧ decodeWord (0#24 ++ 0b00000100#8) = .ok .decode ∧
    decodeWord (0#24 ++ 0b00000101#8) = .ok .digest ∧ decodeWord (0#24 ++ 0b00000110#8) = .ok .tblStore ∧
    decodeWord (0#24 ++ 0b00000111#8) = .ok .tblLoad ∧ decodeWord (0#24 ++ 0b00010000#8) = .ok .compress ∧
    decodeWord (0#24 ++ 0b00010001#8) = .ok .decompress := by decide

/-- The table words of the host's questions decode (R111), and an illegal one does not. -/
theorem test_decodeTableWord :
    decodeTableWord 32 0x10 = some .compress ∧ decodeTableWord 32 0x00 = some .nop ∧ decodeTableWord 32 0x12 = none := by
  decide

/-! ## Commands, one step each -/

/-- NOP after reset: STATUS reads 2 and OUT_LEN 0 (R300). -/
theorem test_nop : (nextOf (exec .nop (running 0))).map (fun t => (t.status, t.outLen)) = some (0x00000002, 0) := by
  decide +kernel

/-- NOP through withFetchWord is the next step (R300, log entry 2). -/
theorem test_fetch_word_runs :
    (nextOf (step (State.reset.withFetchWord 32 0x00))).map (fun t => (t.status, t.phase)) = some (0x00000002, .idle) := by
  decide +kernel

/-- COUNT of "aaabbc" (R140). -/
theorem test_count :
    (nextOf (exec .count (small aaabbc 0))).map
      (fun t => (t.freq[0x61], t.freq[0x62], t.freq[0x63], t.freq[0x64], t.status)) = some (3, 2, 1, 0, 0x00000102) := by
  decide +kernel

/-- COUNT of a region that passes the top of memory: RANGE, bit 0 (R340). -/
theorem test_count_range :
    (nextOf (exec .count { State.reset with srcAddr := 0xFFFFFFF0, srcLen := 0x11 })).map
      (fun t => (t.error, t.errInfo, t.freqV)) = some (6, 1, false) := by decide +kernel

/-- BUILD of the counts of "aaabbc" (R158). -/
theorem test_build :
    (nextOf (exec .build (counted aaabbc))).map
      (fun t => (codeOf t.code 0x61, codeOf t.code 0x62, codeOf t.code 0x63, numSyms t.code, maxLen t.code)) =
    some ([false], [true, true], [true, false], 3, 2) := by decide +kernel

/-- BUILD with four equal counts takes leaves before internal nodes (V-B4). -/
theorem test_build_ties :
    (nextOf (exec .build (counted [0x61, 0x62, 0x63, 0x64]))).map
      (fun t => (codeOf t.code 0x61, codeOf t.code 0x62, codeOf t.code 0x63, codeOf t.code 0x64)) =
    some ([false, false], [false, true], [true, false], [true, true]) := by decide +kernel

/-- ENCODE of "cab" with the table of "aaabbc" (R185). -/
theorem test_encode :
    (nextOf (exec .encode (withTable abcTable (small [0x63, 0x61, 0x62] 16)))).map
      (fun t => (Memory.read t.mem 0x8000, t.bitLen, t.outLen)) = some (0x98, 5, 1) := by decide +kernel

/-- ENCODE of a byte with no code: UNCODED at its offset (R185). -/
theorem test_encode_uncoded :
    (nextOf (exec .encode (withTable abcTable (small [0x61, 0x7A] 16)))).map
      (fun t => (t.error, t.errInfo, t.outLen)) = some (9, 1, 0) := by decide +kernel

/-- DECODE of 9 bits of 1F 00 with the table of "aaabbc" (R208). -/
theorem test_decode :
    (nextOf (exec .decode (withBits 9 (withTable abcTable (small [0x1F, 0x00] 16))))).map
      (fun t => (Memory.readRange t.mem 0x8000 6, t.outLen)) = some (aaabbc, 6) := by decide +kernel

/-- DECODE of one bit 1 of the code "11": TRUNCATED_CODE at bit 0 (R203). -/
theorem test_decode_truncated :
    (nextOf (exec .decode (withBits 1 (withTable abcTable (small [0x80] 16))))).map
      (fun t => (t.error, t.errInfo)) = some (0x0F02, 0) := by decide +kernel

/-- DIGEST of "abc" (R286). -/
theorem test_digest :
    (nextOf (exec .digest (small [0x61, 0x62, 0x63] 0))).map (fun t => t.digestAct.toList) =
    some [0xBA7816BF, 0x8F01CFEA, 0x414140DE, 0x5DAE2223, 0xB00361A3, 0x96177A9C, 0xB410FF61, 0xF20015AD] := by
  decide +kernel

/-- SHA256 of no bytes (R285). -/
theorem test_digest_empty :
    (nextOf (exec .digest (small [] 0))).map (fun t => t.digestAct.toList) =
    some [0xE3B0C442, 0x98FC1C14, 0x9AFBF4C8, 0x996FB924, 0x27AE41E4, 0x649B934C, 0xA495991B, 0x7852B855] := by
  decide +kernel

/-- TBL_STORE of the table of "aaabbc" (R240). -/
theorem test_tblStore :
    (nextOf (exec .tblStore (withTable abcTable (small [] 16)))).map
      (fun t => (Memory.readRange t.mem 0x8000 13, t.outLen)) =
    some ([0x00, 0x00, 0x00, 0x09, 0x61, 0x01, 0x00, 0x62, 0x02, 0xC0, 0x63, 0x02, 0x80], 13) := by decide +kernel

/-- TBL_LOAD of the table of "aaabbc" (R245). -/
theorem test_tblLoad :
    (nextOf (exec .tblLoad (small ([0, 0, 0, 9] ++ abcEntries) 0))).map
      (fun t => (codeOf t.code 0x61, codeOf t.code 0x62, codeOf t.code 0x63, numSyms t.code, maxLen t.code)) =
    some ([false], [true, true], [true, false], 3, 2) := by decide +kernel

/-- TBL_LOAD of the one code "1": INCOMPLETE_CODE (R245). -/
theorem test_tblLoad_incomplete :
    (nextOf (exec .tblLoad (small [0x00, 0x00, 0x00, 0x03, 0x41, 0x01, 0x80] 0))).map
      (fun t => (t.error, t.errInfo, t.tableV)) = some (0x0B02, 4, false) := by decide +kernel

/-- COMPRESS of "aaabbc" (R250). -/
theorem test_compress :
    (nextOf (exec .compress (small aaabbc 64))).map (fun t => (Memory.readRange t.mem 0x8000 51, t.outLen, t.bitLen)) =
    some (container digestAaabbc, 51, 9) := by decide +kernel

/-- COMPRESS into one byte less than it needs: CAPACITY with 51 (R250). -/
theorem test_compress_capacity :
    (nextOf (exec .compress (small aaabbc 50))).map (fun t => (t.error, t.errInfo, t.tableV)) = some (5, 51, false) := by
  decide +kernel

/-- DECOMPRESS of the container of "aaabbc" (R260). -/
theorem test_decompress :
    (nextOf (exec .decompress (small (container digestAaabbc) 16))).map
      (fun t => (Memory.readRange t.mem 0x8000 6, t.outLen, t.bitLen)) = some (aaabbc, 6, 9) := by decide +kernel

/-- DECOMPRESS of that container with another digest: INTEGRITY, which keeps the table (R323). -/
theorem test_decompress_integrity :
    (nextOf (exec .decompress (small (container (List.replicate 32 0xAA)) 16))).map
      (fun t => (t.error, t.errInfo, t.tableV, t.expV, t.outLen)) = some (3, 0, true, true, 0) := by decide +kernel

/-! ## Host steps -/

/-- A read of ID at the reset platform's window base (R32). -/
theorem test_read_id :
    (nextOf (step { State.reset with inputs := [.regRead 0 4] })).map (·.port) = some (.word 0x48554646) := by decide

/-- A CMD write while BUSY sets OVR (R47). -/
theorem test_overrun :
    (nextOf (step { running 0x10 with inputs := [.regWrite 0x000C 4 0x10] })).map (fun t => (t.ovr, t.phase)) =
    some (true, .busy) := by decide

/-- A halfword access gets the error response (R88). -/
theorem test_halfword_access :
    (nextOf (step { State.reset with inputs := [.regRead 0x0002 2] })).map (·.port) = some (.error .busFault) := by decide

/-- The same state on a platform whose memory port is not coherent (R97). -/
def nonCoherent (s : State) : State := { s with platform := { s.platform with coherentDma := false } }

/-- A command that stores 13 bytes leaves exactly those for the host to invalidate (R97, log entry 10). -/
theorem test_stale_after_success :
    (nextOf (exec .tblStore (nonCoherent (withTable abcTable (small [] 16))))).map (·.stale) =
    some (List.range' 0x8000 13) := by decide +kernel

/-- An early error wrote nothing, so the host's caches may show every byte (R97, R321). -/
theorem test_stale_after_early_error :
    (nextOf (exec .encode (nonCoherent (small aaabbc 16)))).map (fun t => (t.error, t.stale)) = some (0x0004, []) := by
  decide +kernel

/-- A host write to the source region of a running BUILD is a race (R93 item 3). -/
theorem test_race_on_the_source_of_build :
    (nextOf (step { running 0x02 with srcAddr := 0x1000, srcLen := 4, inputs := [.memWrite 0x1003 [1]] })).map
      (fun t => (t.srcRace, t.dstRace)) = some (true, false) := by decide +kernel

/-- A host write past the top of memory faults (R80, log entry 14). -/
theorem test_host_write_past_top :
    hostAccess (.memWrite 0xFFFFFFFF [1, 2]) State.reset = .fault .noSuchByte := rfl

/-! ## Witnesses: for each statement, a state that meets its hypotheses -/

/-- The commands that run as `exec` says answer this next state. -/
theorem exec_next (i : Instr) (s : State) : exec i s = .next (runCommand i (ruleOf i) s) := exec_eq i s

/-- The platform of the reset state completes every access. -/
theorem busOk_of_noFaults {s : State} (h : s.platform = Platform.atReset) (a : Nat) (k : Access) :
    busOk s.platform a k = true := by
  rw [h]; rfl

theorem noRace_small (src : List Byte) (cap : Word) : (small src cap).NoRace := ⟨rfl, rfl⟩

/-- Both duties kept, every access answered, both regions legal and apart. -/
theorem regions_of {s : State} (h : s.platform = Platform.atReset) (hs : s.srcAddr.toNat + s.srcLen.toNat ≤ 2 ^ 32)
    (hd : s.dstAddr.toNat + s.dstCap.toNat ≤ 2 ^ 32) (hx : s.srcAddr.toNat + s.srcLen.toNat ≤ s.dstAddr.toNat)
    (hr : s.srcRace = false ∧ s.dstRace = false) : s.NoRace ∧ s.SrcReady ∧ s.Disjoint ∧ ∀ n, s.DstReady n :=
  ⟨⟨hr.1, hr.2⟩, ⟨hs, fun a _ _ => busOk_of_noFaults h a .read⟩, Or.inr (Or.inr (Or.inr hx)),
    fun _ => ⟨hd, fun a _ _ => busOk_of_noFaults h a .write⟩⟩

theorem witness_LegalWordsDecodeUniquely : ∃ (w : Word) (i : Instr), decodeWord w = .ok i := ⟨0x10, .compress, rfl⟩

theorem witness_StepEndsCommandInFlight :
    ∃ s u : State, s.phase = .busy ∧ decodeWord s.cmd = .ok .compress ∧ s.inputs = [] ∧
      u.phase = .busy ∧ decodeWord u.cmd = .ok .compress ∧ u.inputs = [.sequencer] :=
  ⟨running 0x10, { running 0x10 with inputs := [.sequencer] }, rfl, rfl, rfl, rfl, rfl, rfl⟩

theorem witness_StepMakesHostAccess :
    ∃ s u : State, s.inputs = [.hardReset] ∧ Input.hardReset ≠ .sequencer ∧ u.phase = .idle ∧ u.inputs = [] :=
  ⟨{ running 0x10 with inputs := [.hardReset] }, State.reset, rfl, by decide, rfl, rfl⟩

theorem witness_StepAfterFetchWordRunsIt : decodeTableWord 32 0x11 = some .decompress := rfl

theorem witness_LegalWordStartsCommand :
    ∃ s : State, s.phase = .idle ∧ decodeWord 0x01 = .ok .count ∧ s.platform.coherentDma = false ∧
      ∃ x ∈ s.dirty, s.srcAddr.toNat ≤ x ∧ x < s.srcAddr.toNat + s.srcLen.toNat :=
  ⟨nonCoherent { State.reset with srcAddr := 0x1000, srcLen := 4, dirty := [0x1003] }, rfl, rfl, rfl, 0x1003, by decide⟩

theorem witness_IllegalWordRejected : ∃ s : State, s.phase = .idle ∧ ∀ i, decodeWord 0x110 ≠ .ok i :=
  ⟨State.reset, rfl, fun i => by cases i <;> decide⟩

theorem witness_WritesWhileBusy :
    ∃ (s : State) (v v' : Word), s.phase = .busy ∧ v.getLsbD 31 = false ∧ v'.getLsbD 31 = true :=
  ⟨running 0x10, 0x7FFFFFFF, 0x80000000, rfl, by decide, by decide⟩

theorem witness_OperandWritesWhileIdle :
    (∃ s : State, s.phase = .idle) ∧ ∀ off ∈ [0x0000, 0x0014, 0x001C, 0x0030, 0x0040, 0x0080, 0x0400, 0x1FFC, 0x3FFC],
      off < 2 ^ 14 ∧ off % 4 = 0 ∧ off ∉ [0x0008, 0x000C, 0x0010, 0x0020, 0x0024, 0x0028, 0x002C, 0x0034] :=
  ⟨⟨State.reset, rfl⟩, by decide⟩

theorem witness_CtrlWrite :
    ∃ v v' w : Word, v.getLsbD 31 = true ∧ v'.getLsbD 31 = true ∧ v ≠ v' ∧ w.getLsbD 31 = false :=
  ⟨0x80000000, 0xFFFFFFFF, 0x7FFFFFFF, by decide, by decide, by decide, by decide⟩

/-- Idle, running a command that writes no destination, and running one that does. -/
theorem witness_ResetsRestoreTheResetState :
    ∃ (s u : State) (v : Word), v.getLsbD 31 = true ∧ s.phase = .idle ∧ u.phase = .busy ∧
      ∀ i, decodeWord u.cmd = .ok i → (profile i).writesDst = false :=
  ⟨State.reset, running 0x01, 0x80000000, by decide, rfl, rfl, fun i h => by
    have h : Except.ok Instr.count = Except.ok i := h
    cases h; rfl⟩

theorem witness_IllegalPortAccessChangesNothing :
    ∃ (s : State) (a b : Word), (2 ≠ 4 ∨ a.toNat % 4 ≠ 0 ∨ a.toNat / 2 ^ 14 ≠ s.platform.huffBase.toNat) ∧
      a.toNat % 4 ≠ 0 ∧ b.toNat % 4 = 0 ∧ b.toNat / 2 ^ 14 ≠ s.platform.huffBase.toNat :=
  ⟨State.reset, 0x0002, 0x4000, by decide, by decide, by decide, by decide⟩

/-- The reset state running COUNT meets the invariant. -/
theorem inv_running : (running 0x01).Inv where
  memWf := ⟨List.Pairwise.nil, fun c h => by cases h⟩
  codeShort := by decide +kernel
  dirtyAscending := List.Pairwise.nil
  dirtyExists := fun a h => by cases h
  staleAscending := List.Pairwise.nil
  oneOutcome := by decide
  busyDecodes := fun _ => ⟨.count, rfl⟩
  busyFresh := by decide
  codeBound := by decide
  subBound := by decide
  subOnlyFormat := by decide
  infoOnlyError := by decide

theorem witness_ReadsWhileBusy :
    ∃ (s : State) (off : Nat), s.Inv ∧ s.phase = .busy ∧ off < 2 ^ 14 ∧ off % 4 = 0 :=
  ⟨running 0x01, 0x3FFC, inv_running, rfl, by decide, by decide⟩

theorem witness_TableWindowsReadTheTables :
    (∃ (s : State) (w j : Nat), s.phase = .idle ∧ (∀ x, (codeOf s.code x).length ≤ 255) ∧ w < 8 ∧ j < 32) ∧
    ∀ off ∈ [0x001C, 0x0080, 0x03FC, 0x0C00, 0x1FFC],
      off % 4 = 0 ∧ (off = 0x001C ∨ 0x0080 ≤ off ∧ off < 0x0400 ∨ 0x0C00 ≤ off ∧ off < 0x2000) :=
  ⟨⟨State.reset, 7, 31, rfl, fun x => by simp [codeOf, State.reset], by decide, by decide⟩, by decide⟩

theorem witness_HostReadsBackItsWrite :
    ∃ (s : State) (a : Word) (bs : List Byte), s.phase = .idle ∧ a.toNat + bs.length ≤ 2 ^ 32 :=
  ⟨State.reset, 0xFFFFFFFE, [1, 0], rfl, by decide⟩

/-- A write of two bytes across the edge of both regions while BUILD, which uses neither, runs: it meets each in one
byte. -/
theorem witness_RacedDestinationLosesOnlyItsBytes :
    ∃ (s : State) (a : Word) (bs : List Byte), a.toNat + bs.length ≤ 2 ^ 32 ∧ s.phase = .busy ∧
      decodeWord s.cmd = .ok .build ∧
      (∃ x, (a.toNat ≤ x ∧ x < a.toNat + bs.length) ∧ s.srcAddr.toNat ≤ x ∧ x < s.srcAddr.toNat + s.srcLen.toNat) ∧
      ∃ x, (a.toNat ≤ x ∧ x < a.toNat + bs.length) ∧ s.dstAddr.toNat ≤ x ∧ x < s.dstAddr.toNat + s.dstCap.toNat :=
  ⟨{ running 0x02 with srcAddr := 0x1000, srcLen := 16, dstAddr := 0x1010, dstCap := 16 }, 0x100F, [1, 2], by decide, rfl,
    rfl, ⟨0x100F, by decide⟩, 0x1010, by decide⟩

theorem witness_WaitSeesTheCommandEnd :
    ∃ s : State, s.phase = .busy ∧ decodeWord s.cmd = .ok .count ∧
      s.inputs = [.poll (s.regAddr 0x0010) 0x00000001 0x00000000] :=
  ⟨{ running 0x01 with inputs := stmtWait Platform.atReset }, rfl, rfl, rfl⟩

theorem witness_EveryCommandEnds : ∃ s : State, s.done = false ∧ s.err = false := ⟨State.reset, rfl, rfl⟩

/-- A command of each kind of frame answers a next state, also one whose source and destination the host raced. -/
theorem witness_frames :
    (∃ s t : State, s.NoRace ∧ exec .nop s = .next t) ∧ (∃ s t : State, exec .compress s = .next t) ∧
    (∃ s t : State, s.srcRace = true ∧ s.dstRace = true ∧ exec .build s = .next t) ∧
    Instr.nop ∈ [Instr.nop, .count, .build, .digest, .tblLoad] ∧ Instr.nop ∉ [Instr.count, .compress] ∧
    Instr.nop ∉ [Instr.build, .tblLoad, .compress, .decompress] :=
  ⟨⟨State.reset, _, ⟨rfl, rfl⟩, exec_next _ _⟩, ⟨small aaabbc 64, _, exec_next _ _⟩,
    ⟨{ State.reset with srcRace := true, dstRace := true }, _, rfl, rfl, exec_next _ _⟩, by decide, by decide, by decide⟩

theorem witness_NopCompletes : ∃ s : State, s.NoRace ∧ s.phase = .busy := ⟨running 0x00, ⟨rfl, rfl⟩, rfl⟩

theorem witness_CompletionWritesOutLenBytes :
    ∃ s t : State, s.NoRace ∧ s.done = false ∧ exec .compress s = .next t ∧ t.done = true ∧ t.outLen = 51 :=
  ⟨small aaabbc 64, _, noRace_small _ _, rfl, exec_next _ _, by decide +kernel⟩

/-- The flags missing, an error of a command that needs no flag, and one of ENCODE with its flag set and the other not. -/
theorem witness_NotReadyWithoutTheFlag :
    (∃ s u t : State, s.NoRace ∧ s.freqV = false ∧ s.tableV = false ∧ u.NoRace ∧ u.err = false ∧
      exec .compress u = .next t ∧ t.err = true) ∧
    ∃ s t : State, s.NoRace ∧ s.tableV = true ∧ s.freqV = false ∧ s.err = false ∧ exec .encode s = .next t ∧
      t.err = true :=
  ⟨⟨State.reset, small aaabbc 50, _, ⟨rfl, rfl⟩, rfl, rfl, noRace_small _ _, rfl, exec_next _ _, by decide +kernel⟩,
    withTable abcTable (small [0x61, 0x7A] 16), _, ⟨rfl, rfl⟩, rfl, rfl, rfl, exec_next _ _, by decide +kernel⟩

/-- COMPRESS with a source and a destination that wrap and overlap: the three bits at once, r = 7. -/
theorem witness_RangeOfIllegalRegions_all :
    ∃ (s : State) (r : Nat), s.NoRace ∧ r ≠ 0 ∧
      ∃ b0 b1 b2 : Bool, r = b0.toNat + 2 * b1.toNat + 4 * b2.toNat ∧
        (b0 = true ↔ True ∧ 2 ^ 32 < s.srcAddr.toNat + s.srcLen.toNat) ∧
        (b1 = true ↔ True ∧ 2 ^ 32 < s.dstAddr.toNat + s.dstCap.toNat) ∧
        (b2 = true ↔ True ∧ True ∧ 0 < s.srcLen.toNat ∧ 0 < s.dstCap.toNat ∧
          s.srcAddr.toNat < s.dstAddr.toNat + s.dstCap.toNat ∧ s.dstAddr.toNat < s.srcAddr.toNat + s.srcLen.toNat) :=
  ⟨{ State.reset with srcAddr := 0xFFFFFFFF, srcLen := 2, dstAddr := 0xFFFFFFFE, dstCap := 3 }, 7, ⟨rfl, rfl⟩, by decide,
    true, true, true, by decide, by decide, by decide, by decide⟩

/-- COMPRESS with regions that touch and end at the top of memory: legal, r = 0, and another error follows. -/
theorem witness_RangeOfIllegalRegions_none :
    ∃ (s t : State) (r : Nat), s.NoRace ∧ r = 0 ∧ s.err = false ∧ exec .compress s = .next t ∧ t.err = true ∧
      ∃ b0 b1 b2 : Bool, r = b0.toNat + 2 * b1.toNat + 4 * b2.toNat ∧
        (b0 = true ↔ True ∧ 2 ^ 32 < s.srcAddr.toNat + s.srcLen.toNat) ∧
        (b1 = true ↔ True ∧ 2 ^ 32 < s.dstAddr.toNat + s.dstCap.toNat) ∧
        (b2 = true ↔ True ∧ True ∧ 0 < s.srcLen.toNat ∧ 0 < s.dstCap.toNat ∧
          s.srcAddr.toNat < s.dstAddr.toNat + s.dstCap.toNat ∧ s.dstAddr.toNat < s.srcAddr.toNat + s.srcLen.toNat) :=
  ⟨{ State.reset with srcAddr := 0xFFFFFFFC, srcLen := 2, dstAddr := 0xFFFFFFFE, dstCap := 2 }, _, 0, ⟨rfl, rfl⟩, rfl, rfl,
    exec_next _ _, by decide +kernel, false, false, false, by decide, by decide, by decide, by decide⟩

/-- A late error that is neither INTEGRITY nor early. -/
theorem witness_LateErrorsClearFlags :
    ∃ s t : State, s.NoRace ∧ s.err = false ∧ exec .compress s = .next t ∧ t.err = true ∧ t.errCode ≠ 3 ∧
      t.errCode ≠ 4 ∧ t.errCode ≠ 6 :=
  ⟨small aaabbc 50, _, noRace_small _ _, rfl, exec_next _ _, by decide +kernel⟩

theorem witness_BusErrorNamesAFailingAddress :
    ∃ s t : State, s.NoRace ∧ s.err = false ∧ exec .count s = .next t ∧ t.err = true ∧ t.errCode = 7 :=
  ⟨faulty (small aaabbc 0), _, ⟨rfl, rfl⟩, rfl, exec_next _ _, by decide +kernel⟩

theorem witness_UnreadableSourceIsBusError :
    ∃ s : State, s.NoRace ∧ s.srcAddr.toNat + s.srcLen.toNat ≤ 2 ^ 32 ∧
      ∃ a, s.srcAddr.toNat ≤ a ∧ a < s.srcAddr.toNat + s.srcLen.toNat ∧ busOk s.platform a .read = false :=
  ⟨faulty (small aaabbc 0), ⟨rfl, rfl⟩, by decide +kernel, 0x1000, by decide +kernel⟩

/-- TBL_STORE whose last byte written does not write, and whose last byte written is the last that does. -/
theorem witness_UnreadableSourceIsBusError_dst :
    let s := fun n : Nat => { withTable abcTable (small [] 16) with
      platform := { Platform.atReset with busFaults := [⟨0x8000 + n, 1, false, true⟩] } }
    ∀ n ∈ [12, 13], (s n).NoRace ∧ (s n).done = false ∧
      ∃ t, exec .tblStore { s n with platform := { (s n).platform with busFaults := [] } } = .next t ∧ t.done = true ∧
        t.outLen = 13 ∧ busOk (s n).platform (0x8000 + n) .write = false := by
  intro s n hn
  simp only [List.mem_cons, List.not_mem_nil, or_false] at hn
  rcases hn with rfl | rfl <;>
    exact ⟨⟨rfl, rfl⟩, rfl, _, exec_next _ _, by decide +kernel, by decide +kernel, by decide +kernel⟩

theorem witness_CountCompletes : (small aaabbc 0).NoRace ∧ (small aaabbc 0).SrcReady :=
  have h := regions_of (s := small aaabbc 0) rfl (by decide) (by decide) (by decide) ⟨rfl, rfl⟩
  ⟨h.1, h.2.1⟩

theorem witness_BuildCompletes :
    ∃ s t : State, s.NoRace ∧ s.freqV = true ∧ exec .build s = .next t :=
  ⟨counted aaabbc, _, ⟨rfl, rfl⟩, rfl, exec_next _ _⟩

/-- Counts of 0x61, 0x62 and 0x63, and none else. -/
def countsOf (x y z : Nat) : Byte → Nat := fun s => if s = 0x61 then x else if s = 0x62 then y else if s = 0x63 then z else 0

/-- FREQ of such counts, valid. -/
def countedAs (x y z : Nat) : State :=
  { State.reset with freq := tabulate 256 fun i => BitVec.ofNat 32 (countsOf x y z (BitVec.ofNat 8 i)), freqV := true }

theorem freq_countedAs {x y z : Nat} (hx : x < 2 ^ 32) (hy : y < 2 ^ 32) (hz : z < 2 ^ 32) (s : Byte) :
    countsOf x y z s = ((countedAs x y z).freq[s.toNat]'s.isLt).toNat := by
  simp only [countedAs, getElem_tabulate, BitVec.ofNat_toNat, BitVec.toNat_ofNat, BitVec.setWidth_eq]
  rw [Nat.mod_eq_of_lt]
  simp only [countsOf]
  split <;> try split <;> try split <;> omega
  all_goals omega

/-- No count, one, two with equal counts, three with a tie at the second merge, and three with none. -/
theorem witness_BuildOfNoneOrOneSymbol :
    (∀ c ∈ [(0, 0, 0), (1, 0, 0), (5, 5, 0), (1, 2, 3), (1, 2, 4)], (countedAs c.1 c.2.1 c.2.2).NoRace ∧
      (countedAs c.1 c.2.1 c.2.2).freqV = true ∧ (∃ t, exec .build (countedAs c.1 c.2.1 c.2.2) = .next t) ∧
      ∀ s : Byte, countsOf c.1 c.2.1 c.2.2 s = ((countedAs c.1 c.2.1 c.2.2).freq[s.toNat]'s.isLt).toNat) ∧
    (∀ y, countsOf 0 0 0 y = 0) ∧
    (countsOf 1 0 0 0x61 ≠ 0 ∧ ∀ y, y ≠ 0x61 → countsOf 1 0 0 y = 0) ∧
    (countsOf 5 5 0 0x61 ≠ 0 ∧ countsOf 5 5 0 0x61 = countsOf 5 5 0 0x62 ∧ (0x61 : Byte).toNat < (0x62 : Byte).toNat ∧
      ∀ w, w ≠ 0x61 → w ≠ 0x62 → countsOf 5 5 0 w = 0) ∧
    (countsOf 1 2 3 0x61 < countsOf 1 2 3 0x62 ∧ countsOf 1 2 3 0x62 < countsOf 1 2 3 0x63 ∧
      countsOf 1 2 3 0x63 = countsOf 1 2 3 0x61 + countsOf 1 2 3 0x62 ∧
      ∀ w, w ≠ 0x61 → w ≠ 0x62 → w ≠ 0x63 → countsOf 1 2 3 w = 0) ∧
    countsOf 1 2 4 0x61 < countsOf 1 2 4 0x62 ∧ countsOf 1 2 4 0x61 + countsOf 1 2 4 0x62 < countsOf 1 2 4 0x63 := by
  refine ⟨fun c hc => ?_, by decide +kernel, by decide +kernel, by decide +kernel, by decide +kernel, by decide⟩
  simp only [List.mem_cons, List.not_mem_nil, or_false] at hc
  rcases hc with rfl | rfl | rfl | rfl | rfl <;>
    exact ⟨⟨rfl, rfl⟩, rfl, ⟨_, exec_next _ _⟩, freq_countedAs (by decide) (by decide) (by decide)⟩

/-- ENCODE of "cab" into exactly one byte. -/
theorem witness_EncodeCompletes :
    ∃ (s : State) (bits : Bits), s.NoRace ∧ s.tableV = true ∧ s.SrcReady ∧ s.Disjoint ∧
      bits = (srcBytes s).flatMap (codeOf s.code) ∧ (∀ x ∈ srcBytes s, codeOf s.code x ≠ []) ∧
      bits.length ≤ 2 ^ 32 - 1 ∧ s.DstReady (ceil8 bits.length) ∧ ceil8 bits.length ≤ s.dstCap.toNat :=
  have h := regions_of (s := withTable abcTable (small [0x63, 0x61, 0x62] 1)) rfl (by decide) (by decide) (by decide)
    ⟨rfl, rfl⟩
  ⟨_, [true, false, false, true, true], h.1, rfl, h.2.1, h.2.2.1, by decide +kernel, by decide +kernel, by decide,
    h.2.2.2 _, by decide +kernel⟩

/-- UNCODED at offset 1, and CAPACITY of one byte into none. -/
theorem witness_EncodeErrors :
    (∃ s : State, s.NoRace ∧ s.tableV = true ∧ s.SrcReady ∧ s.Disjoint ∧ s.DstReady s.dstCap.toNat ∧ s.err = false ∧
      (srcBytes s)[1]? = some 0x7A ∧ codeOf s.code 0x7A = [] ∧
      ∀ j y, j < 1 → (srcBytes s)[j]? = some y → codeOf s.code y ≠ []) ∧
    ∃ s : State, s.NoRace ∧ s.tableV = true ∧ s.SrcReady ∧ s.Disjoint ∧ s.DstReady s.dstCap.toNat ∧ s.err = false ∧
      (∀ x ∈ srcBytes s, codeOf s.code x ≠ []) ∧ ((srcBytes s).flatMap (codeOf s.code)).length ≤ 2 ^ 32 - 1 ∧
      s.dstCap.toNat < ceil8 ((srcBytes s).flatMap (codeOf s.code)).length := by
  have h := regions_of (s := withTable abcTable (small [0x61, 0x7A] 1)) rfl (by decide) (by decide) (by decide) ⟨rfl, rfl⟩
  have k := regions_of (s := withTable abcTable (small [0x61] 0)) rfl (by decide) (by decide) (by decide) ⟨rfl, rfl⟩
  refine ⟨⟨_, h.1, rfl, h.2.1, h.2.2.1, h.2.2.2 _, rfl, by decide +kernel, by decide +kernel, fun j y hj hy => ?_⟩,
    _, k.1, rfl, k.2.1, k.2.2.1, k.2.2.2 _, rfl, by decide +kernel, by decide +kernel, by decide +kernel⟩
  obtain rfl : j = 0 := by omega
  have hs : (srcBytes (withTable abcTable (small [0x61, 0x7A] 1)))[0]? = some 0x61 := by decide +kernel
  rw [hs] at hy
  cases hy
  decide +kernel

/-- TOO_LONG: 16843010 zero bytes, each with a code of 255 bits. -/
theorem witness_EncodeErrors_tooLong :
    ∃ s : State, s.NoRace ∧ s.tableV = true ∧ s.SrcReady ∧ s.Disjoint ∧ s.DstReady s.dstCap.toNat ∧ s.err = false ∧
      (∀ x ∈ srcBytes s, codeOf s.code x ≠ []) ∧ 2 ^ 32 - 1 < ((srcBytes s).flatMap (codeOf s.code)).length := by
  let s : State :=
    { State.reset with
      code := tableOf [(0, List.replicate 255 false)], tableV := true, srcLen := 16843010, dstAddr := 0x80000000 }
  have h := regions_of (s := s) rfl (by decide) (by decide) (by decide) ⟨rfl, rfl⟩
  have hc : codeOf s.code 0 = List.replicate 255 false := by decide +kernel
  have hb : srcBytes s = List.replicate 16843010 (0 : Byte) := by
    have : srcBytes s = (List.range 16843010).map fun _ => (0 : Byte) := rfl
    rw [this, List.map_const', List.length_range]
  refine ⟨s, h.1, rfl, h.2.1, h.2.2.1, h.2.2.2 _, rfl, fun x hx => ?_, ?_⟩
  · rw [hb] at hx
    rw [List.eq_of_mem_replicate hx, hc]
    exact fun h => absurd (congrArg List.length h) (by rw [List.length_replicate]; decide)
  · rw [hb, List.length_flatMap, List.map_replicate, hc, List.sum_replicate, List.length_replicate]
    decide

theorem witness_DecodeCompletes :
    ∃ (s : State) (out : List Byte), s.NoRace ∧ s.tableV = true ∧ s.SrcReady ∧ s.Disjoint ∧
      s.srcLen.toNat = ceil8 s.bitLen.toNat ∧ padOk (srcBytes s) s.bitLen.toNat = true ∧
      decodeBits s.code (unpack (srcBytes s) s.bitLen.toNat) = .ok out ∧ s.DstReady out.length ∧
      out.length ≤ s.dstCap.toNat :=
  have h := regions_of (s := withBits 9 (withTable abcTable (small [0x1F, 0x00] 6))) rfl (by decide) (by decide)
    (by decide) ⟨rfl, rfl⟩
  ⟨_, aaabbc, h.1, rfl, h.2.1, h.2.2.1, by decide +kernel, by decide +kernel, by rfl, h.2.2.2 _,
    by decide +kernel⟩

/-- The table a = "0", b = "1" has these two codes. -/
theorem code_ab (x : Byte) : codeOf abTable x = [] ∨ x = 0x61 ∧ codeOf abTable x = [false] ∨
    x = 0x62 ∧ codeOf abTable x = [true] := by
  by_cases h : codeOf abTable x = []
  · exact Or.inl h
  · have he : entries abTable = [(0x61, [false]), (0x62, [true])] := by decide +kernel
    have hm := (mem_entries abTable (x, codeOf abTable x)).2 ⟨rfl, h⟩
    rw [he] at hm
    simpa using Or.inr hm

/-- The table a = "0", b = "1" meets R53. -/
theorem tableOk_ab : TableOk abTable where
  prefixFree := by
    intro x y hxy hx hy
    rcases code_ab x with h | ⟨rfl, h⟩ | ⟨rfl, h⟩ <;> rcases code_ab y with k | ⟨rfl, k⟩ | ⟨rfl, k⟩ <;>
      first | exact absurd h hx | exact absurd k hy | exact absurd rfl hxy | rw [h, k]; rfl
  single := by
    have h : (entries abTable).length = 2 := by decide +kernel
    intro e he
    rw [he] at h
    cases h
  complete := by decide +kernel

theorem witness_DecodeRecoversEncodedBytes :
    ∃ (s : State) (b : List Byte), s.NoRace ∧ s.tableV = true ∧ TableOk s.code ∧ s.SrcReady ∧ s.Disjoint ∧
      (∀ x ∈ b, codeOf s.code x ≠ []) ∧ s.bitLen.toNat = (b.flatMap (codeOf s.code)).length ∧
      srcBytes s = pack (b.flatMap (codeOf s.code)) ∧ s.DstReady b.length ∧ b.length ≤ s.dstCap.toNat :=
  have h := regions_of (s := withBits 3 (withTable abTable (small [0x60] 3))) rfl (by decide) (by decide) (by decide)
    ⟨rfl, rfl⟩
  ⟨_, [0x61, 0x62, 0x62], h.1, rfl, tableOk_ab, h.2.1, h.2.2.1, by decide +kernel, by decide +kernel, by decide +kernel,
    h.2.2.2 _, by decide +kernel⟩

/-- The table of one code, a = "0". -/
def aTable : CodeTable := tableOf [(0x61, [false])]

theorem code_a (x : Byte) : codeOf aTable x = [] ∨ x = 0x61 ∧ codeOf aTable x = [false] := by
  by_cases h : codeOf aTable x = []
  · exact Or.inl h
  · have he : entries aTable = [(0x61, [false])] := by decide +kernel
    have hm := (mem_entries aTable (x, codeOf aTable x)).2 ⟨rfl, h⟩
    rw [he] at hm
    simpa using Or.inr hm

theorem tableOk_a : TableOk aTable where
  prefixFree := by
    intro x y hxy hx hy
    rcases code_a x with h | ⟨rfl, h⟩ <;> rcases code_a y with k | ⟨rfl, k⟩ <;>
      first | exact absurd h hx | exact absurd k hy | exact absurd rfl hxy
  single := by
    have he : entries aTable = [(0x61, [false])] := by decide +kernel
    intro e h
    rw [he] at h
    cases h
    rfl
  complete := by decide +kernel

/-- The table of "aaabbc" has its three codes. -/
theorem code_abc (x : Byte) : codeOf abcTable x = [] ∨ x = 0x61 ∧ codeOf abcTable x = [false] ∨
    x = 0x62 ∧ codeOf abcTable x = [true, true] ∨ x = 0x63 ∧ codeOf abcTable x = [true, false] := by
  by_cases h : codeOf abcTable x = []
  · exact Or.inl h
  · have he : entries abcTable = [(0x61, [false]), (0x62, [true, true]), (0x63, [true, false])] := by decide +kernel
    have hm := (mem_entries abcTable (x, codeOf abcTable x)).2 ⟨rfl, h⟩
    rw [he] at hm
    simpa using Or.inr hm

theorem tableOk_abc : TableOk abcTable where
  prefixFree := by
    intro x y hxy hx hy
    rcases code_abc x with h | ⟨rfl, h⟩ | ⟨rfl, h⟩ | ⟨rfl, h⟩ <;>
      rcases code_abc y with k | ⟨rfl, k⟩ | ⟨rfl, k⟩ | ⟨rfl, k⟩ <;>
      first | exact absurd h hx | exact absurd k hy | exact absurd rfl hxy | rw [h, k]; rfl
  single := by
    have h : (entries abcTable).length = 3 := by decide +kernel
    intro e he
    rw [he] at h
    cases h
  complete := by decide +kernel

/-- Seven bits 0, then a bit 1. -/
def sevenThenOne : Bits := [false, false, false, false, false, false, false, true]

/-- With the one code "0", the bit 1 at index 7 leaves every code. -/
theorem leaves_a : LeavesCodes aTable sevenThenOne 7 :=
  have hc : codeOf aTable 0x61 = [false] := by decide +kernel
  ⟨List.replicate 7 0x61, [], true, [], by decide +kernel,
    fun y hy => by rw [List.eq_of_mem_replicate hy, hc]; decide, Or.inl rfl,
    fun y => by rcases code_a y with h | ⟨-, h⟩ <;> rw [h] <;> decide, by decide +kernel⟩

/-- With the table of "aaabbc", the bit 1 at index 7 is left over. -/
theorem ends_abc : EndsInCode abcTable sevenThenOne 7 :=
  have hc : codeOf abcTable 0x61 = [false] := by decide +kernel
  ⟨List.replicate 7 0x61, [true], by decide +kernel, fun y hy => by rw [List.eq_of_mem_replicate hy, hc]; decide, by decide,
    ⟨0x62, [true], by decide, by decide +kernel⟩, by decide +kernel⟩

/-- One byte too few, one too many, and a last pad bit of 1; whole bytes that leave every code, end inside one, and
decode to one symbol more than fits. -/
theorem witness_DecodeLengthAndPadErrors :
    let s := fun (t : CodeTable) (l : Word) (b : List Byte) => withBits l (withTable t (small b 7))
    (∀ t ∈ [aTable, abcTable], ∀ c ∈ [(9, [0x80]), (8, [0x80, 0]), (7, [0x81]), (8, [0x01]), (8, [0x00])],
      (s t c.1 c.2).NoRace ∧ (s t c.1 c.2).tableV = true ∧ (s t c.1 c.2).SrcReady ∧ (s t c.1 c.2).Disjoint ∧
      (s t c.1 c.2).DstReady (s t c.1 c.2).dstCap.toNat ∧ (s t c.1 c.2).err = false) ∧
    [0x80].length < ceil8 9 ∧ ceil8 8 < [0x80, 0].length ∧ [0x81].length = ceil8 7 ∧ PadBad 0x81 7 ∧
    [0x01].length = ceil8 8 ∧ (∀ x, ¬PadBad x 8) ∧
    unpack (srcBytes (s aTable 8 [0x01])) 8 = sevenThenOne ∧ TableOk aTable ∧ LeavesCodes aTable sevenThenOne 7 ∧
    unpack (srcBytes (s abcTable 8 [0x01])) 8 = sevenThenOne ∧ TableOk abcTable ∧ EndsInCode abcTable sevenThenOne 7 ∧
    unpack (srcBytes (s aTable 8 [0x00])) 8 = (List.replicate 8 0x61).flatMap (codeOf aTable) ∧
    (s aTable 8 [0x00]).dstCap.toNat < (List.replicate 8 (0x61 : Byte)).length := by
  refine ⟨fun t ht c hb => ?_, by decide, by decide, by decide, ⟨by decide, 7, by decide⟩, by decide,
    fun x h => absurd h.1 (by decide), by decide +kernel, tableOk_a, leaves_a, by decide +kernel, tableOk_abc, ends_abc,
    by decide +kernel, by decide⟩
  simp only [List.mem_cons, List.not_mem_nil, or_false] at ht hb
  rcases ht with rfl | rfl <;> rcases hb with rfl | rfl | rfl | rfl | rfl <;>
    exact
      have h := regions_of (s := withBits _ (withTable _ (small _ 7))) rfl (by decide) (by decide) (by decide) ⟨rfl, rfl⟩
      ⟨h.1, rfl, h.2.1, h.2.2.1, h.2.2.2 _, rfl⟩

theorem witness_TblStoreCompletes :
    ∃ (s : State) (e : List Byte), s.NoRace ∧ s.tableV = true ∧
      e = symbols.flatMap (fun x => if codeOf s.code x = [] then []
        else x :: BitVec.ofNat 8 (codeOf s.code x).length :: pack (codeOf s.code x)) ∧
      s.DstReady (4 + e.length) ∧ 4 + e.length ≤ s.dstCap.toNat :=
  have h := regions_of (s := withTable abcTable (small [] 13)) rfl (by decide) (by decide) (by decide) ⟨rfl, rfl⟩
  ⟨_, abcEntries, h.1, rfl,
    (by decide +kernel : abcEntries = tableBytes abcTable).trans (tableBytes_eq _), h.2.2.2 _, by decide⟩

/-- The same table into one byte less. -/
theorem witness_TblStoreCompletes_capacity :
    let s := withTable abcTable (small [] 12)
    s.NoRace ∧ s.tableV = true ∧ s.DstReady s.dstCap.toNat ∧ s.dstCap.toNat < 4 + abcEntries.length :=
  have h := regions_of (s := withTable abcTable (small [] 12)) rfl (by decide) (by decide) (by decide) ⟨rfl, rfl⟩
  ⟨h.1, rfl, h.2.2.2 _, by decide⟩

theorem parse_abc : parseEntries 4 abcEntries = .ok abcTable := by rfl

theorem witness_TblLoadCompletes :
    ∃ (s : State) (t : CodeTable), s.NoRace ∧ s.SrcReady ∧ 4 ≤ s.srcLen.toNat ∧
      s.srcLen.toNat = 4 + be32 (srcBytes s) ∧ parseEntries 4 ((srcBytes s).drop 4) = .ok t :=
  have h := regions_of (s := small ([0, 0, 0, 9] ++ abcEntries) 0) rfl (by decide) (by decide) (by decide) ⟨rfl, rfl⟩
  ⟨_, abcTable, h.1, h.2.1, by decide +kernel, by decide +kernel,
    (congrArg (parseEntries 4) (by decide +kernel : _ = abcEntries)).trans parse_abc⟩

/-- Three bytes, a table one byte short, one byte too many, and an entry of length 0. -/
theorem witness_TblLoadErrors :
    let s := fun b => small b 0
    (∀ b ∈ [[0, 0, 0], [0, 0, 0, 1], [0, 0, 0, 0, 0], [0, 0, 0, 3, 0, 0, 0]],
      (s b).NoRace ∧ (s b).SrcReady ∧ (s b).err = false) ∧
    (s [0, 0, 0]).srcLen.toNat < 4 ∧
    4 ≤ (s [0, 0, 0, 1]).srcLen.toNat ∧ (s [0, 0, 0, 1]).srcLen.toNat < 4 + be32 (srcBytes (s [0, 0, 0, 1])) ∧
    4 ≤ (s [0, 0, 0, 0, 0]).srcLen.toNat ∧ 4 + be32 (srcBytes (s [0, 0, 0, 0, 0])) < (s [0, 0, 0, 0, 0]).srcLen.toNat ∧
    4 ≤ (s [0, 0, 0, 3, 0, 0, 0]).srcLen.toNat ∧
    (s [0, 0, 0, 3, 0, 0, 0]).srcLen.toNat = 4 + be32 (srcBytes (s [0, 0, 0, 3, 0, 0, 0])) ∧
    parseEntries 4 ((srcBytes (s [0, 0, 0, 3, 0, 0, 0])).drop 4) = .error (.format .zeroLen 4) := by
  refine ⟨fun b hb => ?_, by decide +kernel, by decide +kernel, by decide +kernel, by decide +kernel, by decide +kernel,
    by decide +kernel, by decide +kernel, by rfl⟩
  simp only [List.mem_cons, List.not_mem_nil, or_false] at hb
  rcases hb with rfl | rfl | rfl | rfl <;>
    exact
      have h := regions_of (s := small _ 0) rfl (by decide) (by decide) (by decide) ⟨rfl, rfl⟩
      ⟨h.1, h.2.1, rfl⟩

/-- Good entries before a bad one: a = "0", and what follows it in each clause. -/
theorem witness_TblLoadErrors_parser :
    EntriesOk [(0x61, [false])] ∧
    ([0x80].length < ceil8 (9 : Byte).toNat ∧ (9 : Byte) ≠ 0) ∧
    ([0x80].length = ceil8 (1 : Byte).toNat ∧ (1 : Byte) ≠ 0 ∧
      (∃ e ∈ [((0x61 : Byte), [false])], (0x61 : Byte).toNat ≤ e.1.toNat) ∧
      ∀ e ∈ [((0x61 : Byte), [false])], e.1.toNat < (0x62 : Byte).toNat) ∧
    PadBad ([0x81].getD (ceil8 (1 : Byte).toNat - 1) 0) (1 : Byte).toNat ∧
    (¬PadBad ([0x00].getD (ceil8 (2 : Byte).toNat - 1) 0) (2 : Byte).toNat ∧
      ∃ e ∈ [((0x61 : Byte), [false])], conflict e.2 (unpack [0x00] (2 : Byte).toNat) = true) :=
  ⟨⟨by simp, by decide, by simp⟩, by decide, by decide, ⟨by decide, 7, by decide⟩,
    fun ⟨_, k, _, _, h⟩ => absurd h (by simp), by decide⟩

/-- All entries good, but the one code is "1", or the codes "0" and "10" are not complete. -/
theorem witness_TblLoadErrors_incomplete :
    EntriesOk [(0x41, [true])] ∧ [true] ≠ [false] ∧
    let es : List (Byte × Bits) := [(0x10, [false]), (0x20, [true, false])]
    EntriesOk es ∧ 2 ≤ es.length ∧ (es.map fun e => 2 ^ (255 - e.2.length)).sum ≠ 2 ^ 255 :=
  ⟨⟨by simp, by decide, by simp⟩, by decide, ⟨by decide, by decide, by decide⟩, by decide, by decide⟩

theorem witness_TableRoundTrip : ∃ t : CodeTable, TableOk t ∧ ∀ x, (codeOf t x).length ≤ 255 :=
  ⟨abTable, tableOk_ab, fun x => by rcases code_ab x with h | ⟨-, h⟩ | ⟨-, h⟩ <;> rw [h] <;> decide⟩

theorem witness_ParsedTableIsACompletePrefixCode :
    ∃ (base : Nat) (e : List Byte) (t : CodeTable), parseEntries base e = .ok t := ⟨4, abcEntries, abcTable, parse_abc⟩

/-- COMPRESS of "aaabbc" into exactly 51 bytes. -/
theorem witness_CompressCompletes :
    ∃ (s : State) (table : CodeTable) (bits : Bits) (c : List Byte), s.NoRace ∧ s.SrcReady ∧ s.Disjoint ∧
      table = buildTable (countTable (srcBytes s)) ∧ bits = (srcBytes s).flatMap (codeOf table) ∧
      bits.length ≤ 2 ^ 32 - 1 ∧
      c = be32bytes bits.length ++ sha256 (srcBytes s) ++ pack bits ++ be32bytes (tableBytes table).length ++
        tableBytes table ∧ c.length ≤ s.dstCap.toNat ∧ s.DstReady c.length :=
  have h := regions_of (s := small aaabbc 51) rfl (by decide) (by decide) (by decide) ⟨rfl, rfl⟩
  ⟨small aaabbc 51, _, _, _, h.1, h.2.1, h.2.2.1, rfl, rfl, by decide +kernel, rfl, by decide +kernel, h.2.2.2 _⟩

/-- COMPRESS of "aaabbc" into one byte less. -/
theorem witness_CompressCompletes_capacity :
    let s := small aaabbc 50
    let table := buildTable (countTable (srcBytes s))
    let bits := (srcBytes s).flatMap (codeOf table)
    s.NoRace ∧ s.SrcReady ∧ s.Disjoint ∧ s.DstReady s.dstCap.toNat ∧ bits.length ≤ 2 ^ 32 - 1 ∧
      s.dstCap.toNat < 40 + ceil8 bits.length + (tableBytes table).length :=
  have h := regions_of (s := small aaabbc 50) rfl (by decide) (by decide) (by decide) ⟨rfl, rfl⟩
  ⟨h.1, h.2.1, h.2.2.1, h.2.2.2 _, by decide +kernel, by decide +kernel⟩

/-- 2^32 - 1 source bytes from address 0, all 0 but the first two, "ab". -/
def long : State := { State.reset with mem := [(0, 0x61), (1, 0x62)], srcLen := 0xFFFFFFFF }

/-- "ab" and then `n` zeros. -/
def abZeros (n : Nat) : List Byte := 0x61 :: 0x62 :: List.replicate n 0

theorem readRange_abZeros (n : Nat) : Memory.readRange [(0, 0x61), (1, 0x62)] 0 (n + 2) = abZeros n := by
  apply List.ext_getElem
  · simp [Memory.readRange, abZeros]
  · intro i h1 h2
    simp only [Memory.readRange, List.getElem_map, List.getElem_range, abZeros]
    rcases i with _ | _ | i
    · rfl
    · rfl
    · simp [Memory.read, Memory.unlisted]

theorem srcBytes_long : srcBytes long = abZeros 4294967293 := by
  have h : long.srcLen.toNat = 4294967293 + 2 := by decide
  unfold srcBytes
  rw [h]
  exact readRange_abZeros _

theorem countTable_abZeros (n : Nat) : countTable (abZeros n) =
    tabulate 256 fun s => if s = 0x61 ∨ s = 0x62 then 1 else if s = 0 then BitVec.ofNat 32 n else 0 := by
  unfold countTable
  congr 1
  funext s
  rw [abZeros, List.countP_cons, List.countP_cons, List.countP_replicate]
  by_cases ha : s = 0x61
  · simp [ha]
  · by_cases hb : s = 0x62
    · simp [hb]
    · by_cases hz : s = 0
      · simp [hz]
      · have h1 : (0x61 : Nat) ≠ s := fun h => ha h.symm
        have h2 : (0x62 : Nat) ≠ s := fun h => hb h.symm
        have h3 : (0 : Nat) ≠ s := fun h => hz h.symm
        simp [ha, hb, hz, h1, h2, h3]

theorem length_encode_abZeros (t : CodeTable) (n : Nat) : ((abZeros n).flatMap (codeOf t)).length =
    (codeOf t 0x61).length + ((codeOf t 0x62).length + n * (codeOf t 0).length) := by
  simp [abZeros, List.length_flatMap]

/-- TOO_LONG: "ab" has codes of two bits, so the 2^32 - 1 bytes take 2^32 + 1 bits. -/
theorem witness_CompressCompletes_tooLong :
    let table := buildTable (countTable (srcBytes long))
    long.NoRace ∧ long.SrcReady ∧ long.Disjoint ∧ long.DstReady long.dstCap.toNat ∧
      2 ^ 32 - 1 < ((srcBytes long).flatMap (codeOf table)).length := by
  refine ⟨⟨rfl, rfl⟩, ⟨by decide, fun _ _ _ => rfl⟩, Or.inr (Or.inl rfl), ⟨by decide, fun _ _ _ => rfl⟩, ?_⟩
  rw [srcBytes_long, countTable_abZeros, length_encode_abZeros]
  decide +kernel

theorem witness_EmptyInputContainer :
    ∃ s : State, s.NoRace ∧ s.srcLen = 0 ∧ s.DstReady 40 ∧ 40 ≤ s.dstCap.toNat :=
  have h := regions_of (s := small [] 40) rfl (by decide) (by decide) (by decide) ⟨rfl, rfl⟩
  ⟨_, h.1, by decide, h.2.2.2 _, by decide⟩

/-- What DECOMPRESS asks of a container, met by that of "aaabbc" with any stored digest `d` of 32 bytes. -/
theorem decompress_hyps (d : List Byte) (hd : d = digestAaabbc ∨ d = List.replicate 32 0xAA) :
    let s := small (container d) 6
    s.NoRace ∧ s.SrcReady ∧ s.Disjoint ∧ container d = srcBytes s ∧ 36 ≤ (container d).length ∧
    9 = be32 (container d) ∧ 2 = ceil8 9 ∧ 40 + 2 ≤ (container d).length ∧
    (container d).length = 40 + 2 + be32 ((container d).drop (36 + 2)) ∧
    parseEntries (40 + 2) ((container d).drop (40 + 2)) = .ok abcTable ∧ (9 = 0 ↔ entries abcTable = []) ∧
    padOk (((container d).drop 36).take 2) 9 = true ∧
    decodeBits abcTable (unpack (((container d).drop 36).take 2) 9) = .ok aaabbc ∧ aaabbc.length ≤ s.dstCap.toNat ∧
    ∀ n, s.DstReady n := by
  rcases hd with rfl | rfl <;>
    exact
      have h := regions_of (s := small (container _) 6) rfl (by decide) (by decide) (by decide) ⟨rfl, rfl⟩
      ⟨h.1, h.2.1, h.2.2.1, by decide +kernel, by decide +kernel, by decide +kernel, by decide, by decide +kernel,
        by decide +kernel, by rfl, by decide +kernel, by decide +kernel, by rfl, by decide +kernel, h.2.2.2⟩

theorem witness_DecompressCompletes :
    ∃ (s : State) (b out : List Byte) (l p : Nat) (table : CodeTable), s.NoRace ∧ s.SrcReady ∧ s.Disjoint ∧
      b = srcBytes s ∧ 36 ≤ b.length ∧ l = be32 b ∧ p = ceil8 l ∧ 40 + p ≤ b.length ∧
      b.length = 40 + p + be32 (b.drop (36 + p)) ∧ parseEntries (40 + p) (b.drop (40 + p)) = .ok table ∧
      (l = 0 ↔ entries table = []) ∧ padOk ((b.drop 36).take p) l = true ∧
      decodeBits table (unpack ((b.drop 36).take p) l) = .ok out ∧ out.length ≤ s.dstCap.toNat ∧
      s.DstReady out.length ∧ sha256 out = (b.drop 4).take 32 :=
  let ⟨h1, h2, h3, h4, h5, h6, h7, h8, h9, h10, h11, h12, h13, h14, h15⟩ := decompress_hyps digestAaabbc (Or.inl rfl)
  ⟨small (container digestAaabbc) 6, container digestAaabbc, aaabbc, 9, 2, abcTable, h1, h2, h3, h4, h5, h6, h7, h8, h9,
    h10, h11, h12, h13, h14, h15 _, by decide +kernel⟩

theorem witness_DecompressMismatchKeepsWhatItRead :
    ∃ (s : State) (b out : List Byte) (l p : Nat) (table : CodeTable), s.NoRace ∧ s.SrcReady ∧ s.Disjoint ∧
      b = srcBytes s ∧ 36 ≤ b.length ∧ l = be32 b ∧ p = ceil8 l ∧ 40 + p ≤ b.length ∧
      b.length = 40 + p + be32 (b.drop (36 + p)) ∧ parseEntries (40 + p) (b.drop (40 + p)) = .ok table ∧
      (l = 0 ↔ entries table = []) ∧ padOk ((b.drop 36).take p) l = true ∧
      decodeBits table (unpack ((b.drop 36).take p) l) = .ok out ∧ out.length ≤ s.dstCap.toNat ∧
      s.DstReady s.dstCap.toNat ∧ sha256 out ≠ (b.drop 4).take 32 :=
  let ⟨h1, h2, h3, h4, h5, h6, h7, h8, h9, h10, h11, h12, h13, h14, h15⟩ :=
    decompress_hyps (List.replicate 32 0xAA) (Or.inr rfl)
  ⟨small (container (List.replicate 32 0xAA)) 6, container (List.replicate 32 0xAA), aaabbc, 9, 2, abcTable, h1, h2, h3,
    h4, h5, h6, h7, h8, h9, h10, h11, h12, h13, h14, h15 _, by decide +kernel⟩

/-- Five cuts of the container of "aaabbc", each at the boundary of one length check. -/
def badLengths : List (List Byte) :=
  let b := container digestAaabbc
  [b.take 35, b.take 37, b.take 41, b.take 50, b ++ [0]]

theorem witness_DecompressLengthErrors :
    (∀ b ∈ badLengths, (small b 0).NoRace ∧ (small b 0).SrcReady ∧ (small b 0).Disjoint ∧
      (small b 0).DstReady (small b 0).dstCap.toNat ∧ (small b 0).err = false ∧ b = srcBytes (small b 0) ∧
      2 = ceil8 (be32 b)) ∧
    (badLengths.getD 0 []).length < 36 ∧
    (36 ≤ (badLengths.getD 1 []).length ∧ (badLengths.getD 1 []).length < 36 + 2) ∧
    (36 + 2 ≤ (badLengths.getD 2 []).length ∧ (badLengths.getD 2 []).length < 40 + 2) ∧
    (40 + 2 ≤ (badLengths.getD 3 []).length ∧
      (badLengths.getD 3 []).length < 40 + 2 + be32 ((badLengths.getD 3 []).drop (36 + 2))) ∧
    40 + 2 + be32 ((badLengths.getD 4 []).drop (36 + 2)) < (badLengths.getD 4 []).length := by
  refine ⟨fun b hb => ?_, by decide +kernel, by decide +kernel, by decide +kernel, by decide +kernel, by decide +kernel⟩
  simp only [badLengths, List.mem_cons, List.not_mem_nil, or_false] at hb
  rcases hb with rfl | rfl | rfl | rfl | rfl <;>
    exact
      have h := regions_of (s := small _ 0) rfl (by decide) (by decide) (by decide) ⟨rfl, rfl⟩
      ⟨h.1, h.2.1, h.2.2.1, h.2.2.2 _, rfl, by decide +kernel, by decide +kernel⟩

/-- A container of bitLength `l`, a digest of zeros, one payload byte and the entry bytes `e`. -/
def oneByte (l : Nat) (x : Byte) (e : List Byte) : List Byte :=
  be32bytes l ++ List.replicate 32 0 ++ [x] ++ be32bytes e.length ++ e

/-- Containers of exact lengths whose table does not parse, whose payload has a pad bit of 1, leaves every code, ends
inside a code, and decodes to one byte more than fits. -/
def badBodies : List (List Byte) :=
  [oneByte 8 0 [0x61, 0x00, 0x00], oneByte 7 0x01 [0x61, 0x01, 0x00], oneByte 8 0x01 [0x61, 0x01, 0x00],
   oneByte 8 0x01 abcEntries, oneByte 8 0x00 [0x61, 0x01, 0x00]]

theorem parse_a : parseEntries 41 [0x61, 0x01, 0x00] = .ok aTable := by rfl

theorem parse_abc_41 : parseEntries 41 abcEntries = .ok abcTable := by rfl

theorem witness_DecompressLengthErrors_body :
    (∀ b ∈ badBodies, (small b 7).NoRace ∧ (small b 7).SrcReady ∧ (small b 7).Disjoint ∧
      (small b 7).DstReady (small b 7).dstCap.toNat ∧ (small b 7).err = false ∧ b = srcBytes (small b 7) ∧
      1 = ceil8 (be32 b) ∧ 40 + 1 ≤ b.length ∧ b.length = 40 + 1 + be32 (b.drop (36 + 1))) ∧
    parseEntries 41 [0x61, 0x00, 0x00] = .error (.format .zeroLen 41) ∧
    PadBad ((oneByte 7 0x01 [0x61, 0x01, 0x00]).getD (36 + 1 - 1) 0) 7 ∧ (∀ x, ¬PadBad x 8) ∧
    entries aTable ≠ [] ∧ entries abcTable ≠ [] ∧ unpack [0x01] 8 = sevenThenOne ∧
    LeavesCodes aTable sevenThenOne 7 ∧ EndsInCode abcTable sevenThenOne 7 ∧
    unpack [0x00] 8 = (List.replicate 8 0x61).flatMap (codeOf aTable) ∧
    (small [] 7).dstCap.toNat < (List.replicate 8 (0x61 : Byte)).length := by
  refine ⟨fun b hb => ?_, by rfl, ⟨by decide, 7, by decide⟩, fun x h => absurd h.1 (by decide), by decide +kernel,
    by decide +kernel, by decide, leaves_a, ends_abc, by decide +kernel, by decide⟩
  simp only [badBodies, List.mem_cons, List.not_mem_nil, or_false] at hb
  rcases hb with rfl | rfl | rfl | rfl | rfl <;>
    exact
      have h := regions_of (s := small _ 7) rfl (by decide) (by decide) (by decide) ⟨rfl, rfl⟩
      ⟨h.1, h.2.1, h.2.2.1, h.2.2.2 _, rfl, by decide +kernel, by decide +kernel, by decide +kernel, by decide +kernel⟩

/-- EMPTY_MISMATCH: bitLength 0 and a table of one code. -/
theorem witness_DecompressLengthErrors_emptyMismatch :
    let b := List.replicate 36 0 ++ [0, 0, 0, 3, 0x61, 0x01, 0x00]
    (small b 7).NoRace ∧ (small b 7).SrcReady ∧ (small b 7).Disjoint ∧ (small b 7).err = false ∧
      b = srcBytes (small b 7) ∧ 0 = be32 b ∧ b.length = 40 + 0 + be32 (b.drop (36 + 0)) ∧
      parseEntries 40 (b.drop (40 + 0)) = .ok aTable ∧ ¬(0 = 0 ↔ entries aTable = []) :=
  have h := regions_of (s := small (List.replicate 36 0 ++ [0, 0, 0, 3, 0x61, 0x01, 0x00]) 7) rfl (by decide) (by decide)
    (by decide) ⟨rfl, rfl⟩
  ⟨h.1, h.2.1, h.2.2.1, rfl, by decide +kernel, by decide +kernel, by decide +kernel, by rfl,
    fun k => absurd (k.1 rfl) (by decide +kernel)⟩

/-- COMPRESS of "aaabbc" completes, and another state holds a copy of its container. -/
theorem witness_CompressThenDecompress :
    ∃ s t u : State, s.NoRace ∧ s.done = false ∧ exec .compress s = .next t ∧ t.done = true ∧ u.NoRace ∧ u.SrcReady ∧
      u.Disjoint ∧ u.DstReady s.srcLen.toNat ∧ s.srcLen.toNat ≤ u.dstCap.toNat ∧
      srcBytes u = Memory.readRange t.mem s.dstAddr.toNat t.outLen.toNat :=
  have h := regions_of (s := small (container digestAaabbc) 6) rfl (by decide) (by decide) (by decide) ⟨rfl, rfl⟩
  ⟨small aaabbc 64, _, _, noRace_small _ _, rfl, exec_next _ _, by decide +kernel, h.1, h.2.1, h.2.2.1, h.2.2.2 _,
    by decide +kernel, by decide +kernel⟩

/-- A copy of the container of "aaabbc" whose first payload byte is 0x1E instead of 0x1F. -/
theorem witness_CorruptedPayloadNeedsACollision :
    ∃ (s t u : State) (c d : List Byte), s.NoRace ∧ s.done = false ∧ exec .compress s = .next t ∧ t.done = true ∧
      c = Memory.readRange t.mem s.dstAddr.toNat t.outLen.toNat ∧ d = srcBytes u ∧ d.length = c.length ∧
      (∀ k, ¬(36 ≤ k ∧ k < 36 + ceil8 t.bitLen.toNat) → d.getD k 0 = c.getD k 0) ∧ d ≠ c ∧ u.NoRace ∧ u.SrcReady ∧
      u.Disjoint ∧ u.DstReady u.dstCap.toNat ∧ t.bitLen.toNat ≤ u.dstCap.toNat ∧ u.err = false := by
  have h := regions_of (s := small ((container digestAaabbc).set 36 0x1E) 9) rfl (by decide) (by decide) (by decide)
    ⟨rfl, rfl⟩
  refine ⟨small aaabbc 64, _, _, container digestAaabbc, (container digestAaabbc).set 36 0x1E, noRace_small _ _, rfl,
    exec_next _ _, by decide +kernel, by decide +kernel, by decide +kernel, by decide +kernel, fun k hk => ?_,
    by decide +kernel, h.1, h.2.1, h.2.2.1, h.2.2.2 _, by decide +kernel, rfl⟩
  have hb : ceil8 (runCommand .compress (ruleOf .compress) (small aaabbc 64)).bitLen.toNat = 2 := by decide +kernel
  rw [hb] at hk
  have hne : 36 ≠ k := by omega
  simp only [List.getD_eq_getElem?_getD, List.getElem?_set_ne hne]

/-- A step from the reset state running COUNT, which meets the invariants. -/
theorem witness_StepKeepsInv :
    ∃ s t : State, s.Inv ∧ s.srcRace = false ∧ s.TableInv ∧ s.FreqInv ∧ step s = .next t :=
  ⟨running 0x01, _, inv_running, rfl, fun h => absurd h (by decide), fun h => absurd h (by decide),
    exec_next .count (running 0x01)⟩

/-- The reset state running the command of a word, its source raced. -/
def racing (w : Word) : State := { running w with srcRace := true }

/-- With a raced source: a host access, a step of an idle block, and the ends of commands that write neither FREQ nor
the table. -/
theorem witness_StepKeepsTableAndFreqInv :
    (∃ t, step { racing 0x01 with inputs := [.hardReset] } = .next t) ∧
    (∃ t, step { State.reset with srcRace := true } = .next t) ∧
    (∀ w, (racing w).TableInv ∧ (racing w).FreqInv) ∧
    ∀ c ∈ [(0x00, Instr.nop), (0x03, .encode), (0x04, .decode), (0x05, .digest), (0x06, .tblStore)],
      decodeWord (racing c.1).cmd = .ok c.2 ∧ ∃ t, step (racing c.1) = .next t := by
  refine ⟨⟨_, rfl⟩, ⟨_, rfl⟩, fun w => ⟨nofun, nofun⟩, fun c hc => ?_⟩
  simp only [List.mem_cons, List.not_mem_nil, or_false] at hc
  rcases hc with rfl | rfl | rfl | rfl | rfl
  exacts [⟨rfl, _, exec_next .nop _⟩, ⟨rfl, _, exec_next .encode _⟩, ⟨rfl, _, exec_next .decode _⟩,
    ⟨rfl, _, exec_next .digest _⟩, ⟨rfl, _, exec_next .tblStore _⟩]

end Sys2Proof.Tests
end

section
/-! PROOFS. BUILD on at most three counted symbols: its leaves, one merge of the tree builder, and the codes it gives
(40_count_build.md R145 to R152). -/

namespace Sys2Proof.Machine

/-! ### The end of a command -/

/-- A command with no race whose rule succeeds and whose accesses all complete writes its results and completes
(R325). -/
theorem runCommand_success {c : Instr} {body : State → RuleOutcome} {s : State} {r : Results} (hr : s.NoRace)
    (hp : prologue c s = none) (hb : body s = .success r)
    (hbus : badReads c s ++ badWrites c r.out.length s = []) :
    runCommand c body s = complete (writeResults r s) := by
  rw [runCommand_of_noRace hr, checkedOutcome_of_none hp, hb, busOutcome_success hbus]
  rfl

/-- BUILD with valid counts stores the table of its counts (R158). -/
theorem code_of_exec_build {s t : State} (hr : s.NoRace) (hv : s.freqV = true) (h : exec .build s = .next t) :
    t.code = buildTable s.freq := by
  have hp : prologue .build s = none := by
    rw [prologue_eq_none_iff]
    exact ⟨fun _ => hv, nofun, nofun, nofun, nofun⟩
  have hend : runCommand .build (ruleOf .build) s = complete (writeResults { code := some (buildTable s.freq) } s) :=
    runCommand_success hr hp rfl rfl
  rw [exec_eq, hend] at h
  cases h
  rfl

/-! ### The leaves -/

/-- The count of a symbol. -/
def countOf (f : FreqTable) (x : Byte) : Nat := (f[x.toNat]'x.isLt).toNat

/-- The leaf of a symbol: weight its count, key its value (R145). -/
def leafOf (f : FreqTable) (x : Byte) : Node := { weight := countOf f x, key := x.toNat, tree := .leaf x }

theorem mem_symbols (x : Byte) : x ∈ symbols :=
  List.mem_map.2 ⟨x.toNat, List.mem_range.2 x.isLt, by simp⟩

theorem nodup_symbols : symbols.Nodup := by
  refine List.nodup_iff_injective_get.2 fun i j h => Fin.ext ?_
  have hi : i.val < 256 := by simpa using i.isLt
  have hj : j.val < 256 := by simpa using j.isLt
  have := congrArg BitVec.toNat h
  simpa [Nat.mod_eq_of_lt hi, Nat.mod_eq_of_lt hj] using this

/-- The builder starts with the leaves of the counted symbols, ascending (R145). -/
theorem leaves_eq (f : FreqTable) :
    leaves f = (symbols.filter fun x => countOf f x != 0).map (leafOf f) := by
  have hzip : (symbols.zip f.toList).map (fun e => ({ weight := e.2.toNat, key := e.1.toNat, tree := .leaf e.1 } : Node))
      = symbols.map (leafOf f) := by
    refine List.ext_getElem (by simp) fun i h1 h2 => ?_
    have hi : i < 256 := by simpa using h2
    simp [leafOf, countOf, Nat.mod_eq_of_lt hi]
  rw [leaves, hzip, List.filter_map]
  rfl

/-- The leaves are those of the counted symbols, in whatever order these are listed. -/
theorem leaves_perm {f : FreqTable} {l : List Byte} (hn : l.Nodup) (hl : ∀ x ∈ l, countOf f x ≠ 0)
    (h : ∀ x, x ∉ l → countOf f x = 0) : (leaves f).Perm (l.map (leafOf f)) := by
  have hmem : ∀ x, countOf f x ≠ 0 ↔ x ∈ l := fun x => ⟨not_imp_comm.1 (h x), hl x⟩
  rw [leaves_eq]
  refine List.Perm.map _ ((List.perm_ext_iff_of_nodup (nodup_symbols.filter _) hn).2 fun x => ?_)
  simp [mem_symbols, hmem]

/-! ### The order of nodes and one merge -/

theorem less_iff (a b : Node) : a.less b = true ↔ a.weight < b.weight ∨ a.weight = b.weight ∧ a.key < b.key := by
  simp [Node.less]

theorem not_less_self (a : Node) : ¬ a.less a = true := by
  rw [less_iff]; omega

theorem not_less_of_less {a b : Node} (h : a.less b = true) : ¬ b.less a = true := by
  rw [less_iff] at h ⊢; omega

theorem less_trans {a b c : Node} (hab : a.less b = true) (hbc : b.less c = true) : a.less c = true := by
  rw [less_iff] at *; omega

/-- What is extracted and what is left are the nodes there were. -/
theorem extractMin_perm (x : Node) (q : List Node) : ((extractMin x q).1 :: (extractMin x q).2).Perm (x :: q) := by
  induction q generalizing x with
  | nil => exact .refl _
  | cons y q ih =>
    unfold extractMin
    split
    · exact (List.Perm.swap _ _ _).trans ((ih y).cons x)
    · exact (List.Perm.swap _ _ _).trans (((ih x).cons y).trans (.swap _ _ _))

/-- A node below every other one is the one extracted (R147). -/
theorem extractMin_fst {a x : Node} {q : List Node} (ha : a ∈ x :: q) (hlt : ∀ n ∈ x :: q, n = a ∨ a.less n = true) :
    (extractMin x q).1 = a := by
  induction q generalizing x with
  | nil => exact (List.mem_singleton.1 ha).symm
  | cons y q ih =>
    simp only [List.mem_cons, forall_eq_or_imp] at ha hlt ih
    obtain ⟨hx, hy, hq⟩ := hlt
    unfold extractMin
    split
    case isTrue hyx =>
      have hxa : a ≠ x := by
        rintro rfl
        rcases hy with rfl | hay
        · exact not_less_self _ hyx
        · exact not_less_of_less hay hyx
      exact ih (ha.resolve_left hxa) ⟨hy, hq⟩
    case isFalse hyx =>
      have hya : a = y → a = x := by
        rintro rfl
        exact (hx.resolve_right hyx).symm
      exact ih (by tauto) ⟨hx, hq⟩

/-- Extracting from nodes that are `a` and, all above it, `l` gives `a` and leaves `l`, in some order (R147). -/
theorem extractMin_of_perm {a x : Node} {q l : List Node} (hp : (x :: q).Perm (a :: l))
    (hlt : ∀ n ∈ l, a.less n = true) : (extractMin x q).1 = a ∧ (extractMin x q).2.Perm l := by
  have hfst : (extractMin x q).1 = a := by
    refine extractMin_fst (hp.mem_iff.2 List.mem_cons_self) fun n hn => ?_
    exact (List.mem_cons.1 (hp.mem_iff.1 hn)).imp_right (hlt n)
  have hrest := (extractMin_perm x q).trans hp
  rw [hfst] at hrest
  exact ⟨hfst, hrest.cons_inv⟩

@[simp] theorem mergeAll_singleton (fuel k : Nat) (n : Node) : mergeAll fuel k [n] = some n.tree := by
  cases fuel <;> rfl

/-- One merge: the least node `a` goes left and the next one `b` right, and the rest stays (R147). -/
theorem mergeAll_succ_of_perm {a b : Node} {q l : List Node} (fuel k : Nat) (hp : q.Perm (a :: b :: l))
    (hab : a.less b = true) (hbl : ∀ n ∈ l, b.less n = true) :
    ∃ r, r.Perm l ∧ mergeAll (fuel + 1) k q = mergeAll fuel (k + 1) (mergeNodes k a b :: r) := by
  obtain ⟨x, y, q, rfl⟩ : ∃ x y q', q = x :: y :: q' := by
    match q, hp.length_eq with
    | x :: y :: q', _ => exact ⟨x, y, q', rfl⟩
  have hal : ∀ n ∈ b :: l, a.less n = true :=
    List.forall_mem_cons.2 ⟨hab, fun n hn => less_trans hab (hbl n hn)⟩
  obtain ⟨hfst, hrest⟩ := extractMin_of_perm hp hal
  obtain ⟨z, r, hzr⟩ : ∃ z r, (extractMin x (y :: q)).2 = z :: r :=
    List.exists_cons_of_length_eq_add_one hrest.length_eq
  rw [hzr] at hrest
  obtain ⟨hsnd, hr⟩ := extractMin_of_perm hrest hbl
  refine ⟨_, hr, ?_⟩
  have hpair : extractMin x (y :: q) = (a, z :: r) := Prod.ext hfst hzr
  rw [mergeAll, hpair, ← hsnd]

/-- Two nodes merge into the root, the lower one its left child (R147, R148). -/
theorem mergeAll_two {a b : Node} {q : List Node} (fuel k : Nat) (hp : q.Perm [a, b]) (hab : a.less b = true) :
    mergeAll (fuel + 1) k q = some (.node a.tree b.tree) := by
  obtain ⟨r, hr, h⟩ := mergeAll_succ_of_perm fuel k hp hab nofun
  rw [h, hr.eq_nil, mergeAll_singleton]
  rfl

/-! ### The codes of few symbols -/

@[simp] theorem codeOf_tableOf_nil (y : Byte) : codeOf (tableOf []) y = [] := by
  simp [codeOf_tableOf]

@[simp] theorem codeOf_tableOf_cons (x y : Byte) (c : Bits) (es : List (Byte × Bits)) :
    codeOf (tableOf ((x, c) :: es)) y = if x = y then c else codeOf (tableOf es) y := by
  simp only [codeOf_tableOf, List.find?_cons]
  by_cases h : x = y
  · simp [h]
  · simp [h, beq_false_of_ne (mt BitVec.eq_of_toNat_eq h)]

/-- With two leaves or more, the entries are the codes of the tree (R152). -/
theorem buildEntries_of_mergeAll {f : FreqTable} {t : Tree} (hl : 2 ≤ (leaves f).length)
    (ht : mergeAll (leaves f).length 0 (leaves f) = some t) : buildEntries f = t.codes [] := by
  unfold buildEntries
  split
  next h => simp [h] at hl
  next h => simp [h] at hl
  next => rw [ht]

section fewSymbols
variable {f : FreqTable}

theorem ne_of_less_leafOf {x y : Byte} (h : (leafOf f x).less (leafOf f y) = true) : x ≠ y := by
  rintro rfl
  exact not_less_self _ h

/-- A symbol above a counted one is counted. -/
theorem countOf_ne_zero_of_less {x y : Byte} (hx : countOf f x ≠ 0) (h : (leafOf f x).less (leafOf f y) = true) :
    countOf f y ≠ 0 := by
  simp only [less_iff, leafOf] at h
  omega

/-- No count: no code (R150). -/
theorem buildTable_none (h : ∀ y, countOf f y = 0) : buildTable f = tableOf [] := by
  have hl : leaves f = [] := (leaves_perm List.nodup_nil nofun fun y _ => h y).eq_nil
  simp [buildTable, buildEntries, hl]

/-- One counted symbol: the code "0" (R149). -/
theorem buildTable_one {x : Byte} (hx : countOf f x ≠ 0) (h : ∀ y, y ≠ x → countOf f y = 0) :
    buildTable f = tableOf [(x, [false])] := by
  have hl : leaves f = [leafOf f x] :=
    (leaves_perm (List.nodup_singleton x) (by simpa using hx) (by simpa using h)).eq_singleton
  simp [buildTable, buildEntries, hl, leafOf, Tree.codes]

/-- Two counted symbols: the lower gets "0", the other "1" (R147, R152). -/
theorem buildTable_two {x y : Byte} (hx : countOf f x ≠ 0) (hxy : (leafOf f x).less (leafOf f y) = true)
    (h : ∀ w, w ≠ x → w ≠ y → countOf f w = 0) : buildTable f = tableOf [(x, [false]), (y, [true])] := by
  have hy := countOf_ne_zero_of_less hx hxy
  have hp : (leaves f).Perm [leafOf f x, leafOf f y] :=
    leaves_perm (l := [x, y]) (by simpa using ne_of_less_leafOf hxy) (by simp [hx, hy]) (by simpa using h)
  have hlen : (leaves f).length = 2 := hp.length_eq
  have hroot : mergeAll (leaves f).length 0 (leaves f) = some (.node (.leaf x) (.leaf y)) := by
    rw [hlen]; exact mergeAll_two 1 0 hp hxy
  rw [buildTable, buildEntries_of_mergeAll hlen.ge hroot]
  rfl

section threeSymbols
variable {x y z : Byte} (hx : countOf f x ≠ 0) (hxy : (leafOf f x).less (leafOf f y) = true)
  (hyz : (leafOf f y).less (leafOf f z) = true) (h : ∀ w, w ≠ x → w ≠ y → w ≠ z → countOf f w = 0)
include hx hxy hyz h

/-- Three counted symbols: the two lower ones merge first, which leaves their node and the third leaf (R147). -/
theorem leaves_three : (leaves f).length = 3 ∧
    mergeAll 3 0 (leaves f) = mergeAll 2 1 [mergeNodes 0 (leafOf f x) (leafOf f y), leafOf f z] := by
  have hy := countOf_ne_zero_of_less hx hxy
  have hz := countOf_ne_zero_of_less hy hyz
  have hn : [x, y, z].Nodup := by
    simpa using ⟨⟨ne_of_less_leafOf hxy, ne_of_less_leafOf (less_trans hxy hyz)⟩, ne_of_less_leafOf hyz⟩
  have hp : (leaves f).Perm [leafOf f x, leafOf f y, leafOf f z] :=
    leaves_perm hn (by simp [hx, hy, hz]) (by simpa using h)
  obtain ⟨r, hr, hmerge⟩ := mergeAll_succ_of_perm 2 0 hp hxy (by simpa using hyz)
  exact ⟨hp.length_eq, by rw [hmerge, hr.eq_singleton]⟩

/-- The third symbol is not above the two lower ones' sum: its leaf goes left, on a tie too (R146, R152). -/
theorem buildTable_three_of_le (hle : countOf f z ≤ countOf f x + countOf f y) :
    buildTable f = tableOf [(z, [false]), (x, [true, false]), (y, [true, true])] := by
  obtain ⟨hlen, hmerge⟩ := leaves_three hx hxy hyz h
  have hless : (leafOf f z).less (mergeNodes 0 (leafOf f x) (leafOf f y)) = true := by
    have := z.isLt
    simp only [less_iff, leafOf, mergeNodes]
    omega
  have hroot : mergeAll (leaves f).length 0 (leaves f) = some (.node (.leaf z) (.node (.leaf x) (.leaf y))) := by
    rw [hlen, hmerge]; exact mergeAll_two 1 1 (.swap _ _ _) hless
  rw [buildTable, buildEntries_of_mergeAll (by omega) hroot]
  rfl

/-- The third symbol is above the two lower ones' sum: their node goes left (R152). -/
theorem buildTable_three_of_lt (hlt : countOf f x + countOf f y < countOf f z) :
    buildTable f = tableOf [(x, [false, false]), (y, [false, true]), (z, [true])] := by
  obtain ⟨hlen, hmerge⟩ := leaves_three hx hxy hyz h
  have hless : (mergeNodes 0 (leafOf f x) (leafOf f y)).less (leafOf f z) = true :=
    (less_iff _ _).2 (.inl hlt)
  have hroot : mergeAll (leaves f).length 0 (leaves f) = some (.node (.node (.leaf x) (.leaf y)) (.leaf z)) := by
    rw [hlen, hmerge]; exact mergeAll_two 1 1 (.refl _) hless
  rw [buildTable, buildEntries_of_mergeAll (by omega) hroot]
  rfl

end threeSymbols

end fewSymbols

/-- Settles O38: the leaves of the counted symbols, in ascending (count, symbol), merge in that order, and the codes
are read off the tree. -/
theorem buildOfNoneOrOneSymbol : Obligations.BuildOfNoneOrOneSymbol := by
  intro s t f lower hr hv hexec hf hlower
  obtain rfl : f = countOf s.freq := funext hf
  have hless : ∀ {x y}, lower x y → (leafOf s.freq x).less (leafOf s.freq y) = true := fun hxy =>
    (less_iff _ _).2 ((hlower _ _).1 hxy)
  rw [code_of_exec_build hr hv hexec]
  refine ⟨fun h0 y => ?_, fun x hx h1 => ?_, fun x y hx hxy h2 => ?_, fun x y z hx hxy hyz h3 => ?_⟩
  · rw [buildTable_none h0, codeOf_tableOf_nil]
  · rw [buildTable_one hx h1]
    exact ⟨by simp, fun y hy => by simp [hy.symm]⟩
  · have nxy := ne_of_less_leafOf (hless hxy)
    rw [buildTable_two hx (hless hxy) h2]
    exact ⟨by simp, by simp [nxy], fun w hwx hwy => by simp [hwx.symm, hwy.symm]⟩
  · have nxy := ne_of_less_leafOf (hless hxy)
    have nyz := ne_of_less_leafOf (hless hyz)
    have nxz := ne_of_less_leafOf (less_trans (hless hxy) (hless hyz))
    refine ⟨fun hle => ?_, fun hlt => ?_⟩
    · rw [buildTable_three_of_le hx (hless hxy) (hless hyz) h3 hle]
      simp [nxy, nxz.symm, nyz.symm]
    · rw [buildTable_three_of_lt hx (hless hxy) (hless hyz) h3 hlt]
      simp [nxy, nxz, nyz]

end Sys2Proof.Machine
end

section
/-! PROOFS. Bit packing and unpacking: the bits of packed bytes, the pad check bit by bit, and Unpack as the inverse
of Pack (41_encode_pack.md R182, 42_decode.md R200 to R202). -/

namespace Sys2Proof.Machine

@[simp] theorem bitOfByte_zero (i : Nat) : bitOfByte 0 i = false := by simp [bitOfByte]

/-- Bit `i` of byte `j` of `Pack(b)` is bit `8·j + i` of `b`, or 0 past the end, in the bytes of `Pack(b)` and past
them (R182). -/
theorem bitOfByte_getD_pack (b : Bits) (j : Nat) {i : Nat} (hi : i < 8) :
    bitOfByte ((pack b).getD j 0) i = b.getD (8 * j + i) false := by
  by_cases hj : j < ceil8 b.length
  · have hbyte : (pack b).getD j 0 = byteOfBits fun i => b.getD (8 * j + i) false := by simp [pack, hj]
    rw [hbyte, bitOfByte_byteOfBits _ i hi]
  · have hpast : b.length ≤ 8 * j + i := by unfold ceil8 at hj; omega
    rw [List.getD_eq_default _ _ (by simpa using hj), List.getD_eq_default _ _ hpast, bitOfByte_zero]

/-- The bit `k` that Unpack reads from packed bytes is bit `k` of what was packed. -/
theorem bitOfByte_pack_div_mod (b : Bits) (k : Nat) :
    bitOfByte ((pack b).getD (k / 8) 0) (k % 8) = b.getD k false := by
  rw [bitOfByte_getD_pack b _ (Nat.mod_lt k (by decide)), Nat.div_add_mod]

/-- Unpack undoes Pack (R202). -/
theorem unpack_pack (b : Bits) : unpack (pack b) b.length = b :=
  List.ext_getElem (length_unpack _ _) fun k _ hk => by
    calc (unpack (pack b) b.length)[k]
        = bitOfByte ((pack b).getD (k / 8) 0) (k % 8) := by simp only [unpack, List.getElem_map, List.getElem_range]
      _ = b.getD k false := bitOfByte_pack_div_mod b k
      _ = b[k] := List.getD_eq_getElem _ _ hk

/-- The pad check, bit by bit: in a last byte that is not full, the bits from `L mod 8` on are 0 (R201). -/
theorem padOk_iff (d : List Byte) (l : Nat) : padOk d l = true ↔
    (l % 8 ≠ 0 → ∀ i < 8, l % 8 ≤ i → bitOfByte (d.getD (ceil8 l - 1) 0) i = false) := by
  simp [padOk, or_iff_not_imp_left]

/-- The pads of packed bytes are zero (R202). -/
theorem padOk_pack (b : Bits) : padOk (pack b) b.length = true := by
  rw [padOk_iff]
  intro hpart i hi hpad
  have hpast : b.length ≤ 8 * (ceil8 b.length - 1) + i := by unfold ceil8; omega
  rw [bitOfByte_getD_pack b _ hi, List.getD_eq_default _ _ hpast]

/-- Settles O41: each bit Unpack reads, and each pad bit, is the bit of `b` there, or 0 past its end. -/
theorem unpackInvertsPack : Obligations.UnpackInvertsPack := fun b => ⟨unpack_pack b, padOk_pack b⟩

end Sys2Proof.Machine
end

section
/-! PROOFS. The start check case by case, and the two ways a command ends in an error: the early error of its start
check, or a late one of its rule or of the bus (60_exceptions.md R314, R319, R321). -/

namespace Sys2Proof.Machine

/-! ### The rows of R113 and R114 as lists of commands -/

theorem needsFreq_iff (i : Instr) : (profile i).needsFreq = true ↔ i = .build := by cases i <;> decide

theorem needsTable_iff (i : Instr) : (profile i).needsTable = true ↔ i ∈ [Instr.encode, .decode, .tblStore] := by
  cases i <;> decide

theorem readsSrc_iff (i : Instr) : (profile i).readsSrc = true ↔
    i ∈ [Instr.count, .encode, .decode, .digest, .tblLoad, .compress, .decompress] := by
  cases i <;> decide

theorem writesDst_iff (i : Instr) : (profile i).writesDst = true ↔
    i ∈ [Instr.encode, .decode, .tblStore, .compress, .decompress] := by
  cases i <;> decide

/-- No command requires both flags (R314). -/
theorem needsFreq_eq_false_of_needsTable {i : Instr} (h : (profile i).needsTable = true) :
    (profile i).needsFreq = false := by
  revert h
  cases i <;> decide

/-! ### The start check, case by case (R319) -/

theorem prologue_of_freqMissing {i : Instr} {s : State} (hn : (profile i).needsFreq = true) (hv : s.freqV = false) :
    prologue i s = some (.notReady freqMask) := by
  simp [prologue, hn, hv]

theorem prologue_of_tableMissing {i : Instr} {s : State} (hn : (profile i).needsTable = true) (hv : s.tableV = false) :
    prologue i s = some (.notReady tableMask) := by
  simp [prologue, needsFreq_eq_false_of_needsTable hn, hn, hv]

theorem prologue_of_flags {i : Instr} {s : State} (hf : (profile i).needsFreq = true → s.freqV = true)
    (ht : (profile i).needsTable = true → s.tableV = true) :
    prologue i s = if rangeBits (profile i) s ≠ 0 then some (.range (rangeBits (profile i) s)) else none := by
  have hf' : ¬((profile i).needsFreq && !s.freqV) = true := by simpa using hf
  have ht' : ¬((profile i).needsTable && !s.tableV) = true := by simpa using ht
  simp only [prologue, if_neg hf', if_neg ht']

/-- ERR_INFO of RANGE is the sum of the three conditions' bits, each condition on unbounded numbers (R319, R340,
R341). -/
theorem rangeBits_eq {p : Profile} {s : State} {b0 b1 b2 : Bool}
    (h0 : b0 = true ↔ p.readsSrc = true ∧ 2 ^ 32 < s.srcAddr.toNat + s.srcLen.toNat)
    (h1 : b1 = true ↔ p.writesDst = true ∧ 2 ^ 32 < s.dstAddr.toNat + s.dstCap.toNat)
    (h2 : b2 = true ↔ p.readsSrc = true ∧ p.writesDst = true ∧ 0 < s.srcLen.toNat ∧ 0 < s.dstCap.toNat ∧
      s.srcAddr.toNat < s.dstAddr.toNat + s.dstCap.toNat ∧ s.dstAddr.toNat < s.srcAddr.toNat + s.srcLen.toNat) :
    rangeBits p s = b0.toNat + 2 * b1.toNat + 4 * b2.toNat := by
  have hsrc : (p.readsSrc && srcWraps s) = b0 := by rw [Bool.eq_iff_iff, h0]; simp [srcWraps]
  have hdst : (p.writesDst && dstWraps s) = b1 := by rw [Bool.eq_iff_iff, h1]; simp [dstWraps]
  have hboth : (p.readsSrc && p.writesDst && regionsOverlap s) = b2 := by
    rw [Bool.eq_iff_iff, h2]; simp [regionsOverlap, rangesMeet, and_assoc]
  rw [rangeBits, hsrc, hdst, hboth]

/-! ### Past the start check every error is late (R321) -/

/-- The error is none of the early classes ILLEGAL_CMD, NOT_READY and RANGE (R321). -/
def CommandError.IsLate : CommandError → Prop
  | .illegalCmd _ | .notReady _ | .range _ => False
  | .format _ _ | .integrity | .capacity _ | .bus _ | .tooLong | .uncoded _ => True

/-- The late classes, by their codes (R311). -/
theorem CommandError.isLate_iff (e : CommandError) : e.IsLate ↔ e.number ∉ [1, 4, 6] := by
  cases e <;> simp [IsLate, number]

/-- The outcome raises no early error. -/
def RuleOutcome.NoEarly : RuleOutcome → Prop
  | .success _ | .mismatch _ => True
  | .early _ => False
  | .late e => e.IsLate

theorem RuleOutcome.NoEarly.ite {c : Prop} [Decidable c] {a b : RuleOutcome} (ha : a.NoEarly) (hb : b.NoEarly) :
    (if c then a else b).NoEarly := by
  split
  · exact ha
  · exact hb

/-- Decode fails with a FORMAT error alone (R203). -/
theorem isLate_of_decodeFrom {es : List (Byte × Bits)} {i start : Nat} {cand u : Bits} {e : CommandError}
    (h : decodeFrom es i start cand u = .error e) : e.IsLate := by
  fun_induction decodeFrom es i start cand u
  case case1 | case3 => cases h
  case case4 hrec ih => exact ih (hrec.trans h)
  case case5 ih => exact ih h
  case case2 | case6 =>
    cases h
    trivial

/-- ParseEntries fails with a FORMAT error alone (R235). -/
theorem isLate_of_parseFrom {base fuel o next : Nat} {es : List (Byte × Bits)} {bs : List Byte} {e : CommandError}
    (h : parseFrom base fuel o next es bs = .error e) : e.IsLate := by
  fun_induction parseFrom base fuel o next es bs
  case case1 => cases h
  case case9 ih => exact ih h
  case case2 | case3 | case4 | case5 | case6 | case7 | case8 =>
    cases h
    trivial

theorem isLate_of_parseEntries {base : Nat} {bs : List Byte} {e : CommandError}
    (h : parseEntries base bs = .error e) : e.IsLate := by
  unfold parseEntries at h
  split at h
  · rename_i hp
    cases h
    exact isLate_of_parseFrom hp
  · split at h <;> cases h
    trivial

theorem encodeRule_noEarly (s : State) : (encodeRule s).NoEarly := by
  simp only [encodeRule]
  split
  · trivial
  · exact .ite trivial (.ite trivial trivial)

theorem decodeRule_noEarly (s : State) : (decodeRule s).NoEarly := by
  refine .ite trivial (.ite trivial (.ite trivial ?_))
  split
  · rename_i hd
    exact isLate_of_decodeFrom hd
  · exact .ite trivial trivial

theorem tblLoadRule_noEarly (s : State) : (tblLoadRule s).NoEarly := by
  refine .ite trivial (.ite trivial (.ite trivial ?_))
  split
  · rename_i hp
    exact isLate_of_parseEntries hp
  · trivial

theorem decompressBody_noEarly (b : List Byte) (l cap : Nat) : (decompressBody b l cap).NoEarly := by
  simp only [decompressBody]
  split
  · rename_i hp
    exact isLate_of_parseEntries hp
  · refine .ite trivial (.ite trivial ?_)
    split
    · rename_i hd
      exact isLate_of_decodeFrom hd
    · exact .ite trivial (.ite trivial trivial)

/-- No rule raises an early error: these are the start check's alone (R319, R321). -/
theorem ruleOf_noEarly (i : Instr) (s : State) : (ruleOf i s).NoEarly := by
  cases i
  case nop | count | build | digest => trivial
  case encode => exact encodeRule_noEarly s
  case decode => exact decodeRule_noEarly s
  case tblStore => exact .ite trivial trivial
  case tblLoad => exact tblLoadRule_noEarly s
  case compress => exact .ite trivial (.ite trivial trivial)
  case decompress =>
    exact .ite trivial (.ite trivial (.ite trivial (.ite trivial (.ite trivial (decompressBody_noEarly _ _ _)))))

/-- BUS is late, so bus errors bring no early error in (R316, R321). -/
theorem busOutcome_noEarly {o : RuleOutcome} (h : o.NoEarly) (c : Instr) (s : State) : (busOutcome c o s).NoEarly := by
  rcases busOutcome_cases c o s with hb | ⟨a, ⟨hb, -⟩ | ⟨r, -, hb, -⟩⟩ <;> rw [hb]
  · exact h
  · trivial
  · trivial

/-- A command whose outcome raises no early error completes, or ends with the class of a late one. -/
theorem settle_errCode_of_noEarly {c : Instr} {o : RuleOutcome} {s : State} (ho : o.NoEarly) (hs : s.err = false)
    (ht : (settle c o s).err = true) : (settle c o s).errCode ∉ [1, 4, 6] := by
  cases o with
  | success r => exact (Bool.false_ne_true (hs.symm.trans ht)).elim
  | early e => exact ho.elim
  | late e => exact e.isLate_iff.1 ho
  | mismatch r => exact CommandError.integrity.isLate_iff.1 trivial

/-- With no race, a command whose start check fails reports its error and changes nothing else (R321). -/
theorem exec_of_prologue_some {i : Instr} {s : State} {e : CommandError} (hr : s.NoRace)
    (hp : prologue i s = some e) : exec i s = .next (raise e s) := by
  rw [exec_eq, runCommand_early hr hp]

/-- With no race, a command that passes its start check reports none of the early classes (R321). -/
theorem exec_errCode_of_prologue_none {i : Instr} {s t : State} (hr : s.NoRace) (hp : prologue i s = none)
    (hs : s.err = false) (h : exec i s = .next t) (ht : t.err = true) : t.errCode ∉ [1, 4, 6] := by
  rw [exec_eq, runCommand_of_noRace hr, checkedOutcome_of_none hp] at h
  cases h
  exact settle_errCode_of_noEarly (busOutcome_noEarly (ruleOf_noEarly i s) i s) hs ht

/-- Settles O29: the start check raises NOT_READY for the missing flag, and RANGE or nothing once the flag is set; past
it every error is late. -/
theorem notReadyWithoutTheFlag : Obligations.NotReadyWithoutTheFlag := by
  intro s hr
  refine ⟨fun hv => ?_, fun hv i hi => ?_, fun i t hf ht hs h herr => ?_⟩
  · exact exec_of_prologue_some hr (prologue_of_freqMissing rfl hv)
  · exact exec_of_prologue_some hr (prologue_of_tableMissing ((needsTable_iff i).2 hi) hv)
  · have hp := prologue_of_flags (s := s) (hf ∘ (needsFreq_iff i).1) (ht ∘ (needsTable_iff i).1)
    by_cases hb : rangeBits (profile i) s = 0
    · rw [if_neg (not_not.2 hb)] at hp
      exact (ne_of_mem_of_not_mem (by decide) (exec_errCode_of_prologue_none hr hp hs h herr)).symm
    · rw [if_pos hb] at hp
      cases (exec_of_prologue_some hr hp).symm.trans h
      exact (by decide : (6 : BitVec 8) ≠ 4)

/-- Settles O30: the bits are those the start check sums, it raises RANGE where their sum is not 0, and past it every
error is late. -/
theorem rangeOfIllegalRegions : Obligations.RangeOfIllegalRegions := by
  rintro i s src dst r hr ht hf hsrc hdst ⟨b0, b1, b2, rfl, h0, h1, h2⟩
  rw [← readsSrc_iff] at hsrc
  rw [← writesDst_iff] at hdst
  simp only [hsrc, hdst] at h0 h1 h2
  have hp := prologue_of_flags (s := s) (hf ∘ (needsFreq_iff i).1) (ht ∘ (needsTable_iff i).1)
  rw [rangeBits_eq h0 h1 h2] at hp
  refine ⟨fun hb => ?_, fun hb t hs h herr => ?_⟩
  · exact exec_of_prologue_some hr (hp.trans (if_pos hb))
  · have hlate := exec_errCode_of_prologue_none hr (hp.trans (if_neg (not_not.2 hb))) hs h herr
    exact (ne_of_mem_of_not_mem (by decide) hlate).symm

end Sys2Proof.Machine
end

section
/-! PROOFS. The code table of a list of entries: its codes and its entries, and when it meets the code-table invariant
(10_state.md R52, R53). -/

namespace Sys2Proof.Machine

/-! ### The table of a list of entries -/

theorem conflict_comm (a b : Bits) : conflict a b = conflict b a := Bool.or_comm _ _

theorem conflict_eq_false_iff (a b : Bits) : conflict a b = false ↔ ¬a <+: b ∧ ¬b <+: a := by
  simp [conflict, ← List.isPrefixOf_iff_prefix]

theorem conflict_of_prefix {a b : Bits} (h : a <+: b) : conflict a b = true := by
  simp [conflict, List.isPrefixOf_iff_prefix.2 h]

/-- A code table by its codes. -/
theorem CodeTable.ext {t u : CodeTable} (h : ∀ x, codeOf t x = codeOf u x) : t = u := by
  refine Vector.ext fun i hi => ?_
  have := h (BitVec.ofNat 8 i)
  simpa [codeOf, Nat.mod_eq_of_lt hi] using this

/-- A listed entry is found, when no symbol is listed twice. -/
theorem codeOf_tableOf_of_mem {es : List (Byte × Bits)} (hn : (es.map Prod.fst).Nodup) {e : Byte × Bits} (he : e ∈ es) :
    codeOf (tableOf es) e.1 = e.2 := by
  induction es with
  | nil => cases he
  | cons d es ih =>
    obtain ⟨x, c⟩ := d
    simp only [List.map_cons, List.nodup_cons] at hn
    rw [codeOf_tableOf_cons]
    rcases List.mem_cons.1 he with rfl | he
    · exact if_pos rfl
    · have hne : x ≠ e.1 := fun h => hn.1 (h ▸ List.mem_map_of_mem he)
      rw [if_neg hne, ih hn.2 he]

/-- A symbol that is not listed has no code. -/
theorem codeOf_tableOf_of_not_mem {es : List (Byte × Bits)} {x : Byte} (hx : x ∉ es.map Prod.fst) :
    codeOf (tableOf es) x = [] := by
  induction es with
  | nil => exact codeOf_tableOf_nil x
  | cons d es ih =>
    obtain ⟨y, c⟩ := d
    simp only [List.map_cons, List.mem_cons, not_or] at hx
    rw [codeOf_tableOf_cons, if_neg (Ne.symm hx.1), ih hx.2]

/-- The symbols of a table's entries, ascending (R52). -/
theorem ascending_entries (t : CodeTable) : (entries t).Pairwise fun e f => e.1.toNat < f.1.toNat := by
  rw [entries_eq]
  refine List.Pairwise.filter _ (List.pairwise_map.2 ?_)
  refine List.pairwise_map.2 (List.Pairwise.imp_of_mem (fun {a b} ha hb hab => ?_) List.pairwise_lt_range)
  have ha := List.mem_range.1 ha
  have hb := List.mem_range.1 hb
  simp only [BitVec.toNat_ofNat]
  omega

/-- No symbol is listed twice in an ascending list. -/
theorem nodup_of_ascending {es : List (Byte × Bits)} (h : es.Pairwise fun e f => e.1.toNat < f.1.toNat) :
    (es.map Prod.fst).Nodup :=
  List.pairwise_map.2 (h.imp fun hlt heq => by rw [heq] at hlt; omega)

/-- Entries that make a code table, in whatever order: no symbol twice, codes of 1 to 255 bits, no two in conflict. -/
structure CodeEntries (es : List (Byte × Bits)) : Prop where
  nodup : (es.map Prod.fst).Nodup
  lengths : ∀ e ∈ es, 1 ≤ e.2.length ∧ e.2.length ≤ 255
  apart : es.Pairwise fun e f => conflict e.2 f.2 = false

theorem CodeEntries.ne_nil {es : List (Byte × Bits)} (h : CodeEntries es) {e : Byte × Bits} (he : e ∈ es) : e.2 ≠ [] :=
  List.length_pos_iff.1 (h.lengths e he).1

theorem CodeEntries.of_entriesOk {es : List (Byte × Bits)} (h : EntriesOk es) : CodeEntries es :=
  ⟨nodup_of_ascending h.ascending, h.lengths, h.apart⟩

/-- The entries of the table are those listed. -/
theorem CodeEntries.mem_entries {es : List (Byte × Bits)} (h : CodeEntries es) (e : Byte × Bits) :
    e ∈ entries (tableOf es) ↔ e ∈ es := by
  rw [Machine.mem_entries]
  constructor
  · rintro ⟨hc, hx⟩
    by_cases hm : e.1 ∈ es.map Prod.fst
    · obtain ⟨d, hd, hde⟩ := List.mem_map.1 hm
      have := codeOf_tableOf_of_mem h.nodup hd
      rwa [show e = d from Prod.ext hde.symm (by rw [hc, ← hde, this])]
    · exact absurd (hc.trans (codeOf_tableOf_of_not_mem hm)) hx
  · exact fun he => ⟨(codeOf_tableOf_of_mem h.nodup he).symm, h.ne_nil he⟩

/-- The entries of the table are those listed, in ascending order. -/
theorem CodeEntries.entries_perm {es : List (Byte × Bits)} (h : CodeEntries es) : (entries (tableOf es)).Perm es :=
  (List.perm_ext_iff_of_nodup (List.Nodup.of_map _ (nodup_of_ascending (ascending_entries _)))
    (List.Nodup.of_map _ h.nodup)).2 h.mem_entries

/-- The symbols with a code are those listed. -/
theorem CodeEntries.codeOf_ne_nil_iff {es : List (Byte × Bits)} (h : CodeEntries es) (x : Byte) :
    codeOf (tableOf es) x ≠ [] ↔ x ∈ es.map Prod.fst := by
  constructor
  · exact fun hx => by_contra fun hm => hx (codeOf_tableOf_of_not_mem hm)
  · intro hm
    obtain ⟨e, he, rfl⟩ := List.mem_map.1 hm
    exact codeOf_tableOf_of_mem h.nodup he ▸ h.ne_nil he

theorem CodeEntries.length_codeOf_le {es : List (Byte × Bits)} (h : CodeEntries es) (x : Byte) :
    (codeOf (tableOf es) x).length ≤ 255 := by
  by_cases hx : x ∈ es.map Prod.fst
  · obtain ⟨e, he, rfl⟩ := List.mem_map.1 hx
    exact codeOf_tableOf_of_mem h.nodup he ▸ (h.lengths e he).2
  · simp [codeOf_tableOf_of_not_mem hx]

/-- A table is that of its entries. -/
theorem tableOf_entries (t : CodeTable) : tableOf (entries t) = t := by
  refine CodeTable.ext fun x => ?_
  by_cases hx : codeOf t x = []
  · rw [hx, codeOf_tableOf_of_not_mem]
    rintro hm
    obtain ⟨e, he, rfl⟩ := List.mem_map.1 hm
    obtain ⟨hc, hne⟩ := (mem_entries t e).1 he
    exact hne (hc.trans hx)
  · exact codeOf_tableOf_of_mem (nodup_of_ascending (ascending_entries t)) ((mem_entries t (x, codeOf t x)).2 ⟨rfl, hx⟩)

theorem entries_eq_nil_iff (t : CodeTable) : entries t = [] ↔ ∀ x, codeOf t x = [] := by
  rw [List.eq_nil_iff_forall_not_mem]
  refine ⟨fun h x => by_contra fun hx => h (x, codeOf t x) ((mem_entries t _).2 ⟨rfl, hx⟩), fun h e he => ?_⟩
  obtain ⟨hc, hne⟩ := (mem_entries t e).1 he
  exact hne (hc.trans (h e.1))

/-! ### When the table meets R53 -/

/-- A single code is "0" (R53 item 2). -/
theorem entriesComplete_singleton (e : Byte × Bits) : entriesComplete [e] = true ↔ e.2 = [false] := by
  simp [entriesComplete]

/-- Two codes or more meet Kraft's equality (R53 item 3). -/
theorem entriesComplete_of_two_le {es : List (Byte × Bits)} (h : 2 ≤ es.length) :
    entriesComplete es = true ↔ kraftSum es = 2 ^ 255 := by
  match es, h with
  | _ :: _ :: _, _ => exact beq_iff_eq

theorem kraftSum_perm {es fs : List (Byte × Bits)} (h : es.Perm fs) : kraftSum es = kraftSum fs :=
  (h.map _).sum_eq

/-- Entries that are complete make a table of R53. -/
theorem CodeEntries.tableOk {es : List (Byte × Bits)} (h : CodeEntries es) (hc : entriesComplete es = true) :
    TableOk (tableOf es) where
  prefixFree x y hxy hx hy := by
    have hmem : ∀ z, codeOf (tableOf es) z ≠ [] → (z, codeOf (tableOf es) z) ∈ es := fun z hz =>
      (h.mem_entries _).1 ((Machine.mem_entries _ _).2 ⟨rfl, hz⟩)
    have : Std.Symm fun e f : Byte × Bits => conflict e.2 f.2 = false := ⟨fun _ _ h => (conflict_comm _ _).trans h⟩
    exact h.apart.forall (hmem x hx) (hmem y hy) fun heq => hxy (congrArg Prod.fst heq)
  single e he := by
    have hp := h.entries_perm
    rw [he] at hp
    rwa [hp.symm.eq_singleton, entriesComplete_singleton] at hc
  complete hl :=
    (kraftSum_perm h.entries_perm).trans ((entriesComplete_of_two_le (h.entries_perm.length_eq ▸ hl)).1 hc)

/-- A table of R53 has complete entries. -/
theorem TableOk.entriesComplete {t : CodeTable} (h : TableOk t) : entriesComplete (entries t) = true := by
  rcases hl : entries t with _ | ⟨e, _ | ⟨f, es⟩⟩
  · rfl
  · exact (entriesComplete_singleton e).2 (h.single e hl)
  · have h2 : 2 ≤ (entries t).length := by simp [hl]
    exact hl ▸ (entriesComplete_of_two_le h2).2 (h.complete h2)

/-- The entries of a table of R53 are what ParseEntries accepts (R235). -/
theorem TableOk.entriesOk {t : CodeTable} (h : TableOk t) (hs : ∀ x, (codeOf t x).length ≤ 255) :
    EntriesOk (entries t) where
  ascending := ascending_entries t
  lengths e he := by
    obtain ⟨hc, hne⟩ := (mem_entries t e).1 he
    exact ⟨List.length_pos_iff.2 hne, hc ▸ hs e.1⟩
  apart := by
    refine (ascending_entries t).imp_of_mem fun {e f} he hf hef => ?_
    obtain ⟨hce, hne⟩ := (mem_entries t e).1 he
    obtain ⟨hcf, hnf⟩ := (mem_entries t f).1 hf
    rw [hce, hcf]
    exact h.prefixFree _ _ (fun heq => by rw [heq] at hef; omega) (hce ▸ hne) (hcf ▸ hnf)

/-- Good entries that are complete make a table of R53 with codes of at most 255 bits (R236). -/
theorem EntriesOk.tableOk {es : List (Byte × Bits)} (h : EntriesOk es) (hc : entriesComplete es = true) :
    TableOk (tableOf es) ∧ ∀ x, (codeOf (tableOf es) x).length ≤ 255 :=
  have he := CodeEntries.of_entriesOk h
  ⟨he.tableOk hc, he.length_codeOf_le⟩

end Sys2Proof.Machine
end

section
/-! PROOFS. The table BUILD makes (O37): the symbols and codes of a code tree, the merges of the tree builder, and the
entries they give (40_count_build.md R145 to R155). -/

namespace Sys2Proof.Machine

/-! ### The codes of a tree -/

/-- The symbols at the leaves of a tree, from left to right. -/
def Tree.syms : Tree → List Byte
  | .leaf x => [x]
  | .node l r => l.syms ++ r.syms

theorem Tree.syms_length_pos (t : Tree) : 0 < t.syms.length := by
  induction t with
  | leaf x => exact Nat.one_pos
  | node l r ihl ihr => simp only [syms, List.length_append]; omega

/-- A tree gives one code to each leaf (R152). -/
theorem Tree.map_fst_codes (t : Tree) (p : Bits) : (t.codes p).map Prod.fst = t.syms := by
  induction t generalizing p with
  | leaf x => rfl
  | node l r ihl ihr => simp only [codes, syms, List.map_append, ihl, ihr]

/-- A code begins with the string that leads to its subtree (R152). -/
theorem Tree.prefix_of_mem_codes {t : Tree} {p : Bits} {e : Byte × Bits} (he : e ∈ t.codes p) : p <+: e.2 := by
  induction t generalizing p with
  | leaf x => exact List.mem_singleton.1 he ▸ List.prefix_rfl
  | node l r ihl ihr =>
    rcases List.mem_append.1 he with he | he
    · exact (List.prefix_append p _).trans (ihl he)
    · exact (List.prefix_append p _).trans (ihr he)

/-- Two strings that part after `p` are apart. -/
theorem conflict_eq_false_of_diverge {p a b : Bits} (ha : p ++ [false] <+: a) (hb : p ++ [true] <+: b) :
    conflict a b = false := by
  obtain ⟨a, rfl⟩ := ha
  obtain ⟨b, rfl⟩ := hb
  rw [conflict_eq_false_iff]
  simp [List.prefix_append_right_inj]

/-- The codes of a tree are apart: left of a node they go on with 0, right of it with 1 (R152). -/
theorem Tree.codes_apart (t : Tree) (p : Bits) : (t.codes p).Pairwise fun e f => conflict e.2 f.2 = false := by
  induction t generalizing p with
  | leaf x => exact List.pairwise_singleton _ _
  | node l r ihl ihr =>
    exact List.pairwise_append.2 ⟨ihl _, ihr _, fun e he f hf =>
      conflict_eq_false_of_diverge (prefix_of_mem_codes he) (prefix_of_mem_codes hf)⟩

/-- A code is at most as long as there are other leaves. -/
theorem Tree.length_lt_of_mem_codes {t : Tree} {p : Bits} {e : Byte × Bits} (he : e ∈ t.codes p) :
    e.2.length < p.length + t.syms.length := by
  induction t generalizing p with
  | leaf x => simp [List.mem_singleton.1 he, syms]
  | node l r ihl ihr =>
    have hl := l.syms_length_pos
    have hr := r.syms_length_pos
    simp only [syms, List.length_append]
    rcases List.mem_append.1 he with he | he
    · have := ihl he; simp only [List.length_append, List.length_singleton] at this; omega
    · have := ihr he; simp only [List.length_append, List.length_singleton] at this; omega

/-- A tree's codes fill the interval of its string: the two halves of a node add up (Kraft's equality, R53). -/
theorem Tree.kraftSum_codes {t : Tree} {p : Bits} (h : p.length + t.syms.length ≤ 256) :
    kraftSum (t.codes p) = 2 ^ (255 - p.length) := by
  induction t generalizing p with
  | leaf x => simp [codes, kraftSum]
  | node l r ihl ihr =>
    have hl := l.syms_length_pos
    have hr := r.syms_length_pos
    simp only [syms, List.length_append] at h
    have hsum : kraftSum ((Tree.node l r).codes p) =
        kraftSum (l.codes (p ++ [false])) + kraftSum (r.codes (p ++ [true])) := by
      simp only [codes, kraftSum, List.map_append, List.sum_append]
    rw [hsum, ihl (by simp; omega), ihr (by simp; omega)]
    simp only [List.length_append, List.length_singleton]
    rw [← two_mul, ← pow_succ']
    congr 1
    omega

/-! ### The merges of the tree builder -/

/-- Merging ends with one tree over all the nodes' leaves: every merge takes two nodes and leaves one (R147, R148). -/
theorem mergeAll_eq_some {fuel k : Nat} {q : List Node} (hq : q ≠ []) (hf : q.length ≤ fuel + 1) :
    ∃ t, mergeAll fuel k q = some t ∧ t.syms.Perm (q.flatMap fun n => n.tree.syms) := by
  induction fuel generalizing k q with
  | zero =>
    match q, hq, hf with
    | [x], _, _ => exact ⟨x.tree, rfl, by simp⟩
  | succ fuel ih =>
    match q, hq, hf with
    | [x], _, _ => exact ⟨x.tree, mergeAll_singleton _ _ _, by simp⟩
    | x :: y :: q, _, hf =>
      obtain ⟨a, rest, ha⟩ : ∃ a rest, extractMin x (y :: q) = (a, rest) := ⟨_, _, rfl⟩
      have hp := extractMin_perm x (y :: q)
      rw [ha] at hp
      obtain ⟨z, r, rfl⟩ : ∃ z r, rest = z :: r :=
        List.exists_cons_of_length_eq_add_one (n := q.length) (by simpa using hp.length_eq)
      have hp' := extractMin_perm z r
      obtain ⟨b, r', hb⟩ : ∃ b r', extractMin z r = (b, r') := ⟨_, _, rfl⟩
      rw [hb] at hp'
      have hall : (a :: b :: r').Perm (x :: y :: q) := (hp'.cons a).trans hp
      obtain ⟨t, ht, hsyms⟩ := ih (k := k + 1) (q := mergeNodes k a b :: r') (List.cons_ne_nil _ _) (by
        have := hall.length_eq
        simp only [List.length_cons] at this hf ⊢
        omega)
      refine ⟨t, by rw [mergeAll, ha]; simpa only [hb] using ht, hsyms.trans ?_⟩
      have hflat := hall.flatMap_right fun n => n.tree.syms
      simpa [mergeNodes, Tree.syms] using hflat

/-! ### The entries BuildTable gives -/

/-- The symbols with a count, ascending. -/
def counted (f : FreqTable) : List Byte := symbols.filter fun x => countOf f x != 0

theorem mem_counted (f : FreqTable) (x : Byte) : x ∈ counted f ↔ countOf f x ≠ 0 := by
  simp [counted, mem_symbols]

theorem length_counted_le (f : FreqTable) : (counted f).length ≤ 256 :=
  (List.length_filter_le _ _).trans length_symbols.le

theorem leaves_eq_counted (f : FreqTable) : leaves f = (counted f).map (leafOf f) := leaves_eq f

/-- The codes of BuildTable: none for no counted symbol, "0" for one, else those of a tree over the counted symbols
(R149 to R152). -/
theorem buildEntries_cases (f : FreqTable) :
    (counted f = [] ∧ buildEntries f = []) ∨ (∃ x, counted f = [x] ∧ buildEntries f = [(x, [false])]) ∨
      ∃ t : Tree, 2 ≤ t.syms.length ∧ t.syms.Perm (counted f) ∧ buildEntries f = t.codes [] := by
  have hl := leaves_eq_counted f
  rcases hc : counted f with _ | ⟨x, _ | ⟨y, xs⟩⟩
  · exact Or.inl ⟨rfl, by simp [buildEntries, hl, hc]⟩
  · exact Or.inr (Or.inl ⟨x, rfl, by simp [buildEntries, hl, hc, leafOf, Tree.codes]⟩)
  · have h2 : 2 ≤ (leaves f).length := by simp [hl, hc]
    obtain ⟨t, ht, hsyms⟩ := mergeAll_eq_some (k := 0) (q := leaves f) (List.length_pos_iff.1 (by omega)) (Nat.le_succ _)
    have hp : t.syms.Perm (counted f) := by
      simpa [hl, List.flatMap_map, leafOf, Tree.syms] using hsyms
    exact Or.inr (Or.inr ⟨t, by rw [hp.length_eq, hc]; simp, hc ▸ hp, buildEntries_of_mergeAll h2 ht⟩)

/-- The entries of BuildTable meet R53, for exactly the counted symbols (R156 items 1 to 3). -/
theorem buildEntries_spec (f : FreqTable) :
    CodeEntries (buildEntries f) ∧ entriesComplete (buildEntries f) = true ∧
      ((buildEntries f).map Prod.fst).Perm (counted f) := by
  rcases buildEntries_cases f with ⟨hc, hb⟩ | ⟨x, hc, hb⟩ | ⟨t, h2, hp, hb⟩ <;> rw [hb]
  · exact ⟨⟨List.nodup_nil, nofun, List.Pairwise.nil⟩, rfl, by simp [hc]⟩
  · exact ⟨⟨List.nodup_singleton x, by simp, List.pairwise_singleton _ _⟩, rfl, by simp [hc]⟩
  · have hlen := hp.length_eq
    have hle := length_counted_le f
    have htwo : 2 ≤ (t.codes []).length := by
      rw [← List.length_map (f := Prod.fst), t.map_fst_codes]; exact h2
    refine ⟨⟨?_, fun e he => ⟨?_, ?_⟩, t.codes_apart []⟩, ?_, ?_⟩
    · rw [t.map_fst_codes]
      exact hp.nodup_iff.2 (nodup_symbols.filter _)
    · match t, he, h2 with
      | .node l r, he, _ =>
        rcases List.mem_append.1 he with he | he <;> exact (Tree.prefix_of_mem_codes he).length_le
    · have := Tree.length_lt_of_mem_codes he
      simp only [List.length_nil] at this
      omega
    · rw [entriesComplete_of_two_le htwo, Tree.kraftSum_codes (by simp; omega)]
      rfl
    · rw [t.map_fst_codes]; exact hp

/-- BuildTable gives a table of R53 (R156 items 2 and 3). -/
theorem tableOk_buildTable (f : FreqTable) : TableOk (buildTable f) :=
  have ⟨he, hc, _⟩ := buildEntries_spec f
  he.tableOk hc

theorem length_codeOf_buildTable_le (f : FreqTable) (x : Byte) : (codeOf (buildTable f) x).length ≤ 255 :=
  (buildEntries_spec f).1.length_codeOf_le x

/-- BuildTable gives a code to exactly the counted symbols (R156 item 1). -/
theorem codeOf_buildTable_ne_nil_iff (f : FreqTable) (x : Byte) : codeOf (buildTable f) x ≠ [] ↔ countOf f x ≠ 0 :=
  have ⟨he, _, hp⟩ := buildEntries_spec f
  (he.codeOf_ne_nil_iff x).trans (hp.mem_iff.trans (mem_counted f x))

/-- Settles O37: BUILD stores BuildTable of its counts, whose entries are the codes of a tree over the counted
symbols. -/
theorem builtTableIsACompletePrefixCode : Obligations.BuiltTableIsACompletePrefixCode := by
  intro s t hr hv hexec
  rw [code_of_exec_build hr hv hexec]
  refine ⟨tableOk_buildTable _, fun x => ⟨?_, length_codeOf_buildTable_le _ x⟩⟩
  have hzero : countOf s.freq x = 0 ↔ s.freq[x.toNat]'x.isLt = 0 := (BitVec.toNat_eq (y := 0)).symm
  exact (codeOf_buildTable_ne_nil_iff _ x).trans (not_congr hzero)

end Sys2Proof.Machine
end

section
/-! PROOFS. ParseEntries (43_container.md R233 to R237): it reads good entries one after the other, what it accepts
meets the code-table invariant (O50), and it gives a serialized table back (O49). -/

namespace Sys2Proof.Machine

@[simp] theorem length_entryBytes (e : Byte × Bits) : (entryBytes e).length = 2 + ceil8 e.2.length := by
  simp only [entryBytes, List.length_cons, length_pack]
  omega

/-- One good entry is read (R235). -/
theorem parseFrom_entry {base fuel o next : Nat} {acc : List (Byte × Bits)} {e : Byte × Bits} (r : List Byte)
    (hl : 1 ≤ e.2.length ∧ e.2.length ≤ 255) (hs : next ≤ e.1.toNat) (ha : ∀ d ∈ acc, conflict d.2 e.2 = false) :
    parseFrom base (fuel + 1) o next acc (entryBytes e ++ r) =
      parseFrom base fuel (o + (entryBytes e).length) (e.1.toNat + 1) (acc ++ [e]) r := by
  obtain ⟨x, c⟩ := e
  obtain ⟨h1, h255⟩ : 1 ≤ c.length ∧ c.length ≤ 255 := hl
  have hlen : (BitVec.ofNat 8 c.length).toNat = c.length := by
    rw [BitVec.toNat_ofNat]; exact Nat.mod_eq_of_lt (by omega)
  have hzero : BitVec.ofNat 8 c.length ≠ 0 := fun h => by
    rw [h] at hlen; simp at hlen; omega
  have htake : (pack c ++ r).take (ceil8 c.length) = pack c := List.take_left' (length_pack c)
  have hdrop : (pack c ++ r).drop (ceil8 c.length) = r := List.drop_left' (length_pack c)
  have hany : (acc.any fun d => conflict d.2 c) = false := by simpa using ha
  have hroom : ¬(pack c ++ r).length < ceil8 c.length := by simp
  simp only [entryBytes, List.cons_append, parseFrom, hlen, htake, hdrop, unpack_pack, padOk_pack, hany, hzero, hroom,
    Nat.not_lt.2 hs, if_false, Bool.not_true, Bool.false_eq_true, List.length_cons, length_pack]
  congr 1
  omega

/-- Good entries are read one after the other; what follows them is held to the greatest of their symbols (R235). -/
theorem parseFrom_entries {base fuel o next : Nat} {acc es : List (Byte × Bits)} (r : List Byte)
    (h : EntriesOk (acc ++ es)) (hs : ∀ e ∈ es, next ≤ e.1.toNat) :
    ∃ n, (∀ x, n ≤ x ↔ next ≤ x ∧ ∀ e ∈ es, e.1.toNat < x) ∧
      parseFrom base (es.length + fuel) o next acc (es.flatMap entryBytes ++ r) =
        parseFrom base fuel (o + (es.flatMap entryBytes).length) n (acc ++ es) r := by
  induction es generalizing acc next o with
  | nil => exact ⟨next, by simp, by simp⟩
  | cons e es ih =>
    have happ : acc ++ e :: es = acc ++ [e] ++ es := by simp
    have hasc := (List.pairwise_append.1 h.ascending).2.1
    have hapart := (List.pairwise_append.1 h.apart).2.2
    have hse := hs e List.mem_cons_self
    obtain ⟨n, hn, hp⟩ := ih (o := o + (entryBytes e).length) (next := e.1.toNat + 1) (happ ▸ h)
      fun f hf => (List.pairwise_cons.1 hasc).1 f hf
    refine ⟨n, fun x => ?_, ?_⟩
    · rw [hn x, List.forall_mem_cons]
      constructor
      · exact fun ⟨h1, h2⟩ => ⟨by omega, h1, h2⟩
      · exact fun ⟨_, h1, h2⟩ => ⟨h1, h2⟩
    · have hone := parseFrom_entry (base := base) (fuel := es.length + fuel) (o := o) (es.flatMap entryBytes ++ r)
        (h.lengths e (by simp)) hse fun d hd => hapart d hd e List.mem_cons_self
      rw [List.flatMap_cons, List.append_assoc, happ, List.length_append, ← Nat.add_assoc, ← hp, ← hone, List.length_cons]
      congr 1
      omega

/-- An entry takes at least one byte, so the fuel ParseEntries starts with is enough. -/
theorem length_le_length_flatMap_entryBytes (es : List (Byte × Bits)) : es.length ≤ (es.flatMap entryBytes).length := by
  induction es with
  | nil => exact Nat.le_refl _
  | cons e es ih => simp only [List.flatMap_cons, List.length_append, List.length_cons, length_entryBytes]; omega

/-- ParseEntries reads the good entries it begins with; `n` is the least symbol it accepts next (R235). -/
theorem parseFrom_append {es : List (Byte × Bits)} (base : Nat) (r : List Byte) (h : EntriesOk es) :
    ∃ n fuel, (∀ x, n ≤ x ↔ ∀ e ∈ es, e.1.toNat < x) ∧ r.length ≤ fuel ∧
      parseFrom base (es.flatMap entryBytes ++ r).length 0 0 [] (es.flatMap entryBytes ++ r) =
        parseFrom base fuel (es.flatMap entryBytes).length n es r := by
  have hlen := length_le_length_flatMap_entryBytes es
  let fuel := (es.flatMap entryBytes).length - es.length + r.length
  obtain ⟨n, hn, hp⟩ := parseFrom_entries (base := base) (acc := []) (o := 0) (next := 0) (fuel := fuel) r h
    fun _ _ => Nat.zero_le _
  refine ⟨n, fuel, fun x => by simpa using hn x, Nat.le_add_left _ _, ?_⟩
  rw [Nat.zero_add, List.nil_append] at hp
  rw [← hp, List.length_append]
  congr 1
  omega

theorem parseEntries_of_ok {base : Nat} {bs : List Byte} {es : List (Byte × Bits)}
    (h : parseFrom base bs.length 0 0 [] bs = .ok es) :
    parseEntries base bs = if entriesComplete es then .ok (tableOf es) else .error (.format .incompleteCode base) := by
  rw [parseEntries, h]

theorem parseEntries_of_error {base : Nat} {bs : List Byte} {e : CommandError}
    (h : parseFrom base bs.length 0 0 [] bs = .error e) : parseEntries base bs = .error e := by
  rw [parseEntries, h]

/-- Good entries with nothing after them are all there is (R235). -/
theorem parseEntries_entries {es : List (Byte × Bits)} (base : Nat) (h : EntriesOk es) :
    parseEntries base (es.flatMap entryBytes) =
      if entriesComplete es then .ok (tableOf es) else .error (.format .incompleteCode base) := by
  obtain ⟨n, fuel, -, -, hp⟩ := parseFrom_append base [] h
  rw [List.append_nil] at hp
  exact parseEntries_of_ok (hp.trans (by simp [parseFrom]))

/-! ### What ParseEntries accepts -/

/-- Adding an entry that passes R235's checks. -/
theorem EntriesOk.append_singleton {es : List (Byte × Bits)} (h : EntriesOk es) {x : Byte} {c : Bits}
    (hs : ∀ e ∈ es, e.1.toNat < x.toNat) (hc : 1 ≤ c.length ∧ c.length ≤ 255)
    (ha : ∀ e ∈ es, conflict e.2 c = false) : EntriesOk (es ++ [(x, c)]) where
  ascending := List.pairwise_append.2 ⟨h.ascending, List.pairwise_singleton _ _, by simpa using hs⟩
  lengths e he := by
    rcases List.mem_append.1 he with he | he
    · exact h.lengths e he
    · exact List.mem_singleton.1 he ▸ hc
  apart := List.pairwise_append.2 ⟨h.apart, List.pairwise_singleton _ _, by simpa using ha⟩

/-- Every entry that is read passes the checks of R235. -/
theorem entriesOk_of_parseFrom {base fuel o next : Nat} {acc es : List (Byte × Bits)} {bs : List Byte}
    (h : EntriesOk acc) (hs : ∀ e ∈ acc, e.1.toNat < next) (hp : parseFrom base fuel o next acc bs = .ok es) :
    EntriesOk es := by
  fun_induction parseFrom base fuel o next acc bs
  case case1 => exact Except.ok.inj hp ▸ h
  case case2 | case3 | case4 | case5 | case6 | case7 | case8 => cases hp
  case case9 fuel o next acc x l rest nb c hl hroom hord hpad hany ih =>
    have hx : next ≤ x.toNat := Nat.not_lt.1 hord
    have hpos : 1 ≤ l.toNat := Nat.pos_of_ne_zero fun h0 => hl (BitVec.eq_of_toNat_eq h0)
    refine ih (h.append_singleton (fun e he => (hs e he).trans_le hx) ?_ ?_) ?_ hp
    · rw [length_unpack]
      exact ⟨hpos, Nat.le_of_lt_succ l.isLt⟩
    · simpa using hany
    · intro e he
      rcases List.mem_append.1 he with he | he
      · exact Nat.lt_succ_of_lt ((hs e he).trans_le hx)
      · rw [List.mem_singleton.1 he]; exact Nat.lt_succ_self _

/-- A parsed table is that of good and complete entries (R235, R236). -/
theorem tableOk_of_parseEntries {base : Nat} {bs : List Byte} {t : CodeTable} (h : parseEntries base bs = .ok t) :
    TableOk t ∧ ∀ x, (codeOf t x).length ≤ 255 := by
  rcases hp : parseFrom base bs.length 0 0 [] bs with e | es
  · rw [parseEntries_of_error hp] at h; cases h
  · rw [parseEntries_of_ok hp] at h
    split at h
    · rename_i hc
      cases h
      exact (entriesOk_of_parseFrom ⟨List.Pairwise.nil, nofun, List.Pairwise.nil⟩ nofun hp).tableOk hc
    · cases h

/-- Settles O50: what the parser accepts are ascending entries with codes that are apart and complete. -/
theorem parsedTableIsACompletePrefixCode : Obligations.ParsedTableIsACompletePrefixCode :=
  fun _ _ _ h => tableOk_of_parseEntries h

/-! ### The table round trip -/

/-- A code has at most 32 bytes, so an entry has at most 34. -/
theorem length_tableBytes_le {t : CodeTable} (hs : ∀ x, (codeOf t x).length ≤ 255) : (tableBytes t).length ≤ 8704 := by
  have hentry : ∀ e ∈ entries t, (entryBytes e).length ≤ 34 := fun e he => by
    have := hs e.1
    rw [length_entryBytes, ((mem_entries t e).1 he).1]
    unfold ceil8
    omega
  have hcount : (entries t).length ≤ 256 := by
    rw [entries_eq]
    exact (List.length_filter_le _ _).trans (by simp)
  calc (tableBytes t).length
      = ((entries t).map fun e => (entryBytes e).length).sum := by rw [tableBytes, List.length_flatMap]
    _ ≤ (entries t).length * 34 := by
      simpa using List.sum_le_card_nsmul _ 34 (List.forall_mem_map.2 hentry)
    _ ≤ 8704 := by omega

/-- Parsing the entry bytes of a table of R53 gives the table back (R237). -/
theorem parseEntries_tableBytes {t : CodeTable} (base : Nat) (h : TableOk t) (hs : ∀ x, (codeOf t x).length ≤ 255) :
    parseEntries base (tableBytes t) = .ok t := by
  rw [tableBytes, parseEntries_entries base (h.entriesOk hs), h.entriesComplete, if_pos rfl, tableOf_entries]

/-- Settles O49: the entries of a table of R53 are good and complete, so they are read back, and their table is the
table. -/
theorem tableRoundTrip : Obligations.TableRoundTrip := fun _ base h hs =>
  ⟨rfl, length_tableBytes_le hs, parseEntries_tableBytes base h hs⟩

end Sys2Proof.Machine
end

section
/-! PROOFS. Unpacking and decoding: Pack undoes Unpack where the pads are 0, and what Decode gives on whole codes, on
bits that leave every code and on bits that end inside one (42_decode.md R200 to R205). -/

namespace Sys2Proof.Machine

/-! ### Pack undoes Unpack -/

/-- A byte by its bits. -/
theorem byte_ext {a b : Byte} (h : ∀ i < 8, bitOfByte a i = bitOfByte b i) : a = b := by
  refine BitVec.eq_of_getLsbD_eq fun i hi => ?_
  have := h (7 - i) (by omega)
  rwa [bitOfByte, bitOfByte, show 7 - (7 - i) = i by omega] at this

theorem getD_unpack (d : List Byte) (l k : Nat) :
    (unpack d l).getD k false = if k < l then bitOfByte (d.getD (k / 8) 0) (k % 8) else false := by
  by_cases hk : k < l
  · rw [if_pos hk, List.getD_eq_getElem _ _ (by simpa using hk)]
    simp [unpack]
  · rw [if_neg hk, List.getD_eq_default _ _ (by simpa using hk)]

/-- Bytes whose pad bits are 0 are packed again from their bits (R182, R200, R201). -/
theorem pack_unpack {d : List Byte} {l : Nat} (hd : d.length = ceil8 l) (hp : padOk d l = true) :
    pack (unpack d l) = d := by
  refine List.ext_getElem (by simp [hd]) fun j h1 h2 => ?_
  rw [← List.getD_eq_getElem _ 0 h1, ← List.getD_eq_getElem _ 0 h2]
  refine byte_ext fun i hi => ?_
  rw [bitOfByte_getD_pack _ _ hi, getD_unpack, show (8 * j + i) / 8 = j by omega, show (8 * j + i) % 8 = i by omega]
  by_cases hk : 8 * j + i < l
  · rw [if_pos hk]
  · have hj : j = ceil8 l - 1 := by unfold ceil8 at hd ⊢; omega
    rw [if_neg hk, hj]
    refine ((padOk_iff d l).1 hp ?_ i hi ?_).symm <;> unfold ceil8 at hd hj <;> omega

/-! ### Looking a code up -/

/-- A code is found as the entry of its symbol: no other symbol has the same code (R53). -/
theorem TableOk.find?_entries {t : CodeTable} (h : TableOk t) {x : Byte} (hx : codeOf t x ≠ []) :
    (entries t).find? (fun e => e.2 == codeOf t x) = some (x, codeOf t x) := by
  have hmem := (mem_entries t (x, codeOf t x)).2 ⟨rfl, hx⟩
  rcases hf : (entries t).find? (fun e => e.2 == codeOf t x) with _ | e
  · exact absurd (List.find?_eq_none.1 hf _ hmem) (by simp)
  · have hcode : e.2 = codeOf t x := by simpa using List.find?_some hf
    obtain ⟨hc, hne⟩ := (mem_entries t e).1 (List.mem_of_find?_eq_some hf)
    have hsym : e.1 = x := by_contra fun hne' => by
      have := h.prefixFree e.1 x hne' (hc ▸ hne) hx
      rw [← hc, hcode, conflict_of_prefix List.prefix_rfl] at this
      cases this
    exact hf.trans <| congrArg some (Prod.ext (x := e) (y := (x, codeOf t x)) hsym hcode)

theorem find?_entries_eq_none {t : CodeTable} {c : Bits} (h : ∀ y, codeOf t y ≠ c) :
    (entries t).find? (fun e => e.2 == c) = none :=
  List.find?_eq_none.2 fun e he => by
    rw [((mem_entries t e).1 he).1]
    simpa using h e.1

theorem any_isPrefixOf_entries {t : CodeTable} {c : Bits} :
    ((entries t).any fun e => c.isPrefixOf e.2) = true ↔ ∃ y, codeOf t y ≠ [] ∧ c <+: codeOf t y := by
  simp only [List.any_eq_true, List.isPrefixOf_iff_prefix]
  constructor
  · rintro ⟨e, he, hp⟩
    obtain ⟨hc, hne⟩ := (mem_entries t e).1 he
    exact ⟨e.1, hc ▸ hne, hc ▸ hp⟩
  · rintro ⟨y, hy, hp⟩
    exact ⟨(y, codeOf t y), (mem_entries t _).2 ⟨rfl, hy⟩, hp⟩

/-- The beginning of a code is no code (R53 item 1). -/
theorem TableOk.codeOf_ne_of_beginsCode {t : CodeTable} (h : TableOk t) {c : Bits} (hb : BeginsCode t c) (hc : c ≠ [])
    (y : Byte) : codeOf t y ≠ c := by
  rintro rfl
  obtain ⟨x, z, hz, hx⟩ := hb
  have hne : y ≠ x := by
    rintro rfl
    exact hz (by simpa using hx)
  have := h.prefixFree y x hne hc (by rw [hx]; simp [hc])
  rw [hx, conflict_of_prefix (List.prefix_append _ _)] at this
  cases this

theorem BeginsCode.of_append {t : CodeTable} {c d : Bits} (h : BeginsCode t (c ++ d)) : BeginsCode t c := by
  obtain ⟨x, z, hz, hx⟩ := h
  exact ⟨x, d ++ z, by simp [hz], by rw [hx, List.append_assoc]⟩

/-! ### What Decode does -/

/-- Bits that begin a code are collected (R203). -/
theorem TableOk.decodeFrom_begins {t : CodeTable} (h : TableOk t) {c cand : Bits} {i start : Nat} (u : Bits)
    (hb : c = [] ∨ BeginsCode t (cand ++ c)) (hs : cand = [] → start = i) :
    decodeFrom (entries t) i start cand (c ++ u) = decodeFrom (entries t) (i + c.length) start (cand ++ c) u := by
  induction c generalizing cand i with
  | nil => simp
  | cons b c ih =>
    have happ : cand ++ b :: c = cand ++ [b] ++ c := by simp
    have hb' : BeginsCode t (cand ++ [b] ++ c) := happ ▸ hb.resolve_left (List.cons_ne_nil b c)
    have hfind := find?_entries_eq_none (h.codeOf_ne_of_beginsCode hb'.of_append (by simp))
    have hany : ((entries t).any fun e => (cand ++ [b]).isPrefixOf e.2) = true := by
      obtain ⟨y, z, hz, hy⟩ := hb'.of_append
      exact any_isPrefixOf_entries.2 ⟨y, by simp [hy], hy ▸ List.prefix_append _ _⟩
    have hstart : (if cand.isEmpty = true then i else start) = start := by
      split
      · rename_i he
        exact (hs (List.isEmpty_iff.1 he)).symm
      · rfl
    rw [List.cons_append, decodeFrom, hfind]
    simp only [hany, if_true, hstart]
    rw [ih (Or.inr hb') (by simp), happ, List.length_cons, show i + 1 + c.length = i + (c.length + 1) by omega]

/-- A whole code is decoded to its symbol (R203). -/
theorem TableOk.decodeFrom_code {t : CodeTable} (h : TableOk t) {x : Byte} (hx : codeOf t x ≠ []) (i : Nat) (u : Bits) :
    decodeFrom (entries t) i i [] (codeOf t x ++ u) =
      (decodeFrom (entries t) (i + (codeOf t x).length) (i + (codeOf t x).length) [] u).map (x :: ·) := by
  obtain ⟨c, b, hc⟩ : ∃ c b, codeOf t x = c ++ [b] := ⟨_, _, (List.dropLast_append_getLast hx).symm⟩
  have hb : BeginsCode t ([] ++ c) := ⟨x, [b], by simp, hc⟩
  have hfind := h.find?_entries hx
  rw [hc] at hfind ⊢
  rw [List.append_assoc, h.decodeFrom_begins _ (Or.inr hb) fun _ => rfl, List.nil_append, List.singleton_append,
    decodeFrom, hfind, List.length_append, List.length_singleton, Nat.add_assoc]
  simp only
  split <;> rename_i hd <;> rw [hd] <;> rfl

/-- Whole codes are decoded to their symbols (R203, R205). -/
theorem TableOk.decodeFrom_codes {t : CodeTable} (h : TableOk t) {b : List Byte} (hb : ∀ x ∈ b, codeOf t x ≠ [])
    (i : Nat) (u : Bits) :
    decodeFrom (entries t) i i [] (b.flatMap (codeOf t) ++ u) =
      (decodeFrom (entries t) (i + (b.flatMap (codeOf t)).length) (i + (b.flatMap (codeOf t)).length) [] u).map
        (b ++ ·) := by
  induction b generalizing i with
  | nil => cases hd : decodeFrom (entries t) i i [] u <;> simp [hd, Except.map]
  | cons x b ih =>
    rw [List.forall_mem_cons] at hb
    rw [List.flatMap_cons, List.append_assoc, h.decodeFrom_code hb.1, ih hb.2, List.length_append, ← Nat.add_assoc]
    cases decodeFrom (entries t) _ _ [] u <;> rfl

/-- Decode undoes Enc (R205 item 1). -/
theorem TableOk.decodeBits_codes {t : CodeTable} (h : TableOk t) {b : List Byte} (hb : ∀ x ∈ b, codeOf t x ≠ []) :
    decodeBits t (b.flatMap (codeOf t)) = .ok b := by
  have := h.decodeFrom_codes hb 0 []
  rw [List.append_nil] at this
  simpa [decodeBits, decodeFrom, Except.map] using this

/-- INVALID_CODE at the bit that leaves every code (R203). -/
theorem TableOk.decodeBits_leavesCodes {t : CodeTable} (h : TableOk t) {u : Bits} {i : Nat} (hu : LeavesCodes t u i) :
    decodeBits t u = .error (.format .invalidCode i) := by
  obtain ⟨b, c, x, r, rfl, hb, hc, hx, rfl⟩ := hu
  have hfind := find?_entries_eq_none fun y hy => hx y (hy ▸ List.prefix_rfl)
  have hany : ((entries t).any fun e => (c ++ [x]).isPrefixOf e.2) ≠ true := fun hany =>
    have ⟨y, _, hy⟩ := any_isPrefixOf_entries.1 hany
    hx y hy
  rw [decodeBits, List.append_assoc, h.decodeFrom_codes hb, h.decodeFrom_begins _ (by simpa using hc) fun _ => rfl,
    List.nil_append, decodeFrom, hfind]
  simp only [if_neg hany, Nat.zero_add]
  rfl

/-- TRUNCATED_CODE at the first bit of the code the bits end in (R203). -/
theorem TableOk.decodeBits_endsInCode {t : CodeTable} (h : TableOk t) {u : Bits} {i : Nat} (hu : EndsInCode t u i) :
    decodeBits t u = .error (.format .truncatedCode i) := by
  obtain ⟨b, c, rfl, hb, hc, hbegins, rfl⟩ := hu
  have hne : ¬c.isEmpty = true := by simpa using hc
  have hend := h.decodeFrom_begins (cand := []) (i := (b.flatMap (codeOf t)).length) [] (Or.inr hbegins) fun _ => rfl
  rw [List.append_nil] at hend
  rw [decodeBits, h.decodeFrom_codes hb, Nat.zero_add, hend, List.nil_append, decodeFrom, if_neg hne]
  rfl

/-- Bits that decode are whole codes (R203, R205 item 2). -/
theorem eq_flatMap_of_decodeFrom {t : CodeTable} {i start : Nat} {cand u : Bits} {out : List Byte}
    (h : decodeFrom (entries t) i start cand u = .ok out) :
    cand ++ u = out.flatMap (codeOf t) ∧ ∀ x ∈ out, codeOf t x ≠ [] := by
  induction u generalizing i start cand out with
  | nil =>
    rw [decodeFrom] at h
    split at h
    · rename_i hc
      cases h
      simpa using hc
    · cases h
  | cons b u ih =>
    rw [decodeFrom] at h
    split at h
    · rename_i e hf
      split at h
      · rename_i rest hrest
        cases h
        have hcode : e.2 = cand ++ [b] := by simpa using List.find?_some hf
        obtain ⟨hc, hne⟩ := (mem_entries t e).1 (List.mem_of_find?_eq_some hf)
        obtain ⟨hu, hr⟩ := ih hrest
        rw [List.nil_append] at hu
        refine ⟨?_, List.forall_mem_cons.2 ⟨hc ▸ hne, hr⟩⟩
        rw [List.flatMap_cons, ← hc, hcode, ← hu, List.append_assoc, List.singleton_append]
      · cases h
    · split at h
      · have := ih h
        rwa [List.append_assoc, List.singleton_append] at this
      · cases h

theorem eq_flatMap_of_decodeBits {t : CodeTable} {u : Bits} {out : List Byte} (h : decodeBits t u = .ok out) :
    u = out.flatMap (codeOf t) ∧ ∀ x ∈ out, codeOf t x ≠ [] := eq_flatMap_of_decodeFrom h

/-- There are at most as many symbols as bits of their codes. -/
theorem length_le_length_flatMap_codeOf {t : CodeTable} {b : List Byte} (hb : ∀ x ∈ b, codeOf t x ≠ []) :
    b.length ≤ (b.flatMap (codeOf t)).length := by
  induction b with
  | nil => exact Nat.le_refl _
  | cons x b ih =>
    rw [List.forall_mem_cons] at hb
    have := List.length_pos_iff.2 hb.1
    have := ih hb.2
    simp only [List.flatMap_cons, List.length_append, List.length_cons]
    omega

/-- Decode fails with a FORMAT error alone (R203). -/
theorem exists_format_of_decodeFrom {es : List (Byte × Bits)} {i start : Nat} {cand u : Bits} {e : CommandError}
    (h : decodeFrom es i start cand u = .error e) : ∃ sub info, e = .format sub info := by
  fun_induction decodeFrom es i start cand u
  case case1 | case3 => cases h
  case case4 hrec ih => exact ih (hrec.trans h)
  case case5 ih => exact ih h
  case case2 | case6 => exact ⟨_, _, (Except.error.inj h).symm⟩

end Sys2Proof.Machine
end

section
/-! PROOFS. The end of a command no access of which gets a bus error: how its rule's outcome becomes its next state
(60_exceptions.md R319 to R325). -/

namespace Sys2Proof.Machine

@[simp] theorem length_srcBytes (s : State) : (srcBytes s).length = s.srcLen.toNat := Memory.length_readRange _ _ _

/-- What lets a command `i` reach its rule, and its accesses, `n` destination bytes among them, complete: no race, the
flag it requires, and the regions it uses legal, apart and answering. -/
structure Ready (i : Instr) (s : State) (n : Nat) : Prop where
  noRace : s.NoRace
  freq : (profile i).needsFreq = true → s.freqV = true
  table : (profile i).needsTable = true → s.tableV = true
  src : (profile i).readsSrc = true → s.SrcReady
  dst : (profile i).writesDst = true → s.DstReady n
  apart : (profile i).readsSrc = true → (profile i).writesDst = true → s.Disjoint

section ready
variable {i : Instr} {s : State} {n : Nat}

theorem Ready.prologue (h : Ready i s n) : prologue i s = none := by
  rw [prologue_eq_none_iff]
  exact ⟨h.freq, h.table, fun hs => (h.src hs).legal, fun hd => (h.dst hd).legal,
    fun hs hd => (regionsOverlap_eq_false_iff s).2 (h.apart hs hd)⟩

/-- No access gets a bus error, nor does any of a shorter output. -/
theorem Ready.noBus (h : Ready i s n) {k : Nat} (hk : k ≤ n) : badReads i s ++ badWrites i k s = [] := by
  have hreads : badReads i s = [] := by
    unfold badReads
    split
    · exact (badAddrs_eq_nil_iff _ _ _ _).2 (h.src (by assumption)).answers
    · rfl
  have hwrites : badWrites i k s = [] := by
    unfold badWrites
    split
    · exact (badAddrs_eq_nil_iff _ _ _ _).2 fun a ha hlt => (h.dst (by assumption)).answers a ha (by omega)
    · rfl
  rw [hreads, hwrites, List.append_nil]

/-- A success stands (R325). -/
theorem Ready.exec_success (h : Ready i s n) {r : Results} (hb : ruleOf i s = .success r) (hn : r.out.length ≤ n) :
    exec i s = .next (complete (writeResults r s)) := by
  rw [exec_eq, runCommand_success h.noRace h.prologue hb (h.noBus hn)]

/-- Where every destination byte answers, the rule's outcome stands, whatever it is (R316). -/
theorem Ready.exec_settle (h : Ready i s s.dstCap.toNat) : exec i s = .next (settle i (ruleOf i s) s) := by
  have hbus := h.noBus (Nat.le_refl _)
  have hstands : busOutcome i (ruleOf i s) s = ruleOf i s := by
    rcases ho : ruleOf i s with r | e | e | r
    · have hf := ruleOf_fits i s
      rw [ho] at hf
      exact busOutcome_success (h.noBus hf.room)
    · rfl
    · exact busOutcome_late hbus
    · exact busOutcome_mismatch hbus
  rw [exec_eq, runCommand_of_noRace h.noRace, checkedOutcome_of_none h.prologue, hstands]

end ready

/-- A success writes its destination bytes and no others (R39). -/
theorem storesExactly_success (r : Results) (s : State) :
    StoresExactly s.mem (complete (writeResults r s)).mem s.dstAddr.toNat r.out := Memory.storesExactly_writeRange _ _ _

/-- ERROR as it reads after an error `e`: SUB above CODE (R36, R311, R312). -/
def CommandError.word (e : CommandError) : Word := e.sub.setWidth 32 <<< 8 ||| e.number.setWidth 32

theorem word_format (sub : FormatSub) (n : Nat) :
    (CommandError.format sub n).word = BitVec.ofNat 32 (256 * sub.number.toNat + 2) := by
  cases sub <;> simp [CommandError.word, CommandError.sub, CommandError.number, FormatSub.number]

theorem word_capacity (n : Nat) : (CommandError.capacity n).word = 5 := by
  simp [CommandError.word, CommandError.sub, CommandError.number]

theorem word_tooLong : CommandError.tooLong.word = 8 := rfl

theorem word_uncoded (n : Nat) : (CommandError.uncoded n).word = 9 := by
  simp [CommandError.word, CommandError.sub, CommandError.number]

/-- A late error leaves ERR = 1, its class and subcode, and its ERR_INFO (R320). -/
theorem settle_late_reports {c : Instr} {o : RuleOutcome} {e : CommandError} {s : State} {w : Word} (hw : e.word = w)
    (h : o = .late e) :
    (settle c o s).err = true ∧ (settle c o s).error = w ∧ (settle c o s).errInfo = e.info := by
  subst h
  exact ⟨rfl, hw, rfl⟩

theorem settle_late_outLen {c : Instr} {o : RuleOutcome} {e : CommandError} {s : State} (h : o = .late e) :
    (settle c o s).outLen = 0 := by
  subst h
  rfl

/-- The valid flags a command writes are 0 after a late error (R322). -/
theorem settle_late_flags {c : Instr} {o : RuleOutcome} {e : CommandError} {s : State} (h : o = .late e) :
    ((profile c).writesFreq = true → (settle c o s).freqV = false) ∧
      ((profile c).writesTable = true → (settle c o s).tableV = false) ∧
      ((profile c).writesAct = true → (settle c o s).digestV = false) ∧
      ((profile c).writesExp = true → (settle c o s).expV = false) := by
  subst h
  unfold settle loseResults
  cases (profile c).writesDst <;>
    exact ⟨fun h => if_pos h, fun h => if_pos h, fun h => if_pos h, fun h => if_pos h⟩

end Sys2Proof.Machine
end

section
/-! PROOFS. ENCODE and DECODE: when they complete, with what, and their errors in order (41_encode_pack.md,
42_decode.md). -/

namespace Sys2Proof.Machine

/-! ### ENCODE -/

theorem firstUncoded_eq_none {t : CodeTable} {b : List Byte} (h : ∀ x ∈ b, codeOf t x ≠ []) :
    firstUncoded t b = none := by
  simpa [firstUncoded] using h

/-- The least offset of a byte with no code (R180). -/
theorem firstUncoded_eq_some {t : CodeTable} {b : List Byte} {k : Nat} {x : Byte} (hk : b[k]? = some x)
    (hx : codeOf t x = []) (hlt : ∀ j y, j < k → b[j]? = some y → codeOf t y ≠ []) : firstUncoded t b = some k := by
  obtain ⟨hlen, rfl⟩ := List.getElem?_eq_some_iff.1 hk
  rw [firstUncoded, List.findIdx?_eq_some_iff_getElem]
  refine ⟨hlen, by simp [hx], fun j hj => ?_⟩
  simpa using hlt j _ hj (List.getElem?_eq_getElem (by omega))

/-- ENCODE's rule where every byte has a code (R185). -/
theorem encodeRule_of_coded {s : State} (h : ∀ x ∈ srcBytes s, codeOf s.code x ≠ []) :
    encodeRule s =
      if 2 ^ 32 - 1 < (encodeBits s.code (srcBytes s)).length then .late .tooLong
      else if s.dstCap.toNat < ceil8 (encodeBits s.code (srcBytes s)).length then
        .late (.capacity (ceil8 (encodeBits s.code (srcBytes s)).length))
      else .success
        { out := pack (encodeBits s.code (srcBytes s)), bitLen := some (encodeBits s.code (srcBytes s)).length } := by
  simp only [encodeRule, firstUncoded_eq_none h]

/-- Settles O39: the rule succeeds with the packed codes, and the end writes them. -/
theorem encodeCompletes : Obligations.EncodeCompletes := by
  intro s bits hr ht hs hx hbits hcoded hlen hd hcap
  have hready : Ready .encode s (ceil8 bits.length) := ⟨hr, nofun, fun _ => ht, fun _ => hs, fun _ => hd, fun _ _ => hx⟩
  have hrule : ruleOf .encode s = .success { out := pack bits, bitLen := some bits.length } := by
    subst hbits
    exact (encodeRule_of_coded hcoded).trans ((if_neg (Nat.not_lt.2 hlen)).trans (if_neg (Nat.not_lt.2 hcap)))
  refine ⟨_, pack bits, hready.exec_success hrule (length_pack bits).le, ?_, storesExactly_success _ s,
    length_pack bits, fun j _ k hk => bitOfByte_getD_pack bits j hk⟩
  simp [complete, writeResults, storeResults]

/-- Settles O40: with every access completing, the rule's error is reported, and its checks come in R185's order. -/
theorem encodeErrors : Obligations.EncodeErrors := by
  intro s hr ht hs hx hd _
  have hready : Ready .encode s s.dstCap.toNat := ⟨hr, nofun, fun _ => ht, fun _ => hs, fun _ => hd, fun _ _ => hx⟩
  refine ⟨_, hready.exec_settle, fun k x hk hc hlt => settle_late_reports (word_uncoded k) ?_,
    fun hcoded => ⟨fun hlong => settle_late_reports word_tooLong ?_,
      fun hlong hcap => settle_late_reports (word_capacity (ceil8 (encodeBits s.code (srcBytes s)).length)) ?_⟩⟩
  · simp only [ruleOf, encodeRule, firstUncoded_eq_some hk hc hlt]
  · exact (encodeRule_of_coded hcoded).trans (if_pos hlong)
  · exact (encodeRule_of_coded hcoded).trans ((if_neg (Nat.not_lt.2 hlong)).trans (if_pos hcap))

/-! ### DECODE -/

section decodeRule
variable {s : State} (hlen : s.srcLen.toNat = ceil8 s.bitLen.toNat) (hpad : padOk (srcBytes s) s.bitLen.toNat = true)
include hlen hpad

/-- Past the lengths and the pads, DECODE's error is Decode's (R208). -/
theorem decodeRule_of_error {e : CommandError}
    (hdec : decodeBits s.code (unpack (srcBytes s) s.bitLen.toNat) = .error e) : decodeRule s = .late e := by
  simp only [decodeRule, hlen, hpad, hdec, Nat.lt_irrefl, if_false, Bool.not_true, Bool.false_eq_true]

/-- Decoded symbols are DECODE's result, if they fit (R208). -/
theorem decodeRule_of_ok {out : List Byte} (hdec : decodeBits s.code (unpack (srcBytes s) s.bitLen.toNat) = .ok out) :
    decodeRule s =
      if s.dstCap.toNat < out.length then .late (.capacity out.length) else .success { out := out } := by
  simp only [decodeRule, hlen, hpad, hdec, Nat.lt_irrefl, if_false, Bool.not_true, Bool.false_eq_true]

theorem decodeRule_success {out : List Byte} (hdec : decodeBits s.code (unpack (srcBytes s) s.bitLen.toNat) = .ok out)
    (hcap : out.length ≤ s.dstCap.toNat) : decodeRule s = .success { out := out } :=
  (decodeRule_of_ok hlen hpad hdec).trans (if_neg (Nat.not_lt.2 hcap))

end decodeRule

/-- Settles O42: the rule succeeds with the decoded symbols, and the end writes them. -/
theorem decodeCompletes : Obligations.DecodeCompletes := by
  intro s out hr ht hs hx hlen hpad hdec hd hcap
  have hready : Ready .decode s out.length := ⟨hr, nofun, fun _ => ht, fun _ => hs, fun _ => hd, fun _ _ => hx⟩
  refine ⟨_, hready.exec_success (decodeRule_success hlen hpad hdec hcap) (Nat.le_refl _), ?_,
    storesExactly_success _ s⟩
  simp [complete, writeResults, storeResults]

/-- Settles O43: packed codes unpack to themselves with their pads 0, and whole codes decode to their symbols. -/
theorem decodeRecoversEncodedBytes : Obligations.DecodeRecoversEncodedBytes := by
  intro s b hr ht hok hs hx hcoded hlen hsrc hd hcap
  have hsrcLen : s.srcLen.toNat = ceil8 s.bitLen.toNat := by rw [← length_srcBytes, hsrc, length_pack, hlen]
  have hpad : padOk (srcBytes s) s.bitLen.toNat = true := by rw [hsrc, hlen, padOk_pack]
  have hdec : decodeBits s.code (unpack (srcBytes s) s.bitLen.toNat) = .ok b := by
    rw [hsrc, hlen, unpack_pack, hok.decodeBits_codes hcoded]
  have hready : Ready .decode s b.length := ⟨hr, nofun, fun _ => ht, fun _ => hs, fun _ => hd, fun _ _ => hx⟩
  exact ⟨_, hready.exec_success (decodeRule_success hsrcLen hpad hdec hcap) (Nat.le_refl _), rfl, rfl, rfl,
    storesExactly_success _ s⟩

/-- The pad check looks at the last byte that holds bits (R201). -/
theorem padBad_iff (d : List Byte) (l : Nat) : PadBad (d.getD (ceil8 l - 1) 0) l ↔ padOk d l = false := by
  rw [← Bool.not_eq_true, padOk_iff, PadBad]
  simp only [bitOfByte, not_forall, Bool.not_eq_false]
  constructor
  · rintro ⟨h, k, h1, h2, h3⟩; exact ⟨h, k, h2, h1, h3⟩
  · rintro ⟨h, k, h2, h1, h3⟩; exact ⟨h, k, h1, h2, h3⟩

/-- The last source byte, where there is one. -/
theorem getD_srcBytes_last {s : State} (h : 0 < s.srcLen.toNat) :
    (srcBytes s).getD (s.srcLen.toNat - 1) 0 = Memory.read s.mem (s.srcAddr.toNat + s.srcLen.toNat - 1) := by
  rw [List.getD_eq_getElem _ _ (by simp; omega)]
  simp only [srcBytes, Memory.getElem_readRange]
  congr 1
  omega

/-- Settles O44: with every access completing, the rule's error is reported, its checks come in R208's order, and
Decode's error is that of the codes. -/
theorem decodeLengthAndPadErrors : Obligations.DecodeLengthAndPadErrors := by
  rintro s last u hr ht hs hx hd - rfl rfl
  have hready : Ready .decode s s.dstCap.toNat := ⟨hr, nofun, fun _ => ht, fun _ => hs, fun _ => hd, fun _ _ => hx⟩
  have hlast : ∀ hlen : s.srcLen.toNat = ceil8 s.bitLen.toNat,
      (PadBad (Memory.read s.mem (s.srcAddr.toNat + s.srcLen.toNat - 1)) s.bitLen.toNat ↔
        padOk (srcBytes s) s.bitLen.toNat = false) := by
    intro hlen
    by_cases hz : s.bitLen.toNat % 8 = 0
    · simp [PadBad, padOk, hz]
    · rw [← getD_srcBytes_last (by rw [hlen]; unfold ceil8; omega), hlen, padBad_iff]
  refine ⟨_, hready.exec_settle, fun hlt => settle_late_reports (word_format .truncPayload 0) ?_,
    fun hlt => settle_late_reports (word_format .trailing (ceil8 s.bitLen.toNat)) ?_,
    fun hlen hbad => settle_late_reports (word_format .padNonzero (ceil8 s.bitLen.toNat - 1)) ?_, fun hlen hgood hok => ?_⟩
  · exact if_pos hlt
  · exact (if_neg (by omega)).trans (if_pos hlt)
  · exact (if_neg (by omega)).trans ((if_neg (by omega)).trans (if_pos (by simp [(hlast hlen).1 hbad])))
  · have hpad : padOk (srcBytes s) s.bitLen.toNat = true := by simpa [hlast hlen] using hgood
    refine ⟨fun i hi => settle_late_reports (word_format .invalidCode i) ?_,
      fun i hi => settle_late_reports (word_format .truncatedCode i) ?_,
      fun b hb hu hcap => settle_late_reports (word_capacity b.length) ?_⟩
    · exact decodeRule_of_error hlen hpad (hok.decodeBits_leavesCodes hi)
    · exact decodeRule_of_error hlen hpad (hok.decodeBits_endsInCode hi)
    · exact (decodeRule_of_ok hlen hpad (hu ▸ hok.decodeBits_codes hb)).trans (if_pos hcap)

end Sys2Proof.Machine
end

section
/-! PROOFS. NOP, COUNT, BUILD and DIGEST complete (45_control.md, 40_count_build.md, 44_integrity.md). -/

namespace Sys2Proof.Machine

/-- Settles O34: NOP passes its start check and has no access that could fail. -/
theorem nopCompletes : Obligations.NopCompletes := by
  intro s hr
  have hready : Ready .nop s 0 := ⟨hr, nofun, nofun, nofun, nofun, nofun⟩
  rw [hready.exec_success rfl (Nat.le_refl _)]
  simp [complete, writeResults, storeResults, Memory.writeRange]

/-- A count is that of the bytes equal to the symbol, while there are fewer than 2^32 bytes (R141). -/
theorem countOf_countTable {b : List Byte} (h : b.length < 2 ^ 32) (x : Byte) : countOf (countTable b) x = b.count x := by
  have heq : (fun y : Byte => y.toNat == x.toNat) = (· == x) := by
    funext y
    rw [Bool.eq_iff_iff]
    simp [BitVec.toNat_inj]
  have hle : b.count x ≤ b.length := List.count_le_length
  simp only [countOf, countTable, getElem_tabulate, heq, BitVec.toNat_ofNat]
  exact Nat.mod_eq_of_lt (by simpa [List.count] using hle.trans_lt h)

theorem length_srcBytes_lt (s : State) : (srcBytes s).length < 2 ^ 32 := by
  rw [length_srcBytes]; exact s.srcLen.isLt

/-- Settles O35: COUNT passes its start check, its reads complete, and its counts are those of the source bytes. -/
theorem countCompletes : Obligations.CountCompletes := by
  intro s hr hs
  have hready : Ready .count s 0 := ⟨hr, nofun, nofun, fun _ => hs, nofun, nofun⟩
  refine ⟨_, hready.exec_success rfl (Nat.le_refl _), ?_, fun x => ?_⟩
  · simp [complete, writeResults, storeResults, Memory.writeRange]
  · refine (countOf_countTable (length_srcBytes_lt s) x).trans ?_
    simp only [srcBytes, Memory.readRange, List.count, List.countP_map]
    rfl

/-- Settles O36: BUILD passes its start check and has no access that could fail. -/
theorem buildCompletes : Obligations.BuildCompletes := by
  intro s hr hv
  have hready : Ready .build s 0 := ⟨hr, fun _ => hv, nofun, nofun, nofun, nofun⟩
  rw [hready.exec_success rfl (Nat.le_refl _)]
  simp [complete, writeResults, storeResults, Memory.writeRange]

/-- The big-endian bytes of the number four bytes hold are these bytes (R12). -/
theorem be32bytes_be32 {bs : List Byte} (h : 4 ≤ bs.length) : be32bytes (be32 bs) = bs.take 4 := by
  match bs, h with
  | a :: b :: c :: d :: r, _ =>
    have ha := a.isLt
    have hb := b.isLt
    have hc := c.isLt
    have hd := d.isLt
    have hv : be32 (a :: b :: c :: d :: r) =
      a.toNat * 2 ^ 24 + b.toNat * 2 ^ 16 + c.toNat * 2 ^ 8 + d.toNat := rfl
    simp only [be32bytes, hv, List.take_succ_cons, List.take_zero, List.cons.injEq, and_true]
    refine ⟨?_, ?_, ?_, ?_⟩ <;> apply BitVec.eq_of_toNat_eq <;> simp only [BitVec.toNat_ofNat] <;> omega

/-- Word `i` of a digest holds its bytes 4·i to 4·i + 3 (R44). -/
theorem be32bytes_digestWords {d : List Byte} (h : d.length = 32) (i : Fin 8) :
    be32bytes ((digestWords d)[i]).toNat = (d.drop (4 * i.val)).take 4 := by
  have hlt := be32_lt (d.drop (4 * i.val))
  have hword : ((digestWords d)[i]).toNat = be32 (d.drop (4 * i.val)) := by
    simp only [digestWords, Fin.getElem_fin, getElem_tabulate, BitVec.toNat_ofNat]
    exact Nat.mod_eq_of_lt hlt
  rw [hword, be32bytes_be32]
  simp only [List.length_drop]
  omega

/-- Settles O45: DIGEST passes its start check, its reads complete, and each word holds four bytes of the digest. -/
theorem digestCompletes : Obligations.DigestCompletes := by
  intro s hr hs
  have hready : Ready .digest s 0 := ⟨hr, nofun, nofun, fun _ => hs, nofun, nofun⟩
  refine ⟨_, hready.exec_success rfl (Nat.le_refl _), ?_, length_sha256 _, fun i => ?_⟩
  · simp [complete, writeResults, storeResults, Memory.writeRange]
  · exact be32bytes_digestWords (length_sha256 _) i

end Sys2Proof.Machine
end

section
/-! PROOFS. TBL_STORE and TBL_LOAD: when they complete, with what, and their errors in order (43_container.md
R232 to R245). -/

namespace Sys2Proof.Machine

/-- TBL_STORE's rule by the entry bytes (R240). -/
theorem tblStoreRule_eq (s : State) :
    tblStoreRule s =
      if s.dstCap.toNat < 4 + (tableBytes s.code).length then .late (.capacity (4 + (tableBytes s.code).length))
      else .success { out := be32bytes (tableBytes s.code).length ++ tableBytes s.code } := by
  simp only [tblStoreRule, serializeTable, List.length_append, length_be32bytes]

/-- Settles O46: the rule succeeds with the length and the entry bytes where they fit, else CAPACITY is reported. -/
theorem tblStoreCompletes : Obligations.TblStoreCompletes := by
  rintro s e hr ht rfl
  rw [← tableBytes_eq]
  refine ⟨fun hd hcap => ?_, fun hd hcap => ?_⟩
  · have hready : Ready .tblStore s (4 + (tableBytes s.code).length) :=
      ⟨hr, nofun, fun _ => ht, nofun, fun _ => hd, nofun⟩
    have hlen : (be32bytes (tableBytes s.code).length ++ tableBytes s.code).length =
        4 + (tableBytes s.code).length := by simp
    refine ⟨_, hready.exec_success ((tblStoreRule_eq s).trans (if_neg (Nat.not_lt.2 hcap))) hlen.le, ?_,
      storesExactly_success _ s⟩
    simp [complete, writeResults, storeResults]
  · have hready : Ready .tblStore s s.dstCap.toNat := ⟨hr, nofun, fun _ => ht, nofun, fun _ => hd, nofun⟩
    have hrule : ruleOf .tblStore s = .late (.capacity (4 + (tableBytes s.code).length)) :=
      (tblStoreRule_eq s).trans (if_pos hcap)
    obtain ⟨herr, hword, hinfo⟩ := settle_late_reports (word_capacity (4 + (tableBytes s.code).length)) hrule
    exact ⟨_, hready.exec_settle, herr, hword, hinfo, settle_late_outLen hrule⟩

section tblLoadRule
variable {s : State} (h4 : 4 ≤ s.srcLen.toNat) (hlen : s.srcLen.toNat = 4 + be32 (srcBytes s))
include h4 hlen

/-- Past the lengths, TBL_LOAD's error is the parser's (R245). -/
theorem tblLoadRule_of_error {e : CommandError} (hp : parseEntries 4 ((srcBytes s).drop 4) = .error e) :
    tblLoadRule s = .late e := by
  refine (if_neg (by omega)).trans ((if_neg (by omega)).trans ((if_neg (by omega)).trans ?_))
  simp only [hp]

/-- The parsed table is TBL_LOAD's result (R245). -/
theorem tblLoadRule_of_ok {table : CodeTable} (hp : parseEntries 4 ((srcBytes s).drop 4) = .ok table) :
    tblLoadRule s = .success { code := some table } := by
  refine (if_neg (by omega)).trans ((if_neg (by omega)).trans ((if_neg (by omega)).trans ?_))
  simp only [hp]

end tblLoadRule

/-- Settles O47: the rule succeeds with the parsed table, and its reads complete. -/
theorem tblLoadCompletes : Obligations.TblLoadCompletes := by
  intro s table hr hs h4 hlen hparse
  have hready : Ready .tblLoad s 0 := ⟨hr, nofun, nofun, fun _ => hs, nofun, nofun⟩
  rw [hready.exec_success (tblLoadRule_of_ok h4 hlen hparse) (Nat.le_refl _)]
  simp [complete, writeResults, storeResults, Memory.writeRange]

/-! ### The parser's errors -/

section parserErrors
variable {es : List (Byte × Bits)} {base : Nat} (h : EntriesOk es)
include h

/-- What follows good entries gives the parser's error where the next entry fails, whatever fuel is left. -/
theorem parseEntries_append_error {x : Byte} {r : List Byte} {e : CommandError}
    (hp : ∀ n fuel, (∀ y, n ≤ y ↔ ∀ e ∈ es, e.1.toNat < y) →
      parseFrom base (fuel + 1) (es.flatMap entryBytes).length n es (x :: r) = .error e) :
    parseEntries base (es.flatMap entryBytes ++ x :: r) = .error e := by
  obtain ⟨n, fuel, hn, hfuel, heq⟩ := parseFrom_append base (x :: r) h
  obtain ⟨k, rfl⟩ : ∃ k, fuel = k + 1 := ⟨fuel - 1, by simp only [List.length_cons] at hfuel; omega⟩
  exact parseEntries_of_error (heq.trans (hp n k hn))

/-- TRUNC_ENTRY of a single byte (R235). -/
theorem parseEntries_truncEntry_one (x : Byte) : parseEntries base (es.flatMap entryBytes ++ [x]) =
    .error (.format .truncEntry (base + (es.flatMap entryBytes).length)) :=
  parseEntries_append_error h fun n fuel _ => by simp only [parseFrom]

/-- ZERO_LEN (R235). -/
theorem parseEntries_zeroLen (x : Byte) (r : List Byte) : parseEntries base (es.flatMap entryBytes ++ x :: 0 :: r) =
    .error (.format .zeroLen (base + (es.flatMap entryBytes).length)) :=
  parseEntries_append_error h fun n fuel _ => by
    simp only [parseFrom, if_true]

section nonzeroLength
variable {l : Byte} (hl : l ≠ 0) (x : Byte) {c : List Byte}
include hl

/-- TRUNC_ENTRY of too few code bytes (R235). -/
theorem parseEntries_truncEntry (hc : c.length < ceil8 l.toNat) :
    parseEntries base (es.flatMap entryBytes ++ x :: l :: c) =
      .error (.format .truncEntry (base + (es.flatMap entryBytes).length)) :=
  parseEntries_append_error h fun n fuel _ => by
    simp only [parseFrom, if_neg hl, if_pos hc]

section enoughBytes
variable (hc : c.length = ceil8 l.toNat) (r : List Byte)
include hc

/-- ORDER: a symbol not above those before it (R235). -/
theorem parseEntries_order (hx : ∃ e ∈ es, x.toNat ≤ e.1.toNat) :
    parseEntries base (es.flatMap entryBytes ++ x :: l :: (c ++ r)) =
      .error (.format .order (base + (es.flatMap entryBytes).length)) :=
  parseEntries_append_error h fun n fuel hn => by
    obtain ⟨e, he, hxe⟩ := hx
    have hroom : ¬(c ++ r).length < ceil8 l.toNat := by simp [hc]
    have hord : x.toNat < n := Nat.not_le.1 fun hle => Nat.not_lt.2 hxe ((hn _).1 hle e he)
    simp only [parseFrom, if_neg hl, if_neg hroom, if_pos hord]

variable (hx : ∀ e ∈ es, e.1.toNat < x.toNat)
include hx

/-- CODE_PAD (R235). -/
theorem parseEntries_codePad (hpad : padOk c l.toNat = false) :
    parseEntries base (es.flatMap entryBytes ++ x :: l :: (c ++ r)) =
      .error (.format .codePad (base + (es.flatMap entryBytes).length)) :=
  parseEntries_append_error h fun n fuel hn => by
    have hroom : ¬(c ++ r).length < ceil8 l.toNat := by simp [hc]
    have hord : ¬x.toNat < n := Nat.not_lt.2 ((hn _).2 hx)
    have htake : (c ++ r).take (ceil8 l.toNat) = c := List.take_left' hc
    simp only [parseFrom, if_neg hl, if_neg hroom, if_neg hord, htake, hpad, Bool.not_false, if_true]

/-- NOT_PREFIX_FREE (R235). -/
theorem parseEntries_notPrefixFree (hpad : padOk c l.toNat = true)
    (hany : ∃ e ∈ es, conflict e.2 (unpack c l.toNat) = true) :
    parseEntries base (es.flatMap entryBytes ++ x :: l :: (c ++ r)) =
      .error (.format .notPrefixFree (base + (es.flatMap entryBytes).length)) :=
  parseEntries_append_error h fun n fuel hn => by
    have hroom : ¬(c ++ r).length < ceil8 l.toNat := by simp [hc]
    have hord : ¬x.toNat < n := Nat.not_lt.2 ((hn _).2 hx)
    have htake : (c ++ r).take (ceil8 l.toNat) = c := List.take_left' hc
    have hany' : (es.any fun e => conflict e.2 (unpack c l.toNat)) = true := List.any_eq_true.2 hany
    simp only [parseFrom, if_neg hl, if_neg hroom, if_neg hord, htake, hpad, Bool.not_true, Bool.false_eq_true, if_false,
      hany', if_true]

end enoughBytes

end nonzeroLength

/-- INCOMPLETE_CODE (R235). -/
theorem parseEntries_incompleteCode (hc : ¬entriesComplete es = true) :
    parseEntries base (es.flatMap entryBytes ++ []) = .error (.format .incompleteCode base) := by
  rw [List.append_nil, parseEntries_entries base h, if_neg hc]

end parserErrors

/-- Settles O48: each check of the parser by its lemma, and TBL_LOAD reports its own length errors and the parser's. -/
theorem tblLoadErrors : Obligations.TblLoadErrors := by
  refine ⟨fun es base o parse h ho hparse => ?_, fun s hr hs _ => ?_⟩
  · subst ho
    simp only [hparse]
    refine ⟨parseEntries_truncEntry_one h, parseEntries_zeroLen h, fun x l c r code hl hcode => ?_, ?_, fun h2 hk => ?_⟩
    · subst hcode
      refine ⟨parseEntries_truncEntry h hl x, fun hc => ⟨parseEntries_order h hl x hc r, fun hx => ⟨fun hbad => ?_, ?_⟩⟩⟩
      · exact parseEntries_codePad h hl x hc r hx ((padBad_iff c _).1 hbad)
      · intro hgood
        exact parseEntries_notPrefixFree h hl x hc r hx (Bool.not_eq_false _ ▸ mt (padBad_iff c _).2 hgood)
    · rintro ⟨e, rfl, he⟩
      exact parseEntries_incompleteCode h (mt (entriesComplete_singleton e).1 he)
    · exact parseEntries_incompleteCode h (mt (entriesComplete_of_two_le h2).1 hk)
  · have hready : Ready .tblLoad s s.dstCap.toNat := ⟨hr, nofun, nofun, fun _ => hs, nofun, nofun⟩
    have hreport : ∀ {e : CommandError} {w : Word}, e.word = w → tblLoadRule s = .late e →
        (settle .tblLoad (ruleOf .tblLoad s) s).err = true ∧ (settle .tblLoad (ruleOf .tblLoad s) s).tableV = false ∧
          (settle .tblLoad (ruleOf .tblLoad s) s).error = w ∧
          (settle .tblLoad (ruleOf .tblLoad s) s).errInfo = e.info := fun hw hrule =>
      have ⟨herr, hword, hinfo⟩ := settle_late_reports (c := .tblLoad) (s := s) hw hrule
      have ⟨_, htable, _⟩ := settle_late_flags (c := .tblLoad) (s := s) hrule
      ⟨herr, htable rfl, hword, hinfo⟩
    refine ⟨_, hready.exec_settle, fun hlt => ?_, fun h4 hlt => ?_, fun h4 hlt => ?_, fun e h4 hlen hp => ?_⟩
    · exact hreport (word_format .truncTblLen 0) (if_pos hlt)
    · exact hreport (word_format .truncTable 4) ((if_neg (by omega)).trans (if_pos hlt))
    · exact hreport (word_format .trailing (4 + be32 (srcBytes s)))
        ((if_neg (by omega)).trans ((if_neg (by omega)).trans (if_pos hlt)))
    · have hrule : ruleOf .tblLoad s = .late e := tblLoadRule_of_error h4 hlen hp
      obtain ⟨herr, htable, -, -⟩ := hreport rfl hrule
      rw [hrule] at herr htable ⊢
      exact ⟨herr, htable, rfl, rfl, rfl⟩

end Sys2Proof.Machine
end

section
/-! PROOFS. COMPRESS: when it completes, with what, and its errors (43_container.md R230, R238, R250). -/

namespace Sys2Proof.Machine

/-- What COMPRESS writes for the source bytes `b` (R250). -/
def compressResults (b : List Byte) : Results where
  out := containerOf b (buildTable (countTable b))
  freq := some (countTable b)
  code := some (buildTable (countTable b))
  digestAct := some (digestWords (sha256 b))
  bitLen := some (encodeBits (buildTable (countTable b)) b).length

/-- COMPRESS's rule by the container it would write (R250). -/
theorem compressRule_eq (s : State) :
    compressRule s =
      if 2 ^ 32 - 1 < (encodeBits (buildTable (countTable (srcBytes s))) (srcBytes s)).length then .late .tooLong
      else if s.dstCap.toNat < (compressResults (srcBytes s)).out.length then
        .late (.capacity (compressResults (srcBytes s)).out.length)
      else .success (compressResults (srcBytes s)) := by
  simp only [compressRule, compressResults, length_containerOf]

/-- A container by its parts (R230). -/
theorem containerOf_eq (b : List Byte) (t : CodeTable) :
    containerOf b t = be32bytes (encodeBits t b).length ++ sha256 b ++ pack (encodeBits t b) ++
      be32bytes (tableBytes t).length ++ tableBytes t := by
  simp only [containerOf, serializeTable, List.append_assoc]

/-- A container's length by its parts (R230). -/
theorem length_containerOf_eq (b : List Byte) (t : CodeTable) :
    (containerOf b t).length = 40 + ceil8 (encodeBits t b).length + (tableBytes t).length := by
  simp only [length_containerOf, serializeTable, List.length_append, length_be32bytes]
  omega

/-- Settles O51: the rule succeeds with the container where it fits, else its error is reported. -/
theorem compressCompletes : Obligations.CompressCompletes := by
  rintro s table bits hr hs hx rfl rfl
  refine ⟨fun c hlen hc hcap hd => ?_, fun hd => ?_⟩
  · obtain rfl : c = (compressResults (srcBytes s)).out := hc.trans (containerOf_eq _ _).symm
    have hready : Ready .compress s (compressResults (srcBytes s)).out.length :=
      ⟨hr, nofun, nofun, fun _ => hs, fun _ => hd, fun _ _ => hx⟩
    have hrule : ruleOf .compress s = .success (compressResults (srcBytes s)) :=
      (compressRule_eq s).trans ((if_neg (Nat.not_lt.2 hlen)).trans (if_neg (Nat.not_lt.2 hcap)))
    refine ⟨_, hready.exec_success hrule (Nat.le_refl _), ?_, storesExactly_success _ s⟩
    simp [complete, writeResults, storeResults, compressResults, encodeBits]
  · have hready : Ready .compress s s.dstCap.toNat := ⟨hr, nofun, nofun, fun _ => hs, fun _ => hd, fun _ _ => hx⟩
    refine ⟨fun hlong => ?_, fun hlong hcap => ?_⟩
    · have hrule : ruleOf .compress s = .late .tooLong := (compressRule_eq s).trans (if_pos hlong)
      obtain ⟨herr, hword, hinfo⟩ := settle_late_reports (s := s) (c := .compress) word_tooLong hrule
      exact ⟨_, hready.exec_settle, herr, hword, hinfo, settle_late_outLen hrule⟩
    · rw [show ((srcBytes s).flatMap (codeOf (buildTable (countTable (srcBytes s))))) =
        encodeBits (buildTable (countTable (srcBytes s))) (srcBytes s) from rfl, ← length_containerOf_eq] at hcap ⊢
      have hrule := (compressRule_eq s).trans ((if_neg (Nat.not_lt.2 hlong)).trans (if_pos hcap))
      obtain ⟨herr, hword, hinfo⟩ := settle_late_reports (s := s) (c := .compress) (word_capacity _) hrule
      exact ⟨_, hready.exec_settle, herr, hword, settle_late_outLen hrule, hinfo⟩

/-- A table without codes has no entry bytes, and encodes nothing (R238). -/
theorem tableBytes_of_entries_eq_nil {t : CodeTable} (h : entries t = []) : tableBytes t = [] := by
  rw [tableBytes, h]; rfl

/-- The container of no bytes, whose counts are all 0 and whose table has no code (R238). -/
theorem containerOf_nil : containerOf [] (buildTable (countTable [])) = [0, 0, 0, 0] ++ sha256 [] ++ [0, 0, 0, 0] := by
  have hcount : ∀ y, countOf (countTable []) y = 0 := fun y => countOf_countTable (by simp) y
  have hentries : entries (buildTable (countTable [])) = [] := by
    rw [entries_eq_nil_iff, buildTable_none hcount]
    exact codeOf_tableOf_nil
  rw [containerOf_eq, tableBytes_of_entries_eq_nil hentries]
  simp [encodeBits, be32bytes, pack, ceil8]

/-- Settles O52: a source of no bytes is legal and meets no destination, and its container is the 40 bytes. -/
theorem emptyInputContainer : Obligations.EmptyInputContainer := by
  intro s hr hlen hd hcap
  have hzero : s.srcLen.toNat = 0 := by rw [hlen]; rfl
  have hsrc : srcBytes s = [] := List.length_eq_zero_iff.1 ((length_srcBytes s).trans hzero)
  have hready : Ready .compress s 40 :=
    ⟨hr, nofun, nofun, fun _ => ⟨by have := s.srcAddr.isLt; omega, fun a h1 h2 => by omega⟩, fun _ => hd,
      fun _ _ => Or.inl hzero⟩
  have hout : (compressResults []).out = [0, 0, 0, 0] ++ sha256 [] ++ [0, 0, 0, 0] := containerOf_nil
  have hlen40 : (compressResults []).out.length = 40 := by rw [hout]; simp
  have hrule : ruleOf .compress s = .success (compressResults []) := by
    have := compressRule_eq s
    rw [hsrc] at this
    exact this.trans ((if_neg (by simp [encodeBits])).trans (if_neg (by rw [hlen40]; omega)))
  refine ⟨_, hready.exec_success hrule hlen40.le, rfl, rfl, ?_, rfl, fun x => ⟨?_, ?_⟩, hout ▸ storesExactly_success _ s⟩
  · rw [complete_outLen, writeResults_outLen, hlen40]; rfl
  · exact BitVec.eq_of_toNat_eq (countOf_countTable (b := []) (by simp) x)
  · have hcount : ∀ y, countOf (countTable []) y = 0 := fun y => countOf_countTable (by simp) y
    show codeOf (buildTable (countTable [])) x = []
    rw [buildTable_none hcount, codeOf_tableOf_nil]

end Sys2Proof.Machine
end

section
/-! PROOFS. DECOMPRESS: when it completes, with what, INTEGRITY, and its errors in order (43_container.md R260,
60_exceptions.md R323). -/

namespace Sys2Proof.Machine

/-- What DECOMPRESS writes for a container `b` of bitLength `l` that decodes to `out` with the table `t` (R260). -/
def decompressResults (b : List Byte) (l : Nat) (t : CodeTable) (out : List Byte) : Results where
  out := out
  code := some t
  digestAct := some (digestWords (sha256 out))
  digestExp := some (digestWords ((b.drop 4).take 32))
  bitLen := some l

/-- The lengths of a container are exact (R260). -/
structure ExactLengths (b : List Byte) (l p : Nat) : Prop where
  bitLength : l = be32 b
  payload : p = ceil8 l
  header : 40 + p ≤ b.length
  table : b.length = 40 + p + be32 (b.drop (36 + p))

/-- Where the lengths are exact, the rule goes on to the table and the payload (R260). -/
theorem decompressRule_of_exact {s : State} {l p : Nat} (h : ExactLengths (srcBytes s) l p) :
    decompressRule s = decompressBody (srcBytes s) l s.dstCap.toNat := by
  obtain ⟨rfl, rfl, h40, hlen⟩ := h
  rw [length_srcBytes] at h40 hlen
  exact (if_neg (by omega)).trans <| (if_neg (by omega)).trans <| (if_neg (by omega)).trans <|
    (if_neg (by omega)).trans (if_neg (by omega))

/-- The test for EMPTY_MISMATCH: no bits exactly with no code (R260). -/
theorem emptyMismatch_eq_false_iff (l : Nat) (t : CodeTable) :
    ((l == 0) != (entries t).isEmpty) = false ↔ (l = 0 ↔ entries t = []) := by
  rw [bne_eq_false_iff_eq, Bool.eq_iff_iff]
  simp

section body
variable {b : List Byte} {l cap : Nat} {t : CodeTable}

theorem decompressBody_of_parse_error {e : CommandError}
    (hp : parseEntries (40 + ceil8 l) (b.drop (40 + ceil8 l)) = .error e) : decompressBody b l cap = .late e := by
  simp only [decompressBody, hp]

variable (hp : parseEntries (40 + ceil8 l) (b.drop (40 + ceil8 l)) = .ok t)
include hp

theorem decompressBody_of_mismatch (h : ¬(l = 0 ↔ entries t = [])) :
    decompressBody b l cap = .late (.format .emptyMismatch 0) := by
  have hne : ((l == 0) != (entries t).isEmpty) = true := by
    rwa [← Bool.not_eq_false, emptyMismatch_eq_false_iff]
  simp only [decompressBody, hp, hne, if_true]

variable (hempty : l = 0 ↔ entries t = [])
include hempty

theorem decompressBody_of_padBad (hpad : padOk ((b.drop 36).take (ceil8 l)) l = false) :
    decompressBody b l cap = .late (.format .padNonzero (36 + ceil8 l - 1)) := by
  have heq := (emptyMismatch_eq_false_iff l t).2 hempty
  simp only [decompressBody, hp, heq, hpad, Bool.not_false, Bool.false_eq_true, if_true, if_false]

variable (hpad : padOk ((b.drop 36).take (ceil8 l)) l = true)
include hpad

theorem decompressBody_of_decode_error {e : CommandError}
    (hdec : decodeBits t (unpack ((b.drop 36).take (ceil8 l)) l) = .error e) : decompressBody b l cap = .late e := by
  have heq := (emptyMismatch_eq_false_iff l t).2 hempty
  simp only [decompressBody, hp, heq, hpad, hdec, Bool.not_true, Bool.false_eq_true, if_false]

theorem decompressBody_of_decode_ok {out : List Byte}
    (hdec : decodeBits t (unpack ((b.drop 36).take (ceil8 l)) l) = .ok out) :
    decompressBody b l cap =
      if cap < out.length then .late (.capacity out.length)
      else if sha256 out = (b.drop 4).take 32 then .success (decompressResults b l t out)
      else .mismatch (decompressResults b l t out) := by
  have heq := (emptyMismatch_eq_false_iff l t).2 hempty
  simp only [decompressBody, decompressResults, hp, heq, hpad, hdec, Bool.not_true, Bool.false_eq_true, if_false]

theorem decompressBody_of_decode {out : List Byte} (hdec : decodeBits t (unpack ((b.drop 36).take (ceil8 l)) l) = .ok out)
    (hcap : out.length ≤ cap) :
    decompressBody b l cap =
      if sha256 out = (b.drop 4).take 32 then .success (decompressResults b l t out)
      else .mismatch (decompressResults b l t out) :=
  (decompressBody_of_decode_ok hp hempty hpad hdec).trans (if_neg (Nat.not_lt.2 hcap))

end body

/-- Settles O53: the rule succeeds with the decoded bytes, and the end writes them. -/
theorem decompressCompletes : Obligations.DecompressCompletes := by
  rintro s b out l p table hr hs hx rfl - hl rfl h40 hlen hp hempty hpad hdec hcap hd hsha
  have hready : Ready .decompress s out.length := ⟨hr, nofun, nofun, fun _ => hs, fun _ => hd, fun _ _ => hx⟩
  have hrule : ruleOf .decompress s = .success (decompressResults (srcBytes s) l table out) :=
    (decompressRule_of_exact ⟨hl, rfl, h40, hlen⟩).trans <|
      (decompressBody_of_decode hp hempty hpad hdec hcap).trans (if_pos hsha)
  refine ⟨_, hready.exec_success hrule (Nat.le_refl _), ?_, ?_, storesExactly_success _ s⟩
  · simp [complete, writeResults, storeResults, decompressResults]
  · simp [decompressResults, hsha]

/-- Settles O54: the rule ends in a mismatch, which keeps what it read and leaves the destination free. -/
theorem decompressMismatchKeepsWhatItRead : Obligations.DecompressMismatchKeepsWhatItRead := by
  rintro s b out l p table hr hs hx rfl - hl rfl h40 hlen hp hempty hpad hdec hcap hd hsha
  have hready : Ready .decompress s s.dstCap.toNat := ⟨hr, nofun, nofun, fun _ => hs, fun _ => hd, fun _ _ => hx⟩
  have hrule : ruleOf .decompress s = .mismatch (decompressResults (srcBytes s) l table out) :=
    (decompressRule_of_exact ⟨hl, rfl, h40, hlen⟩).trans <|
      (decompressBody_of_decode hp hempty hpad hdec hcap).trans (if_neg hsha)
  refine ⟨_, hready.exec_settle, ?_, ?_⟩
  · rw [hrule]
    have hdst : dstBytes s = s.dstCap.toNat := dstBytes_of_legal hd.legal
    have hstale : ∀ r, staleWith (storeResults r s) (dstBytes (storeResults r s)) = staleWith s s.dstCap.toNat :=
      fun _ => hdst ▸ rfl
    simp only [settle, raise, errorEnd, loseDst, hstale]
    simp [storeResults, decompressResults, CommandError.number, CommandError.sub, CommandError.info]
  · rw [hrule]
    exact sameOutside_loseDst (storeResults _ s)

/-- The last payload byte of a container of bitLength `l`. -/
theorem padBad_payload_iff (b : List Byte) (l : Nat) :
    PadBad (b.getD (36 + ceil8 l - 1) 0) l ↔ padOk ((b.drop 36).take (ceil8 l)) l = false := by
  by_cases hz : l % 8 = 0
  · simp [PadBad, padOk, hz]
  · have hpos : 0 < ceil8 l := by unfold ceil8; omega
    have hlast : b.getD (36 + ceil8 l - 1) 0 = ((b.drop 36).take (ceil8 l)).getD (ceil8 l - 1) 0 := by
      simp only [List.getD_eq_getElem?_getD]
      rw [List.getElem?_take_of_lt (by omega), List.getElem?_drop, show 36 + (ceil8 l - 1) = 36 + ceil8 l - 1 by omega]
    rw [hlast, padBad_iff]

/-- Settles O55: with every access completing, the rule's error is reported, and its checks come in R260's order. -/
theorem decompressLengthErrors : Obligations.DecompressLengthErrors := by
  rintro s b l p hr hs hx hd herr rfl hl rfl
  have hready : Ready .decompress s s.dstCap.toNat := ⟨hr, nofun, nofun, fun _ => hs, fun _ => hd, fun _ _ => hx⟩
  have hdef : decompressRule s = ruleOf .decompress s := rfl
  simp only [length_srcBytes]
  refine ⟨_, hready.exec_settle, fun hterr h3 => ?_, fun hlt => settle_late_reports (word_format .truncHeader 0) ?_,
    fun h36 hlt => settle_late_reports (word_format .truncPayload 36) ?_,
    fun h36 hlt => settle_late_reports (word_format .truncTblLen (36 + ceil8 l)) ?_,
    fun h40 hlt => settle_late_reports (word_format .truncTable (40 + ceil8 l)) ?_,
    fun hlt => settle_late_reports
      (word_format .trailing (40 + ceil8 l + be32 ((srcBytes s).drop (36 + ceil8 l)))) ?_,
    fun h40 hlen => ?_⟩
  · rcases ho : ruleOf .decompress s with r | e | e | r
    · rw [ho] at hterr
      exact absurd (herr.symm.trans hterr) (by decide)
    · have := ruleOf_noEarly .decompress s
      rw [ho] at this
      exact this.elim
    · obtain ⟨-, htable, hact, hexp⟩ := settle_late_flags (c := .decompress) (s := s) (o := .late e) rfl
      exact ⟨htable rfl, hact rfl, hexp rfl, rfl⟩
    · rw [ho] at h3
      exact absurd rfl h3
  all_goals subst hl
  · exact if_pos hlt
  · exact (if_neg (by omega)).trans (if_pos hlt)
  · exact (if_neg (by omega)).trans <| (if_neg (by omega)).trans (if_pos hlt)
  · exact (if_neg (by omega)).trans <| (if_neg (by omega)).trans <| (if_neg (by omega)).trans (if_pos hlt)
  · exact (if_neg (by omega)).trans <| (if_neg (by omega)).trans <| (if_neg (by omega)).trans <|
      (if_neg (by omega)).trans (if_pos hlt)
  · have hbody := hdef.symm.trans
      (decompressRule_of_exact ⟨rfl, rfl, by rwa [length_srcBytes], by rwa [length_srcBytes]⟩)
    refine ⟨fun e hp => ?_, fun table u hp hu => ?_⟩
    · rw [hbody.trans (decompressBody_of_parse_error hp)]
      exact ⟨rfl, rfl, rfl, rfl⟩
    · subst hu
      have hok := (tableOk_of_parseEntries hp).1
      rw [padBad_payload_iff]
      refine ⟨fun hne => settle_late_reports (word_format .emptyMismatch 0) ?_,
        fun hempty hbad => settle_late_reports (word_format .padNonzero (36 + ceil8 (be32 (srcBytes s)) - 1)) ?_,
        fun hempty hgood => ?_⟩
      · exact hbody.trans (decompressBody_of_mismatch hp hne)
      · exact hbody.trans (decompressBody_of_padBad hp hempty hbad)
      · have hpad : padOk (((srcBytes s).drop 36).take (ceil8 (be32 (srcBytes s)))) (be32 (srcBytes s)) = true := by
          simpa using hgood
        refine ⟨fun i hi => settle_late_reports (word_format .invalidCode i) ?_,
          fun i hi => settle_late_reports (word_format .truncatedCode i) ?_,
          fun out hcoded hu hcap => settle_late_reports (word_capacity out.length) ?_⟩
        · exact hbody.trans (decompressBody_of_decode_error hp hempty hpad (hok.decodeBits_leavesCodes hi))
        · exact hbody.trans (decompressBody_of_decode_error hp hempty hpad (hok.decodeBits_endsInCode hi))
        · have hdec := hok.decodeBits_codes hcoded
          rw [← hu] at hdec
          exact (hbody.trans (decompressBody_of_decode_ok hp hempty hpad hdec)).trans (if_pos hcap)

end Sys2Proof.Machine
end

section
/-! PROOFS. The round trip of COMPRESS and DECOMPRESS (O56) and the detection of a changed payload (O57)
(43_container.md R230, R265). -/

namespace Sys2Proof.Machine

/-! ### What a completed command did -/

/-- A success after bus errors is the rule's, and no access of its got a bus error (R316 item 2). -/
theorem busOutcome_eq_success {c : Instr} {o : RuleOutcome} {s : State} {r : Results}
    (h : busOutcome c o s = .success r) : o = .success r ∧ badReads c s ++ badWrites c r.out.length s = [] := by
  rcases busOutcome_cases c o s with ho | ⟨a, ⟨ho, -⟩ | ⟨q, -, ho, -⟩⟩
  · rw [h] at ho
    subst ho
    refine ⟨rfl, ?_⟩
    rcases hb : badReads c s ++ badWrites c r.out.length s with _ | ⟨a, as⟩
    · rfl
    · simp only [busOutcome, hb] at h
      cases h
  · cases h.symm.trans ho
  · cases h.symm.trans ho

/-- Only a success sets DONE (R320, R325). -/
theorem exists_success_of_settle_done {c : Instr} {o : RuleOutcome} {s : State} (hd : s.done = false)
    (h : (settle c o s).done = true) : ∃ r, o = .success r := by
  have hlost : (loseResults c s).done = s.done := by
    unfold loseResults
    cases (profile c).writesDst <;> rfl
  rcases o with r | e | e | r
  · exact ⟨r, rfl⟩
  · exact absurd (hd.symm.trans h) (by decide)
  · exact absurd ((hlost.trans hd).symm.trans h) (by decide)
  · exact absurd (hd.symm.trans h) (by decide)

/-- A command that completes passed its start check, its rule succeeded, its accesses completed, and its results are
written (R325). -/
theorem exec_of_done {i : Instr} {s t : State} (hr : s.NoRace) (hd : s.done = false) (h : exec i s = .next t)
    (ht : t.done = true) :
    ∃ r, prologue i s = none ∧ ruleOf i s = .success r ∧ badReads i s ++ badWrites i r.out.length s = [] ∧
      t = complete (writeResults r s) := by
  rw [exec_eq, runCommand_of_noRace hr] at h
  cases h
  obtain ⟨r, ho⟩ := exists_success_of_settle_done hd ht
  obtain ⟨hrule, hbus⟩ := busOutcome_eq_success ho
  rcases hp : prologue i s with _ | e
  · rw [checkedOutcome_of_none hp] at hrule
    exact ⟨r, rfl, hrule, hbus, by rw [ho]; rfl⟩
  · rw [checkedOutcome_of_some hp] at hrule
    cases hrule

/-- A success leaves its output at the destination (R39). -/
theorem readRange_success (r : Results) (s : State) :
    Memory.readRange (complete (writeResults r s)).mem s.dstAddr.toNat r.out.length = r.out := by
  refine List.ext_getElem (Memory.length_readRange _ _ _) fun k h1 h2 => ?_
  rw [Memory.getElem_readRange, storesExactly_success r s, if_pos ⟨by omega, by omega⟩, Nat.add_sub_cancel_left,
    List.getD_eq_getElem _ _ h2]

/-- A rule's output has less than 2^32 bytes, as DST_CAP has 32 bits (R38, R39). -/
theorem length_out_lt {i : Instr} {s : State} {r : Results} (h : ruleOf i s = .success r) : r.out.length < 2 ^ 32 := by
  have hf := ruleOf_fits i s
  rw [h] at hf
  exact Nat.lt_of_le_of_lt hf.room s.dstCap.isLt

/-- After a success OUT_LEN is the output's length (R39). -/
theorem toNat_outLen_success {r : Results} (h : r.out.length < 2 ^ 32) (s : State) :
    (complete (writeResults r s)).outLen.toNat = r.out.length :=
  (BitVec.toNat_ofNat _ _).trans (Nat.mod_eq_of_lt h)

/-! ### Containers by their parts -/

/-- The container of bitLength `l` with these digest, payload and entry bytes (R230). -/
def containerWith (l : Nat) (digest payload es : List Byte) : List Byte :=
  (be32bytes l ++ digest) ++ (payload ++ (be32bytes es.length ++ es))

theorem containerOf_eq_containerWith (b : List Byte) (t : CodeTable) :
    containerOf b t = containerWith (encodeBits t b).length (sha256 b) (pack (encodeBits t b)) (tableBytes t) := by
  simp only [containerOf_eq, containerWith, List.append_assoc]

section parts
variable {l : Nat} {digest payload es : List Byte} (hd : digest.length = 32)
include hd

theorem take_containerWith : (containerWith l digest payload es).take 36 = be32bytes l ++ digest :=
  List.take_left' (by simp [hd])

theorem drop_containerWith :
    (containerWith l digest payload es).drop 36 = payload ++ (be32bytes es.length ++ es) :=
  List.drop_left' (by simp [hd])

omit hd in
theorem be32_containerWith (hl : l < 2 ^ 32) : be32 (containerWith l digest payload es) = l := by
  rw [containerWith, List.append_assoc]
  exact be32_be32bytes_append l hl _

theorem digest_containerWith : ((containerWith l digest payload es).drop 4).take 32 = digest := by
  rw [containerWith, List.append_assoc, List.drop_left' (length_be32bytes l), List.take_left' hd]

variable (hp : payload.length = ceil8 l)
include hp

theorem payload_containerWith : ((containerWith l digest payload es).drop 36).take (ceil8 l) = payload := by
  rw [drop_containerWith hd, List.take_left' hp]

theorem drop_payload_containerWith :
    (containerWith l digest payload es).drop (36 + ceil8 l) = be32bytes es.length ++ es := by
  rw [← List.drop_drop, drop_containerWith hd, List.drop_left' hp]

theorem entries_containerWith : (containerWith l digest payload es).drop (40 + ceil8 l) = es := by
  rw [show 40 + ceil8 l = 36 + ceil8 l + 4 by omega, ← List.drop_drop, drop_payload_containerWith hd hp,
    List.drop_left' (length_be32bytes _)]

theorem exactLengths_containerWith (hl : l < 2 ^ 32) (hes : es.length < 2 ^ 32) :
    ExactLengths (containerWith l digest payload es) l (ceil8 l) := by
  have hlen : (containerWith l digest payload es).length = 40 + ceil8 l + es.length := by
    simp only [containerWith, List.length_append, length_be32bytes, hd, hp]
    omega
  refine ⟨(be32_containerWith hl).symm, rfl, by omega, ?_⟩
  rw [drop_payload_containerWith hd hp, be32_be32bytes_append _ hes, hlen]

end parts

/-! ### Bytes that agree but for a range -/

theorem take_eq_of_agree {c d : List Byte} {n : Nat} (hlen : d.length = c.length)
    (h : ∀ k, k < n → d.getD k 0 = c.getD k 0) : d.take n = c.take n := by
  refine List.ext_getElem (by simp [hlen]) fun k h1 h2 => ?_
  rw [List.length_take] at h1 h2
  have := h k (by omega)
  rw [List.getD_eq_getElem _ _ (by omega), List.getD_eq_getElem _ _ (by omega)] at this
  rw [List.getElem_take, List.getElem_take, this]

theorem drop_eq_of_agree {c d : List Byte} {n : Nat} (hlen : d.length = c.length)
    (h : ∀ k, n ≤ k → d.getD k 0 = c.getD k 0) : d.drop n = c.drop n := by
  refine List.ext_getElem (by simp [hlen]) fun k h1 h2 => ?_
  rw [List.length_drop] at h1 h2
  have := h (n + k) (by omega)
  rw [List.getD_eq_getElem _ _ (by omega), List.getD_eq_getElem _ _ (by omega)] at this
  rw [List.getElem_drop, List.getElem_drop, this]

/-- A copy of a container that differs in payload bytes alone is a container with another payload. -/
theorem eq_containerWith_of_agree {l : Nat} {digest payload es d : List Byte} (hd : digest.length = 32)
    (hp : payload.length = ceil8 l) (hlen : d.length = (containerWith l digest payload es).length)
    (h : ∀ k, ¬(36 ≤ k ∧ k < 36 + ceil8 l) → d.getD k 0 = (containerWith l digest payload es).getD k 0) :
    d = containerWith l digest ((d.drop 36).take (ceil8 l)) es := by
  have hhead := take_eq_of_agree (n := 36) hlen fun k hk => h k (by omega)
  have htail := drop_eq_of_agree (n := 36 + ceil8 l) hlen fun k hk => h k (by omega)
  rw [take_containerWith hd] at hhead
  rw [drop_payload_containerWith hd hp, ← List.drop_drop] at htail
  calc d = d.take 36 ++ ((d.drop 36).take (ceil8 l) ++ (d.drop 36).drop (ceil8 l)) := by
        rw [List.take_append_drop, List.take_append_drop]
    _ = containerWith l digest ((d.drop 36).take (ceil8 l)) es := by rw [hhead, htail]; rfl

/-! ### The container COMPRESS wrote -/

/-- COMPRESS's table has a code for every byte of the source. -/
theorem codeOf_buildTable_countTable {b : List Byte} (hb : b.length < 2 ^ 32) {x : Byte} (hx : x ∈ b) :
    codeOf (buildTable (countTable b)) x ≠ [] := by
  rw [codeOf_buildTable_ne_nil_iff, countOf_countTable hb]
  exact Nat.ne_of_gt (List.count_pos_iff.2 hx)

/-- COMPRESS's table has no code exactly when there is nothing to encode (R238). -/
theorem encodeBits_length_eq_zero_iff {b : List Byte} (hb : b.length < 2 ^ 32) :
    (encodeBits (buildTable (countTable b)) b).length = 0 ↔ entries (buildTable (countTable b)) = [] := by
  rw [entries_eq_nil_iff]
  constructor
  · intro hz
    have hle := length_le_length_flatMap_codeOf fun x hx => codeOf_buildTable_countTable hb (x := x) hx
    obtain rfl : b = [] := List.length_eq_zero_iff.1 (by unfold encodeBits at hz; omega)
    exact fun x => not_not.1 fun hx => (codeOf_buildTable_ne_nil_iff _ x).1 hx (countOf_countTable hb x)
  · intro hnone
    simp [encodeBits, hnone]

/-- What a completed COMPRESS did: the container of its source fits, is in memory, and its bitLength is below 2^32
(R230, R250). -/
theorem exec_compress_of_done {s t : State} (hr : s.NoRace) (hd : s.done = false) (h : exec .compress s = .next t)
    (ht : t.done = true) :
    ∃ l, l = (encodeBits (buildTable (countTable (srcBytes s))) (srcBytes s)).length ∧ l < 2 ^ 32 ∧ t.bitLen.toNat = l ∧
      Memory.readRange t.mem s.dstAddr.toNat t.outLen.toNat =
        containerWith l (sha256 (srcBytes s)) (pack (encodeBits (buildTable (countTable (srcBytes s))) (srcBytes s)))
          (tableBytes (buildTable (countTable (srcBytes s)))) := by
  obtain ⟨r, -, hrule, -, rfl⟩ := exec_of_done hr hd h ht
  have hout := length_out_lt hrule
  have heq := (compressRule_eq s).symm.trans hrule
  split at heq
  · cases heq
  · rename_i hlong
    split at heq
    · cases heq
    · cases heq
      have hlt : (encodeBits (buildTable (countTable (srcBytes s))) (srcBytes s)).length < 2 ^ 32 := by omega
      refine ⟨_, rfl, hlt, ?_, ?_⟩
      · exact (BitVec.toNat_ofNat _ _).trans (Nat.mod_eq_of_lt hlt)
      · rw [toNat_outLen_success hout, readRange_success]
        exact containerOf_eq_containerWith _ _

/-- DECOMPRESS of a container with the table of the bytes `b` goes on to its payload (R260). -/
theorem decompressRule_containerWith {u : State} {b digest payload : List Byte} {l : Nat} (hb : b.length < 2 ^ 32)
    (hl : l = (encodeBits (buildTable (countTable b)) b).length) (hlt : l < 2 ^ 32) (hd : digest.length = 32)
    (hp : payload.length = ceil8 l)
    (hu : srcBytes u = containerWith l digest payload (tableBytes (buildTable (countTable b)))) :
    ruleOf .decompress u = decompressBody (srcBytes u) l u.dstCap.toNat ∧
      parseEntries (40 + ceil8 l) ((srcBytes u).drop (40 + ceil8 l)) = .ok (buildTable (countTable b)) ∧
      (l = 0 ↔ entries (buildTable (countTable b)) = []) ∧ ((srcBytes u).drop 36).take (ceil8 l) = payload ∧
      ((srcBytes u).drop 4).take 32 = digest := by
  have hshort := length_codeOf_buildTable_le (countTable b)
  have hes := length_tableBytes_le hshort
  have hexact := exactLengths_containerWith hd hp hlt
    (show (tableBytes (buildTable (countTable b))).length < 2 ^ 32 by omega)
  refine ⟨decompressRule_of_exact (hu ▸ hexact), ?_, hl ▸ encodeBits_length_eq_zero_iff hb, ?_, ?_⟩
  · rw [hu, entries_containerWith hd hp]
    exact parseEntries_tableBytes _ (tableOk_buildTable _) hshort
  · rw [hu, payload_containerWith hd hp]
  · rw [hu, digest_containerWith hd]

/-- Settles O56: the container is parsed back to its table, its payload unpacks to the codes of the source bytes, and
these decode to the source bytes, whose digest is the stored one. -/
theorem compressThenDecompress : Obligations.CompressThenDecompress := by
  intro s t u hr hd h ht hur hus hux hud hcap hsrc
  obtain ⟨l, hl, hlt, -, hread⟩ := exec_compress_of_done hr hd h ht
  have hb := length_srcBytes_lt s
  have hp : (pack (encodeBits (buildTable (countTable (srcBytes s))) (srcBytes s))).length = ceil8 l := by
    rw [length_pack, hl]
  obtain ⟨hrule, hparse, hempty, hpayload, hdigest⟩ :=
    decompressRule_containerWith hb hl hlt (length_sha256 _) hp (hsrc.trans hread)
  have hpad : padOk (((srcBytes u).drop 36).take (ceil8 l)) l = true := by rw [hpayload, hl, padOk_pack]
  have hdec : decodeBits (buildTable (countTable (srcBytes s))) (unpack (((srcBytes u).drop 36).take (ceil8 l)) l) =
      .ok (srcBytes s) := by
    rw [hpayload, hl, unpack_pack]
    exact (tableOk_buildTable _).decodeBits_codes fun x hx => codeOf_buildTable_countTable hb hx
  have hready : Ready .decompress u s.srcLen.toNat := ⟨hur, nofun, nofun, fun _ => hus, fun _ => hud, fun _ _ => hux⟩
  have hlen := length_srcBytes s
  have hsuccess : ruleOf .decompress u =
      .success (decompressResults (srcBytes u) l (buildTable (countTable (srcBytes s))) (srcBytes s)) :=
    hrule.trans <| (decompressBody_of_decode hparse hempty hpad hdec (hlen.trans_le hcap)).trans (if_pos hdigest.symm)
  refine ⟨_, hready.exec_success hsuccess hlen.le, rfl, rfl, ?_, ?_, ?_⟩
  · rw [complete_outLen, writeResults_outLen]
    exact (congrArg (BitVec.ofNat 32) hlen).trans (BitVec.ofNat_toNat _ _)
  · have := readRange_success
      (decompressResults (srcBytes u) l (buildTable (countTable (srcBytes s))) (srcBytes s)) u
    rwa [show (decompressResults (srcBytes u) l (buildTable (countTable (srcBytes s))) (srcBytes s)).out.length =
      s.srcLen.toNat from hlen] at this
  · simp [decompressResults, hdigest]

/-- Settles O57: a changed payload has bad pads, does not decode, decodes to bytes of another digest, or to bytes of
the same digest; these are not the source bytes, whose packed codes are the payload COMPRESS wrote. -/
theorem corruptedPayloadNeedsACollision : Obligations.CorruptedPayloadNeedsACollision := by
  rintro s t u c d hr hd h ht rfl rfl hlen hagree hne hur hus hux hud hcap huerr
  obtain ⟨l, hl, hlt, hbits, hread⟩ := exec_compress_of_done hr hd h ht
  rw [hbits] at hagree hcap
  rw [hread] at hlen hagree hne
  have hb := length_srcBytes_lt s
  have hp : (pack (encodeBits (buildTable (countTable (srcBytes s))) (srcBytes s))).length = ceil8 l := by
    rw [length_pack, hl]
  have hcopy := eq_containerWith_of_agree (length_sha256 _) hp hlen hagree
  generalize hpay : ((srcBytes u).drop 36).take (ceil8 l) = payload at hcopy
  have hpl : payload.length = ceil8 l := by
    have := congrArg List.length hcopy
    rw [hlen] at this
    simp only [containerWith, List.length_append] at this
    omega
  obtain ⟨hrule, hparse, hempty, -, hdigest⟩ := decompressRule_containerWith hb hl hlt (length_sha256 _) hpl hcopy
  have hready : Ready .decompress u u.dstCap.toNat := ⟨hur, nofun, nofun, fun _ => hus, fun _ => hud, fun _ _ => hux⟩
  refine ⟨_, hready.exec_settle, ?_⟩
  rcases hpad : padOk payload l with _ | _
  · rw [hrule.trans (decompressBody_of_padBad hparse hempty (hpay ▸ hpad))]
    exact Or.inl ⟨rfl, Or.inl rfl⟩
  · rcases hdec : decodeBits (buildTable (countTable (srcBytes s))) (unpack payload l) with e | out
    · obtain ⟨sub, info, rfl⟩ := exists_format_of_decodeFrom hdec
      rw [hrule.trans (decompressBody_of_decode_error hparse hempty (hpay ▸ hpad) (hpay ▸ hdec))]
      exact Or.inl ⟨rfl, Or.inl rfl⟩
    · obtain ⟨hcodes, hcoded⟩ := eq_flatMap_of_decodeBits hdec
      have hroom : out.length ≤ u.dstCap.toNat := by
        have := length_le_length_flatMap_codeOf hcoded
        rw [← hcodes, length_unpack] at this
        omega
      rw [hrule.trans (decompressBody_of_decode hparse hempty (hpay ▸ hpad) (hpay ▸ hdec) hroom)]
      by_cases hsha : sha256 out = ((srcBytes u).drop 4).take 32
      · rw [if_pos hsha]
        refine Or.inr ⟨out, ?_, ?_, hsha.trans hdigest⟩
        · have hout : (decompressResults (srcBytes u) l (buildTable (countTable (srcBytes s))) out).out.length < 2 ^ 32 :=
            Nat.lt_of_le_of_lt hroom u.dstCap.isLt
          rw [settle, toNat_outLen_success hout, readRange_success]
          rfl
        · rintro rfl
          apply hne
          rw [hcopy, ← pack_unpack hpl hpad, hcodes]
          rfl
      · rw [if_neg hsha]
        exact Or.inl ⟨rfl, Or.inr rfl⟩

end Sys2Proof.Machine
end

section
/-! PROOFS. What the end of any command does and leaves alone: its outcome, its frames, its late and bus errors
(60_exceptions.md sections 1 to 4, 20_memory.md section 3). -/

namespace Sys2Proof.Machine

/-! ### The outcome registers -/

/-- How a command ends: it completes and leaves the error registers, or it ends in an error of one of the nine classes,
with a subcode for FORMAT alone (R311, R312, R320, R325). -/
inductive EndsAs (s t : State) : Prop
  | completed (done : t.done = true) (err : t.err = s.err) (code : t.errCode = s.errCode) (sub : t.errSub = s.errSub)
      (info : t.errInfo = s.errInfo)
  | failed (done : t.done = s.done) (err : t.err = true) (least : 1 ≤ t.errCode.toNat) (greatest : t.errCode.toNat ≤ 9)
      (subBound : t.errSub.toNat ≤ 15) (sub : t.errCode ≠ 2 → t.errSub = 0)

theorem CommandError.number_bounds (e : CommandError) : 1 ≤ e.number.toNat ∧ e.number.toNat ≤ 9 := by
  cases e <;> simp [number]

theorem CommandError.sub_le (e : CommandError) : e.sub.toNat ≤ 15 := by
  cases e
  case format sub info => cases sub <;> simp [CommandError.sub, FormatSub.number]
  all_goals simp [CommandError.sub]

theorem CommandError.sub_eq_zero (e : CommandError) (h : e.number ≠ 2) : e.sub = 0 := by
  cases e
  case format sub info => exact absurd rfl h
  all_goals rfl

/-- An error end over a state whose DONE is as before. -/
theorem EndsAs.of_raise {s u : State} (e : CommandError) (h : u.done = s.done) : EndsAs s (raise e u) :=
  .failed h rfl e.number_bounds.1 e.number_bounds.2 e.sub_le e.sub_eq_zero

theorem loseResults_done (c : Instr) (s : State) : (loseResults c s).done = s.done := by
  unfold loseResults
  cases (profile c).writesDst <;> rfl

theorem endCommand_endsAs (c : Instr) (body : State → RuleOutcome) (s : State) : EndsAs s (endCommand c body s) := by
  rcases endCommand_cases c body s with ⟨-, h⟩ | ⟨e, h⟩ | ⟨e, h⟩ | ⟨r, -, -, h⟩ | ⟨r, -, -, h⟩ <;> rw [h]
  · obtain ⟨v, w, h | ⟨n, m, h1, h9, h15, hsub, h⟩⟩ := racedEnd_cases c s <;> rw [h]
    · exact .completed rfl rfl rfl rfl rfl
    · exact .failed rfl rfl h1 h9 h15 hsub
  · exact .of_raise e rfl
  · exact .of_raise e (loseResults_done c s)
  · exact .completed rfl rfl rfl rfl rfl
  · exact .of_raise .integrity rfl

/-- A raced destination does not touch the outcome (R93 item 4). -/
theorem EndsAs.clearRaces {s u : State} (b : Bool) (h : EndsAs s u) : EndsAs s (clearRaces (loseDstIf b u)) := by
  rcases h with ⟨h1, h2, h3, h4, h5⟩ | ⟨h1, h2, h3, h4, h5, h6⟩ <;> cases b
  · exact .completed h1 h2 h3 h4 h5
  · exact .completed h1 h2 h3 h4 h5
  · exact .failed h1 h2 h3 h4 h5 h6
  · exact .failed h1 h2 h3 h4 h5 h6

theorem runCommand_endsAs (c : Instr) (body : State → RuleOutcome) (s : State) : EndsAs s (runCommand c body s) :=
  (endCommand_endsAs c body s).clearRaces s.dstRace

/-- The next state of a command is the end of its rule (R310). -/
theorem eq_runCommand_of_exec {i : Instr} {s t : State} (h : exec i s = .next t) : t = runCommand i (ruleOf i) s := by
  rw [exec_eq] at h
  cases h
  rfl

/-- Settles O22: the end step leaves phase IDLE and either completes or reports an error. -/
theorem everyCommandEnds : Obligations.EveryCommandEnds := by
  refine fun i s => ⟨_, exec_eq i s, (runCommand_keepsControl i _ s).phase, fun hd he => ?_⟩
  rcases runCommand_endsAs i (ruleOf i) s with ⟨hdone, herr⟩ | ⟨hdone, herr⟩ <;> simp [hdone, herr, hd, he]

/-- Settles O23: DONE or ERR is 1 at every end. -/
theorem interruptAtEveryEnd : Obligations.InterruptAtEveryEnd := by
  intro i s t h
  rw [eq_runCommand_of_exec h, State.irq, (runCommand_keepsControl i _ s).ie]
  rcases runCommand_endsAs i (ruleOf i) s with ⟨hdone, _⟩ | ⟨_, herr⟩
  · simp [hdone]
  · simp [herr]

/-! ### Frames -/

/-- Settles O24: by the frame of the end step. -/
theorem commandsKeepControlAndOperands : Obligations.CommandsKeepControlAndOperands := by
  intro i s t h
  rw [eq_runCommand_of_exec h]
  have k := runCommand_keepsControl i (ruleOf i) s
  have g := runCommand_growsStale (ruleOf_fits i s)
  exact ⟨k.ie, k.cmd, k.ovr, k.srcAddr, k.srcLen, k.dstAddr, k.dstCap, k.platform, k.inputs, k.port, k.dirty,
    g.coherent, g.keeps, g.within⟩

theorem writesFreq_eq_false {i : Instr} (h : i ∉ [Instr.count, .compress]) : (profile i).writesFreq = false := by
  revert h; cases i <;> decide

theorem writesTable_eq_false {i : Instr} (h : i ∉ [Instr.build, .tblLoad, .compress, .decompress]) :
    (profile i).writesTable = false := by
  revert h; cases i <;> decide

theorem writesAct_eq_false {i : Instr} (h : i ∉ [Instr.digest, .compress, .decompress]) :
    (profile i).writesAct = false := by
  revert h; cases i <;> decide

theorem writesExp_eq_false {i : Instr} (h : i ∉ [Instr.decompress]) : (profile i).writesExp = false := by
  revert h; cases i <;> decide

theorem writesBitLen_eq_false {i : Instr} (h : i ∉ [Instr.encode, .compress, .decompress]) :
    (profile i).writesBitLen = false := by
  revert h; cases i <;> decide

/-- Settles O25: the end step changes only what the command's profile lists. -/
theorem commandsKeepUnlistedResults : Obligations.CommandsKeepUnlistedResults := by
  intro i s t h
  rw [eq_runCommand_of_exec h]
  have k := runCommand_keepsUnlisted (ruleOf_fits i s)
  exact ⟨fun hi => k.freq (writesFreq_eq_false hi), fun hi => k.table (writesTable_eq_false hi),
    fun hi => k.act (writesAct_eq_false hi), fun hi => k.exp (writesExp_eq_false hi),
    fun hi => k.bitLen (writesBitLen_eq_false hi)⟩

/-- Settles O26: a command without a destination leaves memory as it is. -/
theorem memoryKeptWithoutDestination : Obligations.MemoryKeptWithoutDestination := by
  intro i s t hr hi h a
  have hw : (profile i).writesDst = false := by
    revert hi; cases i <;> decide
  rw [eq_runCommand_of_exec h, runCommand_mem_of_noDst hr hw (ruleOf_fits i s)]

/-- Settles O27: the end step writes nothing outside the destination region. -/
theorem memoryKeptOutsideDestination : Obligations.MemoryKeptOutsideDestination := by
  intro i s t h
  rw [eq_runCommand_of_exec h]
  exact runCommand_sameOutside (ruleOf_fits i s)

/-- Settles O28: a completed command stored its output, OUT_LEN bytes, which fit. -/
theorem completionWritesOutLenBytes : Obligations.CompletionWritesOutLenBytes := by
  intro i s t hr hd h ht
  obtain ⟨r, -, hrule, -, rfl⟩ := exec_of_done hr hd h ht
  have hf := ruleOf_fits i s
  rw [hrule] at hf
  rw [toNat_outLen_success (length_out_lt hrule)]
  exact ⟨hf.room, Memory.sameOutside_writeRange _ _ _⟩

/-! ### Errors -/

/-- The start check raises NOT_READY and RANGE alone (R319). -/
theorem number_of_prologue {i : Instr} {s : State} {e : CommandError} (h : prologue i s = some e) :
    e.number = 4 ∨ e.number = 6 := by
  simp only [prologue] at h
  split at h
  · exact Or.inl (Option.some.inj h ▸ rfl)
  · split at h
    · exact Or.inl (Option.some.inj h ▸ rfl)
    · split at h
      · exact Or.inr (Option.some.inj h ▸ rfl)
      · cases h

/-- How a command that the host did not race fails: in its start check, by a late error, or by INTEGRITY. -/
theorem exec_of_err {i : Instr} {s t : State} (hr : s.NoRace) (he : s.err = false) (h : exec i s = .next t)
    (ht : t.err = true) :
    (∃ e, prologue i s = some e ∧ t = raise e s) ∨
      (∃ e, busOutcome i (ruleOf i s) s = .late e ∧ t = settle i (.late e) s) ∨
        ∃ r, t = settle i (.mismatch r) s := by
  rcases hp : prologue i s with _ | e
  · have hout := busOutcome_noEarly (ruleOf_noEarly i s) i s
    rw [exec_eq, runCommand_of_noRace hr, checkedOutcome_of_none hp] at h
    cases h
    rcases ho : busOutcome i (ruleOf i s) s with r | e | e | r <;> rw [ho] at hout ht
    · exact absurd (he.symm.trans ht) (by decide)
    · exact hout.elim
    · exact Or.inr (Or.inl ⟨e, rfl, rfl⟩)
    · exact Or.inr (Or.inr ⟨r, rfl⟩)
  · rw [exec_of_prologue_some hr hp] at h
    cases h
    exact Or.inl ⟨e, rfl, rfl⟩

theorem writesFreq_iff (i : Instr) : (profile i).writesFreq = true ↔ i ∈ [Instr.count, .compress] := by
  cases i <;> decide

theorem writesTable_iff (i : Instr) :
    (profile i).writesTable = true ↔ i ∈ [Instr.build, .tblLoad, .compress, .decompress] := by
  cases i <;> decide

theorem writesAct_iff (i : Instr) : (profile i).writesAct = true ↔ i ∈ [Instr.digest, .compress, .decompress] := by
  cases i <;> decide

theorem writesExp_iff (i : Instr) : (profile i).writesExp = true ↔ i = .decompress := by cases i <;> decide

/-- Settles O31: an error outside the classes 3, 4 and 6 is late, and a late error clears the flags. -/
theorem lateErrorsClearFlags : Obligations.LateErrorsClearFlags := by
  intro i s t hr he h ht
  rcases exec_of_err hr he h ht with ⟨e, hp, rfl⟩ | ⟨e, -, rfl⟩ | ⟨r, rfl⟩
  · exact ⟨rfl, fun _ h4 h6 => absurd (number_of_prologue hp) (not_or.2 ⟨h4, h6⟩)⟩
  · obtain ⟨hf, hc, ha, hx⟩ := settle_late_flags (c := i) (s := s) (o := .late e) rfl
    exact ⟨rfl, fun _ _ _ => ⟨fun hi => hf ((writesFreq_iff i).2 hi), fun hi => hc ((writesTable_iff i).2 hi),
      fun hi => ha ((writesAct_iff i).2 hi), fun hi => hx ((writesExp_iff i).2 hi)⟩⟩
  · exact ⟨rfl, fun h3 => absurd rfl h3⟩

/-! ### Bus errors -/

theorem mem_badReads (i : Instr) (s : State) (a : Nat) :
    a ∈ badReads i s ↔ (profile i).readsSrc = true ∧ (s.srcAddr.toNat ≤ a ∧ a < s.srcAddr.toNat + s.srcLen.toNat) ∧
      busOk s.platform a .read = false := by
  unfold badReads
  split
  next h => simp [mem_badAddrs, h]
  next h => simp [h]

theorem mem_badWrites (i : Instr) (n : Nat) (s : State) (a : Nat) :
    a ∈ badWrites i n s ↔ (profile i).writesDst = true ∧ (s.dstAddr.toNat ≤ a ∧ a < s.dstAddr.toNat + n) ∧
      busOk s.platform a .write = false := by
  unfold badWrites
  split
  next h => simp [mem_badAddrs, h]
  next h => simp [h]

/-- The outcome's late error, if it is one, is not BUS. -/
def RuleOutcome.NoBus : RuleOutcome → Prop
  | .success _ | .mismatch _ | .early _ => True
  | .late e => e.number ≠ 7

theorem RuleOutcome.NoBus.ite {c : Prop} [Decidable c] {a b : RuleOutcome} (ha : a.NoBus) (hb : b.NoBus) :
    (if c then a else b).NoBus := by
  split
  · exact ha
  · exact hb

theorem RuleOutcome.NoBus.late {e : CommandError} (h : e.number ≠ 7) : (RuleOutcome.late e).NoBus := h

theorem RuleOutcome.NoBus.format (sub : FormatSub) (n : Nat) : (RuleOutcome.late (.format sub n)).NoBus :=
  .late (by decide : (2 : BitVec 8) ≠ 7)

theorem RuleOutcome.NoBus.capacity (n : Nat) : (RuleOutcome.late (.capacity n)).NoBus :=
  .late (by decide : (5 : BitVec 8) ≠ 7)

/-- ParseEntries fails with a FORMAT error alone (R235). -/
theorem exists_format_of_parseFrom {base fuel o next : Nat} {acc : List (Byte × Bits)} {bs : List Byte}
    {e : CommandError} (h : parseFrom base fuel o next acc bs = .error e) : ∃ sub info, e = .format sub info := by
  fun_induction parseFrom base fuel o next acc bs
  case case1 => cases h
  case case9 ih => exact ih h
  case case2 | case3 | case4 | case5 | case6 | case7 | case8 => exact ⟨_, _, (Except.error.inj h).symm⟩

theorem exists_format_of_parseEntries {base : Nat} {bs : List Byte} {e : CommandError}
    (h : parseEntries base bs = .error e) : ∃ sub info, e = .format sub info := by
  rcases hp : parseFrom base bs.length 0 0 [] bs with x | es
  · rw [parseEntries_of_error hp] at h
    exact exists_format_of_parseFrom (hp.trans (Except.error.inj h ▸ rfl))
  · rw [parseEntries_of_ok hp] at h
    split at h
    · cases h
    · exact ⟨_, _, (Except.error.inj h).symm⟩

theorem noBus_of_decodeBits {t : CodeTable} {u : Bits} {e : CommandError} (h : decodeBits t u = .error e) :
    (RuleOutcome.late e).NoBus := by
  obtain ⟨sub, n, rfl⟩ := exists_format_of_decodeFrom h
  exact .format sub n

theorem noBus_of_parseEntries {base : Nat} {bs : List Byte} {e : CommandError} (h : parseEntries base bs = .error e) :
    (RuleOutcome.late e).NoBus := by
  obtain ⟨sub, n, rfl⟩ := exists_format_of_parseEntries h
  exact .format sub n

theorem encodeRule_noBus (s : State) : (encodeRule s).NoBus := by
  simp only [encodeRule]
  split
  · exact .late (by decide : (9 : BitVec 8) ≠ 7)
  · exact .ite (.late (by decide : (8 : BitVec 8) ≠ 7)) (.ite (.capacity _) trivial)

theorem decodeRule_noBus (s : State) : (decodeRule s).NoBus := by
  refine .ite (.format _ _) (.ite (.format _ _) (.ite (.format _ _) ?_))
  split
  · exact noBus_of_decodeBits (by assumption)
  · exact .ite (.capacity _) trivial

theorem tblLoadRule_noBus (s : State) : (tblLoadRule s).NoBus := by
  refine .ite (.format _ _) (.ite (.format _ _) (.ite (.format _ _) ?_))
  split
  · exact noBus_of_parseEntries (by assumption)
  · trivial

theorem decompressBody_noBus (b : List Byte) (l cap : Nat) : (decompressBody b l cap).NoBus := by
  simp only [decompressBody]
  split
  · exact noBus_of_parseEntries (by assumption)
  · refine .ite (.format _ _) (.ite (.format _ _) ?_)
    split
    · exact noBus_of_decodeBits (by assumption)
    · exact .ite (.capacity _) (.ite trivial trivial)

/-- BUS is no error of a rule: it comes from the accesses (R316). -/
theorem ruleOf_noBus (i : Instr) (s : State) : (ruleOf i s).NoBus := by
  cases i
  case nop | count | build | digest => trivial
  case encode => exact encodeRule_noBus s
  case decode => exact decodeRule_noBus s
  case tblStore => exact .ite (.capacity _) trivial
  case tblLoad => exact tblLoadRule_noBus s
  case compress => exact .ite (.late (by decide : (8 : BitVec 8) ≠ 7)) (.ite (.capacity _) trivial)
  case decompress =>
    exact .ite (.format _ _) (.ite (.format _ _) (.ite (.format _ _) (.ite (.format _ _)
      (.ite (.format _ _) (decompressBody_noBus _ _ _)))))

/-- BUS names an address of a region where BusOk is false (R316). -/
theorem exists_bad_of_busOutcome {i : Instr} {s : State} {e : CommandError} (h : busOutcome i (ruleOf i s) s = .late e)
    (h7 : e.number = 7) : ∃ a, e = .bus a ∧ a ∈ badReads i s ++ badWrites i s.dstCap.toNat s := by
  rcases busOutcome_cases i (ruleOf i s) s with ho | ⟨a, ⟨ho, ha⟩ | ⟨r, hr, ho, ha⟩⟩ <;> rw [h] at ho
  · have := ruleOf_noBus i s
    rw [← ho] at this
    exact absurd h7 this
  · cases ho
    exact ⟨a, rfl, ha⟩
  · cases ho
    have hf := ruleOf_fits i s
    rw [hr] at hf
    refine ⟨a, rfl, ?_⟩
    rw [List.mem_append, mem_badReads, mem_badWrites] at ha ⊢
    exact ha.imp_right fun ⟨hw, hin, hbad⟩ => ⟨hw, ⟨hin.1, Nat.lt_of_lt_of_le hin.2 (by have := hf.room; omega)⟩, hbad⟩

/-- Settles O32: class 7 is neither early nor INTEGRITY, and a late BUS comes from an access. -/
theorem busErrorNamesAFailingAddress : Obligations.BusErrorNamesAFailingAddress := by
  intro i s t hr he h ht h7
  rcases exec_of_err hr he h ht with ⟨e, hp, rfl⟩ | ⟨e, ho, rfl⟩ | ⟨r, rfl⟩
  · have h7' : e.number = 7 := h7
    rcases number_of_prologue hp with h4 | h6
    · exact absurd (h4.symm.trans h7') (by decide)
    · exact absurd (h6.symm.trans h7') (by decide)
  · obtain ⟨a, rfl, ha⟩ := exists_bad_of_busOutcome ho h7
    rw [List.mem_append, mem_badReads, mem_badWrites, readsSrc_iff, writesDst_iff] at ha
    simp only [and_assoc] at ha
    exact ⟨a, rfl, ha⟩
  · exact absurd (show (3 : BitVec 8) = 7 from h7) (by decide)

theorem word_bus (a : Nat) : (CommandError.bus a).word = 7 := by
  simp [CommandError.word, CommandError.sub, CommandError.number]

/-- A success with an access that gets a bus error becomes BUS (R316 item 2). -/
theorem busOutcome_success_of_bad {c : Instr} {r : Results} {s : State}
    (h : badReads c s ++ badWrites c r.out.length s ≠ []) : ∃ a, busOutcome c (.success r) s = .late (.bus a) := by
  rcases busOutcome_cases c (.success r) s with ho | ⟨a, ⟨ho, -⟩ | ⟨-, -, ho, -⟩⟩
  · exact absurd (busOutcome_eq_success ho).2 h
  · exact ⟨a, ho⟩
  · exact ⟨a, ho⟩

/-- With no race, a rule's success with an access that gets a bus error ends in BUS (R316 item 2). -/
theorem exec_of_success_of_bad {i : Instr} {s : State} {r : Results} (hr : s.NoRace) (hp : prologue i s = none)
    (hrule : ruleOf i s = .success r) (h : badReads i s ++ badWrites i r.out.length s ≠ []) :
    ∃ a, exec i s = .next (settle i (.late (.bus a)) s) := by
  obtain ⟨a, ha⟩ := busOutcome_success_of_bad h
  exact ⟨a, by rw [exec_eq, runCommand_of_noRace hr, checkedOutcome_of_none hp, hrule, ha]⟩

/-- A rule does not look at the platform. -/
theorem ruleOf_platform (i : Instr) (s : State) (p : Platform) : ruleOf i { s with platform := p } = ruleOf i s := by
  cases i <;> rfl

/-- Settles O33: whether an access gets a bus error decides between BUS and the success, and the rest of the end does
not look at BusOk. -/
theorem unreadableSourceIsBusError : Obligations.UnreadableSourceIsBusError := by
  refine ⟨fun i s t bad hr hd h ht hbad => ?_, fun i s hi hr hlegal hbad => ?_⟩
  · obtain ⟨r, hp, hrule, -, rfl⟩ := exec_of_done (s := { s with platform := { s.platform with busFaults := [] } })
      ⟨hr.src, hr.dst⟩ hd h ht
    rw [ruleOf_platform] at hrule
    have hp : prologue i s = none := hp
    have hiff : bad ↔ badReads i s ++ badWrites i r.out.length s ≠ [] := by
      rw [hbad, toNat_outLen_success (length_out_lt hrule), ← readsSrc_iff, ← writesDst_iff, ne_eq,
        List.eq_nil_iff_forall_not_mem, not_forall_not]
      simp only [List.mem_append, mem_badReads, mem_badWrites, exists_or, and_assoc, exists_and_left]
    refine ⟨fun hb => ?_, fun hb => ?_⟩
    · obtain ⟨a, ha⟩ := exec_of_success_of_bad hr hp hrule (hiff.1 hb)
      obtain ⟨herr, hword, -⟩ := settle_late_reports (c := i) (s := s) (word_bus a) rfl
      exact ⟨_, ha, herr, (loseResults_done i s).trans hd, hword, rfl⟩
    · have hbus := not_not.1 (mt hiff.2 hb)
      rw [exec_eq, runCommand_success hr hp hrule hbus]
      rfl
  · obtain ⟨hreads, hp, r, hrule⟩ : (profile i).readsSrc = true ∧ prologue i s = none ∧ ∃ r, ruleOf i s = .success r := by
      simp only [List.mem_cons, List.not_mem_nil, or_false] at hi
      rcases hi with rfl | rfl <;>
        exact ⟨rfl, (prologue_eq_none_iff _ s).2 ⟨nofun, nofun, fun _ => hlegal, nofun, nofun⟩, _, rfl⟩
    obtain ⟨x, h1, h2, h3⟩ := hbad
    have hne : badReads i s ++ badWrites i r.out.length s ≠ [] :=
      List.ne_nil_of_mem (List.mem_append_left _ ((mem_badReads i s x).2 ⟨hreads, ⟨h1, h2⟩, h3⟩))
    obtain ⟨a, ha⟩ := exec_of_success_of_bad hr hp hrule hne
    obtain ⟨hf, -, hact, -⟩ := settle_late_flags (c := i) (s := s) (o := .late (.bus a)) rfl
    obtain ⟨herr, hword, -⟩ := settle_late_reports (c := i) (s := s) (word_bus a) rfl
    exact ⟨_, ha, herr, hword, rfl, fun hi => hf (hi ▸ rfl), fun hi => hact (hi ▸ rfl)⟩

end Sys2Proof.Machine
end

section
/-! PROOFS. What every step keeps: the shape of the state (O59), and the invariants of the code table and of the
counts (O60) (10_state.md section 4, 60_exceptions.md section 3, 20_memory.md section 1). -/

namespace Sys2Proof.Machine

/-! ### What the invariants read -/

/-- What `State.Inv` reads of a state. -/
def State.shape (s : State) :=
  (s.phase, s.cmd, s.done, s.err, s.errCode, s.errSub, s.errInfo, s.mem, s.code, s.dirty, s.stale)

/-- What the invariants of the code table and of the counts read of a state. -/
def State.tables (s : State) := (s.tableV, s.code, s.freqV, s.freq)

theorem State.Inv.of_shape {s t : State} (h : s.Inv) (e : t.shape = s.shape) : t.Inv := by
  simp only [State.shape, Prod.mk.injEq] at e
  obtain ⟨e1, e2, e3, e4, e5, e6, e7, e8, e9, e10, e11⟩ := e
  exact
    { memWf := e8 ▸ h.memWf
      codeShort := e9 ▸ h.codeShort
      dirtyAscending := e10 ▸ h.dirtyAscending
      dirtyExists := e10 ▸ h.dirtyExists
      staleAscending := e11 ▸ h.staleAscending
      oneOutcome := by rw [e3, e4]; exact h.oneOutcome
      busyDecodes := by rw [State.busy, e1, e2]; exact h.busyDecodes
      busyFresh := by rw [State.busy, State.error, e1, e3, e4, e5, e6, e7]; exact h.busyFresh
      codeBound := e5 ▸ h.codeBound
      subBound := e6 ▸ h.subBound
      subOnlyFormat := by rw [e5, e6]; exact h.subOnlyFormat
      infoOnlyError := by rw [e5, e7]; exact h.infoOnlyError }

theorem State.TableInv.of_tables {s t : State} (h : s.TableInv) (e : t.tables = s.tables) : t.TableInv := by
  simp only [State.tables, Prod.mk.injEq] at e
  rw [State.TableInv, e.1, e.2.1]
  exact h

theorem State.FreqInv.of_tables {s t : State} (h : s.FreqInv) (e : t.tables = s.tables) : t.FreqInv := by
  simp only [State.tables, Prod.mk.injEq] at e
  rw [State.FreqInv, e.2.2.1, e.2.2.2]
  exact h

/-- Codes of at most 255 bits, symbol by symbol. -/
theorem codeShort_iff (t : CodeTable) : (∀ c ∈ t.toList, c.length ≤ 255) ↔ ∀ x, (codeOf t x).length ≤ 255 := by
  constructor
  · exact fun h x => h _ (by simp [codeOf])
  · intro h c hc
    obtain ⟨i, hi, rfl⟩ := List.mem_iff_getElem.1 hc
    have hi' : i < 256 := by simpa using hi
    have := h (BitVec.ofNat 8 i)
    simpa [codeOf, Nat.mod_eq_of_lt hi'] using this

/-! ### What a register write can do -/

/-- A register write resets the block, starts or rejects a command in phase IDLE, clears outcome bits, or touches
nothing the invariants read (R46, R47). -/
theorem writeReg_cases (r : Reg) (v : Word) (s : State) :
    writeReg r v s = resetBlock s ∨
      (s.phase = .idle ∧ (∃ i, decodeWord v = .ok i) ∧ writeReg r v s = start v s) ∨
      (s.phase = .idle ∧ writeReg r v s = rejectCommand v s) ∨
      writeReg r v s = clearStatus v s ∨
      ((writeReg r v s).shape = s.shape ∧ (writeReg r v s).tables = s.tables) := by
  have hoperand : ∀ u : State, u.shape = s.shape ∧ u.tables = s.tables →
      (if s.busy then s else u).shape = s.shape ∧ (if s.busy then s else u).tables = s.tables := fun u hu => by
    split
    · exact ⟨rfl, rfl⟩
    · exact hu
  cases r
  case ctrl =>
    by_cases hv : v.getLsbD 31 = true
    · exact Or.inl (if_pos hv)
    · refine Or.inr (Or.inr (Or.inr (Or.inr ?_)))
      rw [writeReg, writeCtrl, if_neg hv]
      exact ⟨rfl, rfl⟩
  case cmd =>
    rcases hp : s.phase with _ | _
    · have hb : ¬s.busy = true := by simp [State.busy, hp]
      rcases hd : decodeWord v with e | i
      · exact Or.inr (Or.inr (Or.inl ⟨rfl, by simp only [writeReg, writeCmd, if_neg hb, hd]⟩))
      · exact Or.inr (Or.inl ⟨rfl, ⟨i, rfl⟩, by simp only [writeReg, writeCmd, if_neg hb, hd]⟩)
    · have hb : s.busy = true := by simp [State.busy, hp]
      refine Or.inr (Or.inr (Or.inr (Or.inr ?_)))
      rw [writeReg, writeCmd, if_pos hb]
      exact ⟨rfl, rfl⟩
  case status => exact Or.inr (Or.inr (Or.inr (Or.inl rfl)))
  case srcAddr | srcLen | dstAddr | dstCap | bitLen =>
    exact Or.inr (Or.inr (Or.inr (Or.inr (hoperand _ ⟨rfl, rfl⟩))))
  all_goals exact Or.inr (Or.inr (Or.inr (Or.inr ⟨rfl, rfl⟩)))

/-- A register read touches nothing the invariants read (R46). -/
theorem portRead_keeps (addr : Word) (width : Nat) (s : State) :
    (portRead addr width s).shape = s.shape ∧ (portRead addr width s).tables = s.tables := by
  unfold portRead
  split
  · exact ⟨rfl, rfl⟩
  · split <;> exact ⟨rfl, rfl⟩

theorem hostPoll_keeps (addr mask value : Word) (s : State) :
    (hostPoll addr mask value s).shape = s.shape ∧ (hostPoll addr mask value s).tables = s.tables := by
  have h := portRead_keeps addr 4 s
  unfold hostPoll
  simp only
  split
  · exact h
  · split <;> exact h

/-! ### The shape of the state -/

/-- Either reset leaves the shape (R350 to R352). -/
theorem inv_resetBlock {s : State} (h : s.Inv) : (resetBlock s).Inv where
  memWf := memWf_loseDstIf _ h.memWf
  codeShort := (codeShort_iff _).2 fun x => by simp [resetBlock, State.reset, codeOf]
  dirtyAscending := h.dirtyAscending
  dirtyExists := h.dirtyExists
  staleAscending := by
    show (loseDstIf (s.busy && wordWritesDst s.cmd) s).stale.Pairwise (· < ·)
    cases s.busy && wordWritesDst s.cmd
    · exact h.staleAscending
    · exact (growsStale_loseDst s).ascending h.staleAscending
  oneOutcome := nofun
  busyDecodes := nofun
  busyFresh := nofun
  codeBound := Nat.zero_le _
  subBound := Nat.zero_le _
  subOnlyFormat _ := rfl
  infoOnlyError _ := rfl

/-- A start puts a legal command in flight, with its outcome registers cleared (R326). -/
theorem inv_start {s : State} (h : s.Inv) {w : Word} (hw : ∃ i, decodeWord w = .ok i) : (start w s).Inv where
  memWf := h.memWf
  codeShort := h.codeShort
  dirtyAscending := h.dirtyAscending
  dirtyExists := h.dirtyExists
  staleAscending := h.staleAscending
  oneOutcome := nofun
  busyDecodes _ := hw
  busyFresh _ := ⟨rfl, rfl, by simp [State.error], rfl⟩
  codeBound := Nat.zero_le _
  subBound := Nat.zero_le _
  subOnlyFormat _ := rfl
  infoOnlyError _ := rfl

/-- A rejected word leaves ILLEGAL_CMD in phase IDLE (R327). -/
theorem inv_rejectCommand {s : State} (h : s.Inv) (hp : s.phase = .idle) (w : Word) : (rejectCommand w s).Inv where
  memWf := h.memWf
  codeShort := h.codeShort
  dirtyAscending := h.dirtyAscending
  dirtyExists := h.dirtyExists
  staleAscending := h.staleAscending
  oneOutcome := nofun
  busyDecodes hb := by simp [State.busy, hp] at hb
  busyFresh hb := by simp [State.busy, hp] at hb
  codeBound := by simp
  subBound := Nat.zero_le _
  subOnlyFormat _ := rfl
  infoOnlyError hz := absurd hz (by simp)

/-- Clearing outcome bits sets none (R35). -/
theorem inv_clearStatus {s : State} (h : s.Inv) (v : Word) : (clearStatus v s).Inv :=
  { h.of_shape (t := s) rfl with
    oneOutcome := fun hb => h.oneOutcome ⟨(Bool.and_eq_true_iff.1 hb.1).1, (Bool.and_eq_true_iff.1 hb.2).1⟩
    busyDecodes := h.busyDecodes
    busyFresh := fun hb => by
      obtain ⟨hd, he, hr⟩ := h.busyFresh hb
      exact ⟨by simp [hd], by simp [he], hr⟩ }

theorem inv_portWrite {s : State} (h : s.Inv) (addr : Word) (width : Nat) (v : Word) : (portWrite addr width v s).Inv := by
  unfold portWrite
  split
  · exact h.of_shape rfl
  · rename_i off _
    refine State.Inv.of_shape (s := writeReg (regAt off) v s) ?_ rfl
    rcases writeReg_cases (regAt off) v s with hw | ⟨-, hd, hw⟩ | ⟨hp, hw⟩ | hw | hw
    · rw [hw]; exact inv_resetBlock h
    · rw [hw]; exact inv_start h hd
    · rw [hw]; exact inv_rejectCommand h hp v
    · rw [hw]; exact inv_clearStatus h v
    · exact h.of_shape hw.1

/-- A change of memory and of the host's cache lists keeps the shape, if these keep theirs. -/
theorem State.Inv.of_memory {s t : State} (h : s.Inv)
    (e : t.shape = { s with mem := t.mem, dirty := t.dirty, stale := t.stale }.shape) (hm : Memory.wf t.mem)
    (hd : t.dirty.Pairwise (· < ·)) (hx : ∀ a ∈ t.dirty, a < 2 ^ 32) (hs : t.stale.Pairwise (· < ·)) : t.Inv :=
  State.Inv.of_shape (s := { s with mem := t.mem, dirty := t.dirty, stale := t.stale })
    { h with memWf := hm, dirtyAscending := hd, dirtyExists := hx, staleAscending := hs } e

theorem inv_hostMemWrite {s : State} (h : s.Inv) {a : Nat} {bs : List Byte} (hb : a + bs.length ≤ 2 ^ 32) :
    (hostMemWrite a bs s).Inv := by
  refine h.of_memory rfl (Memory.wf_writeRange h.memWf hb) ?_ ?_ (ascending_removeRange h.staleAscending)
  · rw [hostMemWrite_dirty]
    split
    · exact h.dirtyAscending
    · exact ascending_addRange h.dirtyAscending
  · rw [hostMemWrite_dirty]
    split
    · exact h.dirtyExists
    · intro x hx
      rcases mem_addRange.1 hx with hx | hx
      · omega
      · exact h.dirtyExists x hx.1

/-- The bytes the host wrote and holds back exist. -/
theorem lt_of_mem_dirtyIn {s : State} (h : s.Inv) {a n x : Nat} {p : Nat → Bool} (hx : x ∈ (dirtyIn a n s).filter p) :
    x < 2 ^ 32 := h.dirtyExists x (List.mem_filter.1 (List.mem_filter.1 hx).1).1

theorem inv_hostClean {s : State} (h : s.Inv) (a n : Nat) : (hostClean a n s).Inv :=
  h.of_memory rfl (memWf_loseBytes h.memWf fun _ hx => lt_of_mem_dirtyIn h hx)
    (ascending_removeRange h.dirtyAscending) (fun x hx => h.dirtyExists x (List.mem_filter.1 hx).1) h.staleAscending

theorem inv_hostInvalidate {s : State} (h : s.Inv) (a n : Nat) : (hostInvalidate a n s).Inv :=
  h.of_memory rfl (memWf_loseBytes h.memWf fun _ hx => lt_of_mem_dirtyIn h hx)
    (ascending_removeRange h.dirtyAscending) (fun x hx => h.dirtyExists x (List.mem_filter.1 hx).1)
    (ascending_removeRange h.staleAscending)

/-- A host access is refused as a fault, or names only bytes that exist (R80). -/
theorem wf_of_hostAccess {a : Input} {s t : State} (h : hostAccess a s = .next t) : a.wf = true := by
  by_contra hw
  unfold hostAccess at h
  rw [if_pos (by simpa using hw)] at h
  cases h

theorem inv_hostAccess {a : Input} {s t : State} (h : s.Inv) (ha : hostAccess a s = .next t) : t.Inv := by
  have hw := wf_of_hostAccess ha
  simp only [hostAccess, hw, Bool.not_true, Bool.false_eq_true, if_false] at ha
  cases a <;> simp only [Host.Outcome.next.injEq] at ha <;> subst ha
  case regWrite addr width v => exact inv_portWrite h addr width v
  case regRead addr width => exact h.of_shape (portRead_keeps addr width s).1
  case poll addr mask value => exact h.of_shape (hostPoll_keeps addr mask value s).1
  case memWrite addr bs => exact inv_hostMemWrite h (by simpa [Input.wf, bytesExist] using hw)
  case memRead addr n => exact h.of_shape rfl
  case cacheClean addr n => exact inv_hostClean h _ n
  case cacheInvalidate addr n => exact inv_hostInvalidate h _ n
  case hardReset => exact (inv_resetBlock h).of_shape rfl
  case sequencer => exact h

/-! ### The tables a rule writes -/

/-- The counts sum to at most 2^32 - 1 (R50). -/
def FreqOk (f : FreqTable) : Prop := (f.toList.map BitVec.toNat).sum ≤ 2 ^ 32 - 1

/-- The tables among the results meet the invariants of R50 and R53, with codes of at most 255 bits (R52). -/
structure Results.TablesOk (r : Results) : Prop where
  code : ∀ t, r.code = some t → TableOk t ∧ ∀ x, (codeOf t x).length ≤ 255
  freq : ∀ f, r.freq = some f → FreqOk f

/-- The results of an outcome that keeps them have tables that meet the invariants. -/
def RuleOutcome.TablesOk : RuleOutcome → Prop
  | .success r => r.TablesOk
  | .mismatch r => r.TablesOk
  | .early _ | .late _ => True

theorem RuleOutcome.TablesOk.ite {c : Prop} [Decidable c] {a b : RuleOutcome} (ha : a.TablesOk) (hb : b.TablesOk) :
    (if c then a else b).TablesOk := by
  split
  · exact ha
  · exact hb

/-- Over a list that has each symbol of `b` once, the counts add up to the number of bytes. -/
theorem sum_count_eq_length {l b : List Byte} (hn : l.Nodup) (h : ∀ x ∈ b, x ∈ l) :
    (l.map fun x => b.count x).sum = b.length := by
  rw [← List.sum_toFinset _ hn]
  have := Multiset.sum_count_eq_card (m := (b : Multiset Byte)) fun x hx => List.mem_toFinset.2 (h x hx)
  simpa only [Multiset.coe_count, Multiset.coe_card] using this

/-- COUNT's counts sum to the number of source bytes (R50, R151). -/
theorem freqOk_countTable {b : List Byte} (hb : b.length < 2 ^ 32) : FreqOk (countTable b) := by
  have heq : (countTable b).toList.map BitVec.toNat = symbols.map fun x => b.count x := by
    refine List.ext_getElem (by simp) fun i h1 h2 => ?_
    have hi : i < 256 := by simpa using h2
    have := countOf_countTable hb (BitVec.ofNat 8 i)
    simpa [countOf, Nat.mod_eq_of_lt hi] using this
  rw [FreqOk, heq, sum_count_eq_length nodup_symbols fun x _ => mem_symbols x]
  omega

theorem Results.TablesOk.of_none {r : Results} (hc : r.code = none) (hf : r.freq = none) : r.TablesOk :=
  ⟨fun t h => by simp [hc] at h, fun f h => by simp [hf] at h⟩

theorem tablesOk_of_code {t : CodeTable} (h : TableOk t ∧ ∀ x, (codeOf t x).length ≤ 255) {r : Results}
    (hc : r.code = some t) (hf : r.freq = none) : r.TablesOk :=
  ⟨fun u hu => Option.some.inj (hc.symm.trans hu) ▸ h, fun f h => by simp [hf] at h⟩

theorem buildTable_ok (f : FreqTable) : TableOk (buildTable f) ∧ ∀ x, (codeOf (buildTable f) x).length ≤ 255 :=
  ⟨tableOk_buildTable f, length_codeOf_buildTable_le f⟩

theorem encodeRule_tablesOk (s : State) : (encodeRule s).TablesOk := by
  simp only [encodeRule]
  split
  · trivial
  · exact .ite trivial (.ite trivial (.of_none rfl rfl))

theorem decodeRule_tablesOk (s : State) : (decodeRule s).TablesOk := by
  refine .ite trivial (.ite trivial (.ite trivial ?_))
  split
  · trivial
  · exact .ite trivial (.of_none rfl rfl)

theorem tblLoadRule_tablesOk (s : State) : (tblLoadRule s).TablesOk := by
  refine .ite trivial (.ite trivial (.ite trivial ?_))
  split
  · trivial
  · exact tablesOk_of_code (tableOk_of_parseEntries (by assumption)) rfl rfl

theorem compressRule_tablesOk (s : State) : (compressRule s).TablesOk := by
  rw [compressRule_eq]
  exact .ite trivial (.ite trivial ⟨fun t ht => Option.some.inj ht ▸ buildTable_ok _,
    fun f hf => Option.some.inj hf ▸ freqOk_countTable (length_srcBytes_lt s)⟩)

theorem decompressBody_tablesOk (b : List Byte) (l cap : Nat) : (decompressBody b l cap).TablesOk := by
  simp only [decompressBody]
  split
  · trivial
  · rename_i hp
    refine .ite trivial (.ite trivial ?_)
    split
    · trivial
    · exact .ite trivial (.ite (tablesOk_of_code (tableOk_of_parseEntries hp) rfl rfl)
        (tablesOk_of_code (tableOk_of_parseEntries hp) rfl rfl))

/-- The tables a rule gives meet the invariants (R50, R53, R156, R236). -/
theorem ruleOf_tablesOk (i : Instr) (s : State) : (ruleOf i s).TablesOk := by
  cases i
  case nop | digest => exact .of_none rfl rfl
  case count =>
    exact ⟨nofun, fun f hf => Option.some.inj hf ▸ freqOk_countTable (length_srcBytes_lt s)⟩
  case build => exact tablesOk_of_code (buildTable_ok _) rfl rfl
  case encode => exact encodeRule_tablesOk s
  case decode => exact decodeRule_tablesOk s
  case tblStore => exact .ite trivial (.of_none rfl rfl)
  case tblLoad => exact tblLoadRule_tablesOk s
  case compress => exact compressRule_tablesOk s
  case decompress =>
    exact .ite trivial (.ite trivial (.ite trivial (.ite trivial (.ite trivial (decompressBody_tablesOk _ _ _)))))

/-! ### The end of a command -/

/-- A drawn code has at most 255 bits (R52, log entry 11). -/
theorem codeShort_loseRegs {s : State} (h : ∀ x, (codeOf s.code x).length ≤ 255) (p : Profile)
    (v : Config.BitSlot → Bool) (x : Byte) : (codeOf (loseRegs p v s).code x).length ≤ 255 := by
  rw [loseRegs_code]
  split
  · simp [codeOf]
  · exact h x

theorem codeShort_storeResults {r : Results} (hr : r.TablesOk) {s : State} (h : ∀ x, (codeOf s.code x).length ≤ 255)
    (x : Byte) : (codeOf (storeResults r s).code x).length ≤ 255 := by
  rw [storeResults_code]
  rcases hc : r.code with _ | t
  · exact h x
  · exact (hr.code t hc).2 x

/-- What a raced destination loses is no table. -/
theorem code_loseDstIf (b : Bool) (s : State) : (loseDstIf b s).code = s.code := by cases b <;> rfl

theorem tables_loseDstIf (b : Bool) (s : State) : (loseDstIf b s).tables = s.tables := by cases b <;> rfl

/-- The end of a command leaves codes of at most 255 bits (R52). -/
theorem codeShort_runCommand {c : Instr} {body : State → RuleOutcome} {s : State} (hb : (body s).TablesOk)
    (h : ∀ x, (codeOf s.code x).length ≤ 255) (x : Byte) : (codeOf (runCommand c body s).code x).length ≤ 255 := by
  rw [runCommand, clearRaces_code, code_loseDstIf]
  rcases endCommand_cases c body s with ⟨-, hend⟩ | ⟨e, hend⟩ | ⟨e, hend⟩ | ⟨r, hr, -, hend⟩ | ⟨r, hr, -, hend⟩ <;>
    rw [hend]
  · obtain ⟨v, w, hend | ⟨n, m, -, -, -, -, hend⟩⟩ := racedEnd_cases c s <;> rw [hend] <;>
      exact codeShort_loseRegs h _ v x
  · exact h x
  · rw [raise_code, loseResults, code_loseDstIf]
    exact codeShort_loseRegs h _ _ x
  · rw [hr] at hb
    exact codeShort_storeResults hb h x
  · rw [hr] at hb
    exact codeShort_storeResults hb h x

/-- The end of a command in flight keeps the shape (R320, R325). -/
theorem inv_runCommand {i : Instr} {s : State} (h : s.Inv) (hp : s.phase = .busy) :
    (runCommand i (ruleOf i) s).Inv := by
  obtain ⟨hdone, herr, herror, hinfo⟩ := h.busyFresh ((busy_eq_true_iff s).2 hp)
  have hfits := ruleOf_fits i s
  have hk := runCommand_keepsControl i (ruleOf i) s
  have hidle : ¬(runCommand i (ruleOf i) s).busy = true := by simp [State.busy, hk.phase]
  have hregs : ¬((runCommand i (ruleOf i) s).done = true ∧ (runCommand i (ruleOf i) s).err = true) ∧
      (runCommand i (ruleOf i) s).errCode.toNat ≤ 9 ∧ (runCommand i (ruleOf i) s).errSub.toNat ≤ 15 ∧
      ((runCommand i (ruleOf i) s).errCode ≠ 2 → (runCommand i (ruleOf i) s).errSub = 0) ∧
      ((runCommand i (ruleOf i) s).errCode = 0 → (runCommand i (ruleOf i) s).errInfo = 0) := by
    rcases runCommand_endsAs i (ruleOf i) s with ⟨_, h2, h3, h4, h5⟩ | ⟨h1, _, h3, h4, h5, h6⟩
    · rw [h2, h3, h4, h5]
      exact ⟨by simp [herr], h.codeBound, h.subBound, h.subOnlyFormat, h.infoOnlyError⟩
    · rw [h1]
      exact ⟨by simp [hdone], h4, h5, h6, fun hz => by rw [hz] at h3; exact absurd h3 (by decide)⟩
  obtain ⟨hone, hcode, hsub, hformat, hinfo'⟩ := hregs
  exact
    { memWf := runCommand_memWf h.memWf hfits
      codeShort := (codeShort_iff _).2 fun x =>
        codeShort_runCommand (ruleOf_tablesOk i s) ((codeShort_iff _).1 h.codeShort) x
      dirtyAscending := hk.dirty ▸ h.dirtyAscending
      dirtyExists := hk.dirty ▸ h.dirtyExists
      staleAscending := (runCommand_growsStale hfits).ascending h.staleAscending
      oneOutcome := hone
      busyDecodes := fun hb => absurd hb hidle
      busyFresh := fun hb => absurd hb hidle
      codeBound := hcode
      subBound := hsub
      subOnlyFormat := hformat
      infoOnlyError := hinfo' }

/-- Whose turn comes next pops a pending access, which the invariants do not read. -/
theorem nextTurn_state {s u : State} (h : nextTurn s = .finish u ∨ (∃ a, nextTurn s = .host a u) ∨ nextTurn s = .rest u) :
    ∃ rest, u = setInputs rest s := by
  rcases nextTurn_cases s with ⟨a, rest, -, hn⟩ | ⟨rest, ⟨hn, -⟩ | ⟨hn, -⟩⟩ <;> rw [hn] at h <;> simp at h <;>
    exact ⟨rest, h.symm⟩

theorem busy_of_finish {s u : State} (h : nextTurn s = .finish u) : s.phase = .busy := by
  rcases nextTurn_cases s with ⟨a, rest, -, hn⟩ | ⟨rest, ⟨-, hp⟩ | ⟨hn, -⟩⟩
  · rw [hn] at h; cases h
  · exact hp
  · rw [hn] at h; cases h

/-- Settles O59: a host access, the end of the command in flight and a rest each keep the shape. -/
theorem stepKeepsInv : Obligations.StepKeepsInv := by
  intro s t h hstep
  rcases step_cases hstep with ⟨a, u, hn, ha⟩ | ⟨i, u, hn, -, rfl⟩ | hn
  · obtain ⟨rest, rfl⟩ := nextTurn_state (Or.inr (Or.inl ⟨a, hn⟩))
    exact inv_hostAccess (s := setInputs rest s) (h.of_shape rfl) ha
  · have hp := busy_of_finish hn
    obtain ⟨rest, rfl⟩ := nextTurn_state (Or.inl hn)
    exact inv_runCommand (s := setInputs rest s) (h.of_shape rfl) hp
  · obtain ⟨rest, rfl⟩ := nextTurn_state (Or.inr (Or.inr hn))
    exact h.of_shape rfl

/-! ### The invariants of the tables -/

/-- Neither flag is set: both invariants hold. -/
theorem tables_inv_of_flags {t : State} (hc : t.tableV = false) (hf : t.freqV = false) : t.TableInv ∧ t.FreqInv :=
  ⟨fun h => absurd (hc.symm.trans h) (by decide), fun h => absurd (hf.symm.trans h) (by decide)⟩

/-- A host access leaves the tables, or resets them (R46, R351). -/
theorem hostAccess_tables {a : Input} {s t : State} (ha : hostAccess a s = .next t) :
    t.tables = s.tables ∨ t.tableV = false ∧ t.freqV = false := by
  have hw := wf_of_hostAccess ha
  simp only [hostAccess, hw, Bool.not_true, Bool.false_eq_true, if_false] at ha
  cases a <;> simp only [Host.Outcome.next.injEq] at ha <;> subst ha
  case regWrite addr width v =>
    unfold portWrite
    split
    · exact Or.inl rfl
    · rename_i off _
      show (writeReg (regAt off) v s).tables = s.tables ∨
        (writeReg (regAt off) v s).tableV = false ∧ (writeReg (regAt off) v s).freqV = false
      rcases writeReg_cases (regAt off) v s with hw | ⟨-, -, hw⟩ | ⟨-, hw⟩ | hw | hw
      · rw [hw]; exact Or.inr ⟨rfl, rfl⟩
      · rw [hw]; exact Or.inl rfl
      · rw [hw]; exact Or.inl rfl
      · rw [hw]; exact Or.inl rfl
      · exact Or.inl hw.2
  case regRead addr width => exact Or.inl (portRead_keeps addr width s).2
  case poll addr mask value => exact Or.inl (hostPoll_keeps addr mask value s).2
  case memWrite | memRead | cacheClean | cacheInvalidate | sequencer => exact Or.inl rfl
  case hardReset => exact Or.inr ⟨rfl, rfl⟩

/-- Results that meet the invariants are stored, and the others stay. -/
theorem tables_inv_storeResults {r : Results} (hr : r.TablesOk) (s : State) :
    (s.TableInv → (storeResults r s).TableInv) ∧ (s.FreqInv → (storeResults r s).FreqInv) := by
  refine ⟨fun h hv => ?_, fun h hv => ?_⟩
  · rw [storeResults_tableV] at hv
    rw [storeResults_code]
    rcases hc : r.code with _ | t
    · exact h (by simpa [hc] using hv)
    · exact (hr.code t hc).1
  · rw [storeResults_freqV] at hv
    rw [storeResults_freq]
    rcases hf : r.freq with _ | f
    · exact h (by simpa [hf] using hv)
    · exact hr.freq f hf

/-- A late error clears the flags of the tables it loses (R322). -/
theorem tables_inv_loseRegs (p : Profile) (s : State) :
    (s.TableInv → (loseRegs p (fun _ => false) s).TableInv) ∧ (s.FreqInv → (loseRegs p (fun _ => false) s).FreqInv) := by
  refine ⟨fun h hv => ?_, fun h hv => ?_⟩
  · rw [loseRegs_tableV] at hv
    rw [loseRegs_code]
    cases hp : p.writesTable <;> simp only [hp, if_true, if_false, Bool.false_eq_true] at hv ⊢
    exact h hv
  · rw [loseRegs_freqV] at hv
    rw [loseRegs_freq]
    cases hp : p.writesFreq <;> simp only [hp, if_true, if_false, Bool.false_eq_true] at hv ⊢
    exact h hv

/-- The end of a command whose source the host did not race keeps both invariants. -/
theorem tables_inv_runCommand {c : Instr} {body : State → RuleOutcome} {s : State} (hr : s.srcRace = false)
    (hb : (body s).TablesOk) :
    (s.TableInv → (runCommand c body s).TableInv) ∧ (s.FreqInv → (runCommand c body s).FreqInv) := by
  have key : ∃ u : State, (endCommand c body s).tables = u.tables ∧
      (s.TableInv → u.TableInv) ∧ (s.FreqInv → u.FreqInv) := by
    rcases endCommand_cases c body s with ⟨hs, -⟩ | ⟨e, h⟩ | ⟨e, h⟩ | ⟨r, hbody, -, h⟩ | ⟨r, hbody, -, h⟩
    · exact absurd (hr.symm.trans hs) (by decide)
    · exact ⟨s, h ▸ rfl, id, id⟩
    · exact ⟨_, h ▸ tables_loseDstIf _ _, tables_inv_loseRegs (profile c) s⟩
    · rw [hbody] at hb
      exact ⟨_, h ▸ rfl, tables_inv_storeResults hb s⟩
    · rw [hbody] at hb
      exact ⟨_, h ▸ rfl, tables_inv_storeResults hb s⟩
  obtain ⟨u, hu, htable, hfreq⟩ := key
  have heq : (runCommand c body s).tables = u.tables := (tables_loseDstIf s.dstRace _).trans hu
  exact ⟨fun h => (htable h).of_tables heq, fun h => (hfreq h).of_tables heq⟩

/-- The end of a command that writes neither table, raced or not, leaves both. -/
theorem tables_runCommand_of_keeps {i : Instr} (h : i ∈ [Instr.nop, .encode, .decode, .digest, .tblStore]) (s : State) :
    (runCommand i (ruleOf i) s).tables = s.tables := by
  have hk := runCommand_keepsUnlisted (ruleOf_fits i s)
  obtain ⟨hf, hc⟩ : (profile i).writesFreq = false ∧ (profile i).writesTable = false := by
    revert h; cases i <;> decide
  obtain ⟨hfreq, hfreqV⟩ := hk.freq hf
  obtain ⟨hcode, htableV⟩ := hk.table hc
  rw [State.tables, hfreq, hfreqV, hcode, htableV]
  rfl

/-- Settles O60: a host access leaves the tables or resets them, and the end of a command keeps their invariants, or the
tables themselves where a race leaves its results free. -/
theorem stepKeepsTableAndFreqInv : Obligations.StepKeepsTableAndFreqInv := by
  intro s t hrace hstep
  rcases step_cases hstep with ⟨a, u, hn, ha⟩ | ⟨i, u, hn, hdec, rfl⟩ | hn
  · obtain ⟨rest, rfl⟩ := nextTurn_state (Or.inr (Or.inl ⟨a, hn⟩))
    rcases hostAccess_tables ha with heq | ⟨hc, hf⟩
    · exact ⟨fun h => State.TableInv.of_tables h heq, fun h => State.FreqInv.of_tables h heq⟩
    · exact ⟨fun _ => (tables_inv_of_flags hc hf).1, fun _ => (tables_inv_of_flags hc hf).2⟩
  · have hp := busy_of_finish hn
    obtain ⟨rest, rfl⟩ := nextTurn_state (Or.inl hn)
    rcases hrace with hr | hidle | ⟨a, rest', hin, hseq⟩ | ⟨j, hj, hdec'⟩
    · exact tables_inv_runCommand (s := setInputs rest s) hr (ruleOf_tablesOk i _)
    · exact absurd (hidle.symm.trans hp) (by decide)
    · rw [nextTurn, hin] at hn
      cases a
      case sequencer => exact absurd rfl hseq
      all_goals cases hn
    · obtain rfl : j = i := Except.ok.inj (hdec'.symm.trans hdec)
      have heq := tables_runCommand_of_keeps hj (setInputs rest s)
      exact ⟨fun h => State.TableInv.of_tables h heq, fun h => State.FreqInv.of_tables h heq⟩
  · obtain ⟨rest, rfl⟩ := nextTurn_state (Or.inr (Or.inr hn))
    exact ⟨id, id⟩

/-- Settles O58: memory lists nothing, no flag is set, no symbol has a code and no race is marked. -/
theorem resetMeetsTheInvariants : Obligations.ResetMeetsTheInvariants := by
  refine ⟨?_, nofun, nofun, rfl, rfl⟩
  exact
    { memWf := wf_reset
      codeShort := (codeShort_iff _).2 fun x => by simp [State.reset, codeOf]
      dirtyAscending := List.Pairwise.nil
      dirtyExists := nofun
      staleAscending := List.Pairwise.nil
      oneOutcome := nofun
      busyDecodes := nofun
      busyFresh := nofun
      codeBound := Nat.zero_le _
      subBound := Nat.zero_le _
      subOnlyFormat := fun _ => rfl
      infoOnlyError := fun _ => rfl }

end Sys2Proof.Machine
end

section
/-! PROOFS. Command words (30_encoding.md R110 to R116), and whose turn a step is (10_state.md R55, log entries 1
and 2). -/

namespace Sys2Proof

/-! ### Command words -/

/-- Decoding undoes encoding (R111, R112). -/
@[simp] theorem decodeWord_encode (i : Instr) : decodeWord (encode i) = .ok i := by cases i <;> rfl

theorem toNat_opField (w : Word) : (opField w).toNat = w.toNat % 256 := by simp [opField]

theorem toNat_rsvField (w : Word) : (rsvField w).toNat = w.toNat / 256 := by
  have := w.isLt
  simp only [rsvField, BitVec.extractLsb'_toNat, Nat.shiftRight_eq_div_pow]
  omega

/-- A word is its two fields (R110). -/
theorem eq_encode_of_fields {w : Word} {i : Instr} (hr : w.toNat / 256 = 0) (ho : w.toNat % 256 = i.opcode.toNat) :
    w = encode i := by
  refine BitVec.eq_of_toNat_eq ?_
  have hi := i.opcode.isLt
  simp only [encode, BitVec.toNat_setWidth]
  omega

/-- Each row of the opcode table has its command's opcode (R111). -/
theorem opcode_of_find? {o : BitVec 8} {r : BitVec 8 × Instr} (h : opcodeTable.find? (fun r => r.1 == o) = some r) :
    r.2.opcode = o := by
  have hrow : ∀ r ∈ opcodeTable, r.2.opcode = r.1 := by decide
  rw [hrow r (List.mem_of_find?_eq_some h)]
  simpa using List.find?_some h

/-- A word decodes to a command only if it is that command's word (R112). -/
theorem eq_encode_of_decodeWord {w : Word} {i : Instr} (h : decodeWord w = .ok i) : w = encode i := by
  obtain ⟨hr, r, hf, rfl⟩ := decodeWord_ok h
  refine eq_encode_of_fields ?_ ?_
  · rw [← toNat_rsvField, hr]; rfl
  · rw [← toNat_opField, opcode_of_find? hf]

/-- The ten opcodes (R111). -/
theorem exists_opcode_iff (n : Nat) : (∃ i : Instr, i.opcode.toNat = n) ↔ n ≤ 7 ∨ n = 0x10 ∨ n = 0x11 := by
  constructor
  · rintro ⟨i, rfl⟩
    cases i <;> decide
  · rintro (h | rfl | rfl)
    · interval_cases n
      exacts [⟨.nop, rfl⟩, ⟨.count, rfl⟩, ⟨.build, rfl⟩, ⟨.encode, rfl⟩, ⟨.decode, rfl⟩, ⟨.digest, rfl⟩,
        ⟨.tblStore, rfl⟩, ⟨.tblLoad, rfl⟩]
    · exact ⟨.compress, rfl⟩
    · exact ⟨.decompress, rfl⟩

/-- Settles O1: by the opcode table. -/
theorem encodeThenDecode : Obligations.EncodeThenDecode := fun i => ⟨rfl, decodeWord_encode i⟩

/-- Settles O2: a word that decodes is its command's word, whose fields are 0 and one of the ten opcodes. -/
theorem legalWordsDecodeUniquely : Obligations.LegalWordsDecodeUniquely := by
  refine fun w => ⟨?_, fun i => eq_encode_of_decodeWord⟩
  rw [← exists_opcode_iff]
  constructor
  · rintro ⟨i, h⟩
    obtain rfl := eq_encode_of_decodeWord h
    refine ⟨?_, i, ?_⟩
    · rw [← toNat_rsvField, rsvField_encode]; rfl
    · rw [← toNat_opField, opField_encode]
  · rintro ⟨hr, i, hi⟩
    exact ⟨i, by rw [eq_encode_of_fields hr hi.symm, decodeWord_encode]⟩

/-- Settles O3: by evaluation. -/
theorem writtenOutWordsDecode : Obligations.WrittenOutWordsDecode := by
  unfold Obligations.WrittenOutWordsDecode
  decide

end Sys2Proof

namespace Sys2Proof.Machine

/-! ### Whose turn it is -/

theorem sequencerTurn_of_busy {s : State} (h : s.phase = .busy) : sequencerTurn s = .finish s :=
  if_pos ((busy_eq_true_iff s).2 h)

/-- The sequencer's turn runs the command in flight (R55). -/
theorem step_of_finish {s u : State} {i : Instr} (h : nextTurn s = .finish u) (hd : decodeWord u.cmd = .ok i) :
    step s = exec i u := by
  simp only [step, h, fetch, hd]

theorem step_of_host {s u : State} {a : Input} (h : nextTurn s = .host a u) : step s = hostAccess a u := by
  simp only [step, h]

theorem nextTurn_of_nil {s : State} (h : s.inputs = []) : nextTurn s = sequencerTurn s := by
  simp only [nextTurn, h]

theorem nextTurn_of_sequencer {s : State} {rest : List Input} (h : s.inputs = .sequencer :: rest) :
    nextTurn s = sequencerTurn (setInputs rest s) := by
  simp only [nextTurn, h]

theorem nextTurn_of_host {s : State} {a : Input} {rest : List Input} (h : s.inputs = a :: rest) (ha : a ≠ .sequencer) :
    nextTurn s = .host a (setInputs rest s) := by
  cases a
  case sequencer => exact absurd rfl ha
  all_goals simp only [nextTurn, h]

/-- Settles O4: the sequencer's turn, with nothing pending or its mark next, ends the command in flight. -/
theorem stepEndsCommandInFlight : Obligations.StepEndsCommandInFlight := by
  refine fun s i hp hd => ⟨fun hin => ?_, fun rest hin => ?_⟩
  · exact step_of_finish ((nextTurn_of_nil hin).trans (sequencerTurn_of_busy hp)) hd
  · exact step_of_finish (u := setInputs rest s) ((nextTurn_of_sequencer hin).trans (sequencerTurn_of_busy hp)) hd

/-- Settles O5: the head of the pending accesses is made, and an idle block with none rests. -/
theorem stepMakesHostAccess : Obligations.StepMakesHostAccess := by
  refine ⟨fun s a rest hin ha => step_of_host (nextTurn_of_host hin ha), fun s hp hin => ?_⟩
  have hn : nextTurn s = .rest s := by simp [nextTurn_of_nil hin, sequencerTurn, State.busy, hp]
  simp only [step, hn]

/-- Settles O6: the word is started and the sequencer's mark put first, so its command ends next. -/
theorem stepAfterFetchWordRunsIt : Obligations.StepAfterFetchWordRunsIt := by
  intro s w i h
  have hd : decodeWord (BitVec.ofNat 32 (w % 2 ^ 32)) = .ok i := by
    unfold decodeTableWord at h
    split at h
    · rename_i hd
      cases h
      exact hd
    · cases h
  have hturn : nextTurn (s.withFetchWord 32 w) = .finish (start (BitVec.ofNat 32 (w % 2 ^ 32)) s) :=
    nextTurn_of_sequencer (rest := s.inputs) rfl
  rw [step_of_finish hturn hd, eq_encode_of_decodeWord hd]

end Sys2Proof.Machine
end

section
/-! PROOFS. The register port: the window's addresses, STATUS by its bits, and what a write does in each phase
(10_state.md sections 2 and 3, 60_exceptions.md R326, R327). -/

namespace Sys2Proof.Machine

/-! ### The window -/

theorem toNat_regAddr (s : State) {off : Nat} (h : off < 2 ^ 14) :
    (s.regAddr off).toNat = s.platform.huffBase.toNat * 2 ^ 14 + off := by
  have := s.platform.huffBase.isLt
  simp only [State.regAddr, Platform.windowBase, BitVec.toNat_add, BitVec.toNat_shiftLeft, BitVec.toNat_setWidth,
    BitVec.toNat_ofNat, Nat.shiftLeft_eq]
  omega

/-- When an access is legal (R46). -/
theorem portOffset_eq (p : Platform) (addr : Word) (width : Nat) :
    portOffset p addr width =
      if width = 4 ∧ addr.toNat % 4 = 0 ∧ addr.toNat / 2 ^ 14 = p.huffBase.toNat then some (addr.toNat % 2 ^ 14)
      else none := by
  have hbase : addr.extractLsb' 14 18 = p.huffBase ↔ addr.toNat / 2 ^ 14 = p.huffBase.toNat := by
    have := addr.isLt
    rw [BitVec.toNat_eq, BitVec.extractLsb'_toNat, Nat.shiftRight_eq_div_pow, Nat.mod_eq_of_lt (by omega)]
  simp only [portOffset, hbase]

/-- A word-aligned offset of the window is reached at its address (R31, R46). -/
theorem portOffset_regAddr (s : State) {off : Nat} (h : off < 2 ^ 14) (h4 : off % 4 = 0) :
    portOffset s.platform (s.regAddr off) 4 = some off := by
  have := s.platform.huffBase.isLt
  rw [portOffset_eq, toNat_regAddr s h, if_pos ⟨rfl, by omega, by omega⟩]
  congr 1
  omega

section access
variable {s : State} {off : Nat} (h : off < 2 ^ 14) (h4 : off % 4 = 0)
include h h4

/-- A write at an offset of the window writes its register (R46). -/
theorem hostAccess_regWrite (v : Word) :
    hostAccess (.regWrite (s.regAddr off) 4 v) s = .next (setPort .done (writeReg (regAt off) v s)) := by
  simp only [hostAccess, Input.wf, portWrite, portOffset_regAddr s h h4, Bool.not_true, Bool.false_eq_true, if_false]

theorem hostAccess_regWrite_eq {v : Word} {u : State} (hw : writeReg (regAt off) v s = u) :
    hostAccess (.regWrite (s.regAddr off) 4 v) s = .next (setPort .done u) := by
  rw [hostAccess_regWrite h h4, hw]

/-- A read in phase IDLE returns the stored value (R46). -/
theorem portRead_idle (hp : s.phase = .idle) :
    portRead (s.regAddr off) 4 s = setPort (.word (readStored s (regAt off))) s := by
  have hb : ¬s.busy = true := by simp [State.busy, hp]
  simp only [portRead, portOffset_regAddr s h h4, if_neg hb]

/-- A read in phase BUSY returns what R48 says, and takes a draw (log entry 3). -/
theorem portRead_busy (hp : s.phase = .busy) :
    portRead (s.regAddr off) 4 s = nextDraw (setPort (.word (readBusy s (regAt off))) s) := by
  simp only [portRead, portOffset_regAddr s h h4, if_pos ((busy_eq_true_iff s).2 hp)]

end access

/-! ### STATUS and CTRL by their bits -/

theorem getLsbD_bitAt (b : Bool) {k : Nat} (hk : k < 32) (j : Nat) : (bitAt b k).getLsbD j = (b && decide (j = k)) := by
  cases b
  · simp [bitAt]
  · have hlt : j = k → j < 32 := fun h => h ▸ hk
    simp only [bitAt, if_true, BitVec.getLsbD_ofNat, Nat.testBit_two_pow, Bool.true_and]
    by_cases h : j = k
    · simp [h, hk]
    · simp [h, Ne.symm h]

/-- STATUS, bit by bit (R35). -/
theorem getLsbD_statusWord (b0 b1 b2 b3 b8 b9 b10 b11 : Bool) (j : Nat) :
    (statusWord b0 b1 b2 b3 b8 b9 b10 b11).getLsbD j =
      (b0 && decide (j = 0) || b1 && decide (j = 1) || b2 && decide (j = 2) || b3 && decide (j = 3) ||
        b8 && decide (j = 8) || b9 && decide (j = 9) || b10 && decide (j = 10) || b11 && decide (j = 11)) := by
  simp only [statusWord, BitVec.getLsbD_or, getLsbD_bitAt _ (show 0 < 32 by decide),
    getLsbD_bitAt _ (show 1 < 32 by decide), getLsbD_bitAt _ (show 2 < 32 by decide),
    getLsbD_bitAt _ (show 3 < 32 by decide), getLsbD_bitAt _ (show 8 < 32 by decide),
    getLsbD_bitAt _ (show 9 < 32 by decide), getLsbD_bitAt _ (show 10 < 32 by decide),
    getLsbD_bitAt _ (show 11 < 32 by decide)]

/-- The reserved bits of STATUS are 0 (R35). -/
theorem getLsbD_statusWord_reserved {b0 b1 b2 b3 b8 b9 b10 b11 : Bool} {k : Nat} (hk : 4 ≤ k ∧ k < 8 ∨ 12 ≤ k) :
    (statusWord b0 b1 b2 b3 b8 b9 b10 b11).getLsbD k = false := by
  have hne : k ≠ 0 ∧ k ≠ 1 ∧ k ≠ 2 ∧ k ≠ 3 ∧ k ≠ 8 ∧ k ≠ 9 ∧ k ≠ 10 ∧ k ≠ 11 := by omega
  simp [getLsbD_statusWord, hne]

theorem busy_eq_decide (s : State) : s.busy = decide (s.phase = .busy) := by
  rw [Bool.eq_iff_iff, busy_eq_true_iff, decide_eq_true_eq]

/-- Clearing outcome bits, in the STATUS word: the bits written 1 among DONE, ERR and OVR (R35). -/
theorem status_clearStatus (v : Word) (s : State) :
    (clearStatus v s).status = s.status &&& ~~~(v &&& 0x0000000E) := by
  refine BitVec.eq_of_getLsbD_eq fun j hj => ?_
  have hbusy : (clearStatus v s).busy = s.busy := rfl
  simp only [State.status, hbusy, BitVec.getLsbD_and, BitVec.getLsbD_not, getLsbD_statusWord, clearStatus_done,
    clearStatus_err, clearStatus_ovr, clearStatus_freqV, clearStatus_tableV, clearStatus_digestV, clearStatus_expV]
  interval_cases j <;> simp

/-- Settles O11: STATUS bit by bit, and the bits a write clears. -/
theorem statusFieldsAndWriteOneToClear : Obligations.StatusFieldsAndWriteOneToClear := by
  refine ⟨fun s => ?_, fun s v => ?_⟩
  · simp only [State.status, ← busy_eq_decide]
    refine ⟨?_, ?_, ?_, ?_, ?_, ?_, ?_, ?_, fun k hk => getLsbD_statusWord_reserved hk⟩ <;>
      rw [getLsbD_statusWord] <;> simp
  · exact ⟨_, hostAccess_regWrite (by decide) (by decide) v, status_clearStatus v s, rfl⟩

/-! ### Starting and rejecting a command -/

theorem writeReg_cmd_idle {s : State} (hp : s.phase = .idle) {w : Word} {i : Instr} (hd : decodeWord w = .ok i) :
    writeReg .cmd w s = start w s := by
  have hb : ¬s.busy = true := by simp [State.busy, hp]
  simp only [writeReg, writeCmd, if_neg hb, hd]

theorem writeReg_cmd_illegal {s : State} (hp : s.phase = .idle) {w : Word} (hd : ∀ i, decodeWord w ≠ .ok i) :
    writeReg .cmd w s = rejectCommand w s := by
  have hb : ¬s.busy = true := by simp [State.busy, hp]
  rcases hw : decodeWord w with e | i
  · simp only [writeReg, writeCmd, if_neg hb, hw]
  · exact absurd hw (hd i)

/-- Settles O7: the write is the start of R326. -/
theorem legalWordStartsCommand : Obligations.LegalWordStartsCommand := by
  intro s w i hp hd
  refine ⟨setPort .done (start w s), ?_, rfl, by simp [State.error], by simp [State.irq], ?_⟩
  · exact hostAccess_regWrite_eq (by decide) (by decide) (writeReg_cmd_idle hp hd)
  · simp [unsettled]

/-- Settles O8: the write is the rejection of R327. -/
theorem illegalWordRejected : Obligations.IllegalWordRejected := by
  intro s w hp hd
  refine ⟨setPort .done (rejectCommand w s), ?_, rfl, by simp [State.error]⟩
  exact hostAccess_regWrite_eq (by decide) (by decide) (writeReg_cmd_illegal hp hd)

/-! ### Resets and other writes -/

theorem writeReg_ctrl_reset {v : Word} (hv : v.getLsbD 31 = true) (s : State) : writeReg .ctrl v s = resetBlock s :=
  if_pos hv

theorem writeReg_ctrl_ie {v : Word} (hv : v.getLsbD 31 = false) (s : State) :
    writeReg .ctrl v s = { s with ie := v.getLsbD 0 } := if_neg (by rw [hv]; decide)

/-- CTRL written with SRST = 1 resets the block (R33, R351). -/
theorem hostAccess_softReset {v : Word} (hv : v.getLsbD 31 = true) (s : State) :
    hostAccess (.regWrite (s.regAddr 0x0008) 4 v) s = .next (setPort .done (resetBlock s)) :=
  hostAccess_regWrite_eq (by decide) (by decide) (writeReg_ctrl_reset hv s)

/-- CTRL written with SRST = 0 sets IE (R33). -/
theorem hostAccess_ctrl {v : Word} (hv : v.getLsbD 31 = false) (s : State) :
    hostAccess (.regWrite (s.regAddr 0x0008) 4 v) s = .next { s with ie := v.getLsbD 0, port := .done } :=
  hostAccess_regWrite_eq (u := { s with ie := v.getLsbD 0 }) (by decide) (by decide) (writeReg_ctrl_ie hv s)

/-- A reset, answered, is the reset state with what is outside the block (R60, log entry 16). -/
theorem isResetOf_resetBlock (s : State) : (setPort .done (resetBlock s)).IsResetOf s := rfl

/-- A bit of a word alone, as CTRL reads (R33). -/
theorem bitAt_zero_eq (v : Word) : bitAt (v.getLsbD 0) 0 = v &&& 1 := by
  refine BitVec.eq_of_getLsbD_eq fun j hj => ?_
  rw [getLsbD_bitAt _ (by decide), BitVec.getLsbD_and]
  by_cases h : j = 0
  · simp [h]
  · simp [h, hj]

/-- Settles O12: SRST decides between the reset and IE. -/
theorem ctrlWrite : Obligations.CtrlWrite := by
  refine ⟨fun s v hv => ?_, fun s v v' hv hv' => ?_, rfl⟩
  · exact ⟨_, hostAccess_ctrl hv s, rfl, bitAt_zero_eq v, rfl⟩
  · exact ⟨_, hostAccess_softReset hv s, hostAccess_softReset hv' s, isResetOf_resetBlock s, rfl, rfl⟩

/-- A reset leaves memory and the host's stale bytes where it abandons no command that writes the destination (R351,
R352). -/
theorem resetBlock_keeps_memory {s : State}
    (h : s.phase = .idle ∨ ∀ i, decodeWord s.cmd = .ok i → (profile i).writesDst = false) :
    (resetBlock s).mem = s.mem ∧ (resetBlock s).stale = s.stale := by
  have hkeep : (s.busy && wordWritesDst s.cmd) = false := by
    rcases h with hp | hw
    · simp [State.busy, hp]
    · have : wordWritesDst s.cmd = false := by
        unfold wordWritesDst
        split
        · rename_i i hd
          exact hw i hd
        · rfl
      simp [this]
  simp only [resetBlock, hkeep, loseDstIf_false, and_self]

/-- Settles O13: both resets are the reset state with what is outside the block, and an abandoned command's destination
alone is lost. -/
theorem resetsRestoreTheResetState : Obligations.ResetsRestoreTheResetState := by
  intro s v hv a ha
  have haccess : hostAccess a s = .next (setPort .done (resetBlock s)) := by
    simp only [List.mem_cons, List.not_mem_nil, or_false] at ha
    rcases ha with rfl | rfl
    · exact hostAccess_softReset hv s
    · rfl
  exact ⟨_, haccess, rfl, isResetOf_resetBlock s, resetBlock_keeps_memory, sameOutside_loseDstIf _ s⟩

/-- Settles O9: in phase BUSY the write to each register has its one effect. -/
theorem writesWhileBusy : Obligations.WritesWhileBusy := by
  intro s v hp
  have hb : s.busy = true := (busy_eq_true_iff s).2 hp
  refine ⟨?_, fun off hoff => ?_, fun hv => hostAccess_ctrl hv s,
    fun hv => ⟨_, hostAccess_softReset hv s, isResetOf_resetBlock s⟩, hostAccess_regWrite (by decide) (by decide) v⟩
  · exact hostAccess_regWrite_eq (u := { s with ovr := true }) (by decide) (by decide) (if_pos hb)
  · simp only [List.mem_cons, List.not_mem_nil, or_false] at hoff
    rcases hoff with rfl | rfl | rfl | rfl | rfl <;>
      exact hostAccess_regWrite_eq (by decide) (by decide) (if_pos hb)

/-- The registers a write can change. -/
def writable : List Reg := [.ctrl, .cmd, .status, .srcAddr, .srcLen, .dstAddr, .dstCap, .bitLen]

/-- A write to another register is ignored (R32, R46). -/
theorem writeReg_of_not_writable {r : Reg} (h : r ∉ writable) (v : Word) (s : State) : writeReg r v s = s := by
  cases r
  case ctrl | cmd | status | srcAddr | srcLen | dstAddr | dstCap | bitLen => exact absurd (by decide) h
  all_goals rfl

/-- The writable registers stand at their eight offsets alone (R31). -/
theorem regAt_not_writable {off : Nat} (h4 : off % 4 = 0)
    (h : off ∉ [0x0008, 0x000C, 0x0010, 0x0020, 0x0024, 0x0028, 0x002C, 0x0034]) : regAt off ∉ writable := by
  by_cases hlow : off < 0x0040
  · obtain ⟨k, rfl⟩ : ∃ k, off = 4 * k := ⟨off / 4, by omega⟩
    have hk : k < 16 := by omega
    revert h
    interval_cases k <;> decide
  · rw [regAt, if_neg hlow]
    split_ifs <;> simp [writable]

/-- Settles O10: the operand registers take the value in phase IDLE, and no write changes a register that is not
writable. -/
theorem operandWritesWhileIdle : Obligations.OperandWritesWhileIdle := by
  refine ⟨fun s v off h h4 hoff => ?_, fun s v hp => ?_⟩
  · exact hostAccess_regWrite_eq h h4 (writeReg_of_not_writable (regAt_not_writable h4 hoff) v s)
  · have hb : ¬s.busy = true := by simp [State.busy, hp]
    exact ⟨hostAccess_regWrite_eq (u := { s with srcAddr := v }) (by decide) (by decide) (if_neg hb),
      hostAccess_regWrite_eq (u := { s with srcLen := v }) (by decide) (by decide) (if_neg hb),
      hostAccess_regWrite_eq (u := { s with dstAddr := v }) (by decide) (by decide) (if_neg hb),
      hostAccess_regWrite_eq (u := { s with dstCap := v }) (by decide) (by decide) (if_neg hb),
      hostAccess_regWrite_eq (u := { s with bitLen := v }) (by decide) (by decide) (if_neg hb)⟩

/-- Settles O15: an access that is not legal has no offset, so it is answered with the platform's response. -/
theorem illegalPortAccessChangesNothing : Obligations.IllegalPortAccessChangesNothing := by
  intro s addr v width h
  have hnone : portOffset s.platform addr width = none := by
    rw [portOffset_eq, if_neg (by tauto)]
  constructor
  · simp only [hostAccess, Input.wf, portWrite, hnone, Bool.not_true, Bool.false_eq_true, if_false]
    rfl
  · simp only [hostAccess, Input.wf, portRead, hnone, Bool.not_true, Bool.false_eq_true, if_false]
    rfl

end Sys2Proof.Machine
end

section
/-! PROOFS. What the registers read: in the reset state, in phase BUSY and in phase IDLE (10_state.md sections 2 to 4
and 6). -/

namespace Sys2Proof.Machine

/-- CTRL reads IE alone (R33). -/
theorem ctrl_eq (s : State) : s.ctrl = if s.ie then 1 else 0 := rfl

/-- ERROR is its two fields (R36). -/
theorem error_eq (s : State) : s.error = BitVec.ofNat 32 (s.errCode.toNat + 256 * s.errSub.toNat) := by
  have hsub := s.errSub.isLt
  refine BitVec.eq_of_toNat_eq ?_
  simp only [State.error, BitVec.toNat_or, BitVec.toNat_shiftLeft, BitVec.toNat_setWidth, BitVec.toNat_ofNat]
  have hshift : (s.errSub.toNat % 2 ^ 32) <<< 8 % 2 ^ 32 = s.errSub.toNat <<< 8 := by
    simp only [Nat.shiftLeft_eq]
    omega
  rw [hshift, Nat.mod_eq_of_lt (show s.errCode.toNat < 2 ^ 32 by omega), ← Nat.shiftLeft_add_eq_or_of_lt s.errCode.isLt,
    Nat.shiftLeft_eq]
  omega

/-! ### The views NUM_SYMS and MAX_LEN -/

/-- NUM_SYMS counts the symbols with a code (R42). -/
theorem toNat_numSyms (t : CodeTable) : (numSyms t).toNat = symbols.countP fun x => !(codeOf t x).isEmpty := by
  have hlen : (entries t).length = symbols.countP fun x => !(codeOf t x).isEmpty := by
    rw [entries_eq, ← List.countP_eq_length_filter, List.countP_map]
    rfl
  have hle : (symbols.countP fun x => !(codeOf t x).isEmpty) ≤ 256 := List.countP_le_length.trans_eq length_symbols
  rw [numSyms, hlen, BitVec.toNat_ofNat, Nat.mod_eq_of_lt (by omega)]

/-- The greatest code length of a list of entries, and of a number before it. -/
theorem foldl_max_length (es : List (Byte × Bits)) (n : Nat) :
    n ≤ es.foldl (fun m e => max m e.2.length) n ∧
      (∀ e ∈ es, e.2.length ≤ es.foldl (fun m e => max m e.2.length) n) ∧
      (es.foldl (fun m e => max m e.2.length) n = n ∨ ∃ e ∈ es, e.2.length = es.foldl (fun m e => max m e.2.length) n) := by
  induction es generalizing n with
  | nil => simp
  | cons e es ih =>
    obtain ⟨hn, hall, hmax⟩ := ih (max n e.2.length)
    rw [List.foldl_cons]
    refine ⟨by omega, ?_, ?_⟩
    · rw [List.forall_mem_cons]
      exact ⟨by omega, hall⟩
    · rcases hmax with heq | ⟨f, hf, heq⟩
      · rcases le_total e.2.length n with h | h
        · exact Or.inl (by omega)
        · exact Or.inr ⟨e, List.mem_cons_self, by omega⟩
      · exact Or.inr ⟨f, List.mem_cons_of_mem _ hf, heq⟩

/-- MAX_LEN is the greatest code length, where it fits in CODE_LEN (R43, R52). -/
theorem maxLen_spec {t : CodeTable} (h : ∀ x, (codeOf t x).length ≤ 255) :
    (∀ x, (codeOf t x).length ≤ (maxLen t).toNat) ∧ ∃ x, (codeOf t x).length = (maxLen t).toNat := by
  obtain ⟨-, hall, hmax⟩ := foldl_max_length (entries t) 0
  have hsmall : (entries t).foldl (fun m e => max m e.2.length) 0 ≤ 255 := by
    rcases hmax with h0 | ⟨e, he, heq⟩
    · omega
    · rw [← heq, ((mem_entries t e).1 he).1]
      exact h e.1
  have hnat : (maxLen t).toNat = (entries t).foldl (fun m e => max m e.2.length) 0 := by
    rw [maxLen, BitVec.toNat_ofNat, Nat.mod_eq_of_lt (by omega)]
  rw [hnat]
  have hbound : ∀ x, (codeOf t x).length ≤ (entries t).foldl (fun m e => max m e.2.length) 0 := by
    intro x
    by_cases hx : codeOf t x = []
    · simp [hx]
    · exact hall (x, codeOf t x) ((mem_entries t _).2 ⟨rfl, hx⟩)
  refine ⟨hbound, ?_⟩
  rcases hmax with h0 | ⟨e, he, heq⟩
  · exact ⟨0, by have := hbound 0; omega⟩
  · exact ⟨e.1, ((mem_entries t e).1 he).1 ▸ heq⟩

/-! ### The reset state -/

theorem codeOf_reset (x : Byte) : codeOf State.reset.code x = [] := by simp [State.reset, codeOf]

/-- No code, no bit (R52). -/
@[simp] theorem codeBitsWord_nil (w : Nat) : codeBitsWord [] w = 0 := by
  refine BitVec.eq_of_getLsbD_eq fun k hk => ?_
  rw [show k = 31 - (31 - k) by omega, getLsbD_codeBitsWord _ _ _ (by omega)]
  simp

/-- Settles O14: no flag is set, every table entry is 0 or no code, and the views of no code are 0. -/
theorem resetStateReadsItsValues : Obligations.ResetStateReadsItsValues := by
  have hnone : entries State.reset.code = [] := (entries_eq_nil_iff _).2 codeOf_reset
  refine ⟨rfl, rfl, fun r hid hver => ?_, rfl, rfl, fun x => ⟨by simp [State.reset], codeOf_reset x⟩⟩
  cases r
  case id => exact absurd rfl hid
  case version => exact absurd rfl hver
  case numSyms => simp [readStored, numSyms, hnone]
  case maxLen => simp [readStored, maxLen, hnone]
  case digestAct | digestExp | freq => simp [readStored, State.reset]
  case codeLen => simp [readStored, codeLen, codeOf_reset]
  case codeBits x w => simp [readStored, codeOf_reset]
  all_goals rfl

/-! ### Reads by their place -/

/-- A register read is always answered (R46, R88). -/
theorem hostAccess_regRead (addr : Word) (width : Nat) (s : State) :
    hostAccess (.regRead addr width) s = .next (portRead addr width s) := rfl

/-- Settles O16: a read sets the answer, and in phase BUSY takes a draw. -/
theorem readsHaveNoSideEffect : Obligations.ReadsHaveNoSideEffect := by
  refine fun s addr width => ⟨_, hostAccess_regRead addr width s, ?_⟩
  unfold portRead
  split
  · rfl
  · split <;> rfl

section access
variable {s : State} (off : Nat) {v : Word}

theorem regRead_busy (hp : s.phase = .busy) (hv : readBusy s (regAt off) = v) (h : off < 2 ^ 14 ∧ off % 4 = 0) :
    ∃ t, hostAccess (.regRead (s.regAddr off) 4) s = .next t ∧ t.port = .word v :=
  ⟨_, (hostAccess_regRead _ _ s).trans (congrArg _ (portRead_busy h.1 h.2 hp)), congrArg _ hv⟩

theorem regRead_idle (hp : s.phase = .idle) (hv : readStored s (regAt off) = v) (h : off < 2 ^ 14 ∧ off % 4 = 0) :
    ∃ t, hostAccess (.regRead (s.regAddr off) 4) s = .next t ∧ t.port = .word v :=
  ⟨_, (hostAccess_regRead _ _ s).trans (congrArg _ (portRead_idle h.1 h.2 hp)), congrArg _ hv⟩

end access

/-- Settles O17: each register's value of R48, and STATUS bit by bit. -/
theorem readsWhileBusy : Obligations.ReadsWhileBusy := by
  intro s hinv hp
  have hb : s.busy = true := (busy_eq_true_iff s).2 hp
  obtain ⟨hdone, herr, -, -⟩ := hinv.busyFresh hb
  refine ⟨?_, ?_, fun off h h4 => ⟨_, _, (hostAccess_regRead _ _ s).trans (congrArg _ (portRead_busy h h4 hp)), rfl, rfl⟩⟩
  · simp only [List.forall_mem_cons]
    exact ⟨regRead_busy _ hp rfl (by decide), regRead_busy _ hp rfl (by decide), regRead_busy _ hp rfl (by decide),
      regRead_busy _ hp rfl (by decide), regRead_busy _ hp rfl (by decide), regRead_busy _ hp rfl (by decide),
      regRead_busy _ hp rfl (by decide), regRead_busy _ hp rfl (by decide), regRead_busy _ hp rfl (by decide),
      regRead_busy _ hp rfl (by decide), nofun⟩
  · obtain ⟨t, ht, hw⟩ := regRead_busy 0x0010 hp rfl (by decide)
    refine ⟨t, _, ht, hw, ?_, ?_, ?_, ?_, fun k hk => getLsbD_statusWord_reserved hk⟩ <;>
      refine (getLsbD_statusWord _ _ _ _ _ _ _ _ _).trans ?_ <;> simp [hb, hdone, herr]

/-! ### The windows -/

theorem regAt_digestAct (i : Fin 8) : regAt (0x0040 + 4 * i.val) = .digestAct i := by revert i; decide

theorem regAt_digestExp (i : Fin 8) : regAt (0x0060 + 4 * i.val) = .digestExp i := by revert i; decide

theorem regAt_freq (x : Byte) : regAt (0x0400 + 4 * x.toNat) = .freq x := by
  have hx := x.isLt
  have hk : (0x0400 + 4 * x.toNat - 0x0400) / 4 = x.toNat := by omega
  rw [regAt, if_neg (by omega), if_neg (by omega), if_neg (by omega), if_neg (by omega), if_pos (by omega), hk]
  simp

theorem regAt_codeLen (x : Byte) : regAt (0x0800 + 4 * x.toNat) = .codeLen x := by
  have hx := x.isLt
  have hk : (0x0800 + 4 * x.toNat - 0x0800) / 4 = x.toNat := by omega
  rw [regAt, if_neg (by omega), if_neg (by omega), if_neg (by omega), if_neg (by omega), if_neg (by omega),
    if_pos (by omega), hk]
  simp

theorem regAt_codeBits (x : Byte) (w : Fin 8) : regAt (0x2000 + 32 * x.toNat + 4 * w.val) = .codeBits x w := by
  have hx := x.isLt
  have hw := w.isLt
  have hk : (0x2000 + 32 * x.toNat + 4 * w.val - 0x2000) / 32 = x.toNat := by omega
  have hj : (0x2000 + 32 * x.toNat + 4 * w.val - 0x2000) % 32 / 4 = w.val := by omega
  rw [regAt, if_neg (by omega), if_neg (by omega), if_neg (by omega), if_neg (by omega), if_neg (by omega),
    if_neg (by omega), if_neg (by omega), hk, hj]
  simp

/-- The reserved offsets (R31). -/
theorem regAt_reserved {off : Nat} (h : off = 0x001C ∨ 0x0080 ≤ off ∧ off < 0x0400 ∨ 0x0C00 ≤ off ∧ off < 0x2000) :
    regAt off = .reserved := by
  rcases h with rfl | h | h
  · rfl
  · rw [regAt, if_neg (by omega), if_neg (by omega), if_neg (by omega), if_pos (by omega)]
  · rw [regAt, if_neg (by omega), if_neg (by omega), if_neg (by omega), if_neg (by omega), if_neg (by omega),
      if_neg (by omega), if_pos (by omega)]

theorem codeLen_eq (t : CodeTable) (x : Byte) :
    (codeLen t x).setWidth 32 = BitVec.ofNat 32 ((codeOf t x).length % 256) := by
  refine BitVec.eq_of_toNat_eq ?_
  simp only [codeLen, BitVec.toNat_setWidth, BitVec.toNat_ofNat]

/-- Settles O18: each offset's register, and the views' values. -/
theorem tableWindowsReadTheTables : Obligations.TableWindowsReadTheTables := by
  intro s hp
  refine ⟨?_, ?_, fun hlen => ?_, fun off h4 hoff => ?_, fun x => ?_, fun x => ?_, fun i => ⟨?_, ?_⟩, fun x w hw => ?_⟩
  · simp only [List.forall_mem_cons]
    exact ⟨regRead_idle _ hp rfl (by decide), regRead_idle _ hp rfl (by decide), regRead_idle _ hp rfl (by decide),
      regRead_idle _ hp rfl (by decide), regRead_idle _ hp rfl (by decide), regRead_idle _ hp (error_eq s) (by decide),
      regRead_idle _ hp rfl (by decide), regRead_idle _ hp rfl (by decide), regRead_idle _ hp rfl (by decide),
      regRead_idle _ hp rfl (by decide), regRead_idle _ hp rfl (by decide), regRead_idle _ hp rfl (by decide),
      regRead_idle _ hp rfl (by decide), nofun⟩
  · obtain ⟨t, ht, hw⟩ := regRead_idle 0x0038 hp rfl (by decide)
    exact ⟨t, _, ht, hw, toNat_numSyms s.code⟩
  · obtain ⟨t, ht, hw⟩ := regRead_idle 0x003C hp rfl (by decide)
    exact ⟨t, _, ht, hw, maxLen_spec hlen⟩
  · exact regRead_idle off hp (by rw [regAt_reserved hoff]; rfl) ⟨by omega, h4⟩
  · have := x.isLt
    exact regRead_idle _ hp (by rw [regAt_freq]; rfl) ⟨by omega, by omega⟩
  · have := x.isLt
    exact regRead_idle _ hp (by rw [regAt_codeLen]; exact codeLen_eq s.code x) ⟨by omega, by omega⟩
  · have := i.isLt
    exact regRead_idle _ hp (by rw [regAt_digestAct]; rfl) ⟨by omega, by omega⟩
  · have := i.isLt
    exact regRead_idle _ hp (by rw [regAt_digestExp]; rfl) ⟨by omega, by omega⟩
  · have := x.isLt
    obtain ⟨t, ht, hb⟩ := regRead_idle (0x2000 + 32 * x.toNat + 4 * w) hp (by rw [regAt_codeBits x ⟨w, hw⟩])
      ⟨by omega, by omega⟩
    exact ⟨t, _, ht, hb, fun j hj => getLsbD_codeBitsWord _ w j hj⟩

end Sys2Proof.Machine
end

section
/-! PROOFS. The host's memory accesses and the races they mark, and WAIT (20_memory.md section 5, 70_reset_and_hazards.md
section 5). -/

namespace Sys2Proof.Machine

/-! ### A host memory write -/

theorem hostAccess_memWrite {a : Word} {bs : List Byte} (h : a.toNat + bs.length ≤ 2 ^ 32) (s : State) :
    hostAccess (.memWrite a bs) s = .next (hostMemWrite a.toNat bs s) := by
  have hw : bytesExist a bs.length = true := decide_eq_true h
  simp only [hostAccess, Input.wf, hw, Bool.not_true, Bool.false_eq_true, if_false]

theorem hostAccess_memRead {a : Word} {n : Nat} (h : a.toNat + n ≤ 2 ^ 32) (s : State) :
    hostAccess (.memRead a n) s = .next (hostMemRead a.toNat n s) := by
  have hw : bytesExist a n = true := decide_eq_true h
  simp only [hostAccess, Input.wf, hw, Bool.not_true, Bool.false_eq_true, if_false]

theorem mem_removeRange {a n x : Nat} {xs : List Nat} : x ∈ removeRange a n xs ↔ x ∈ xs ∧ ¬(a ≤ x ∧ x < a + n) := by
  simp only [removeRange, List.mem_filter, Bool.not_eq_true', Bool.and_eq_false_iff, decide_eq_false_iff_not, not_and_or]

/-- Two ranges meet where they share an address (R93). -/
theorem rangesMeet_iff (a n b m : Nat) :
    rangesMeet a n b m = true ↔ ∃ x, (a ≤ x ∧ x < a + n) ∧ b ≤ x ∧ x < b + m := by
  rw [rangesMeet, decide_eq_true_eq]
  exact ⟨fun h => ⟨max a b, by omega, by omega, by omega⟩, fun ⟨x, h1, h2⟩ => by omega⟩

/-- In phase IDLE the host reads memory where its caches are not stale (R97). -/
theorem hostReadByte_of_idle {s : State} {a : Nat} (hp : s.phase = .idle) (ha : a ∉ s.stale) :
    hostReadByte a s = Memory.read s.mem a := by
  have hb : s.busy = false := by simp [State.busy, hp]
  simp [hostReadByte, meetsDst, hb, ha]

/-- Settles O19: the write takes its bytes out of the stale ones, so the read shows memory. -/
theorem hostReadsBackItsWrite : Obligations.HostReadsBackItsWrite := by
  intro s a bs hp h
  refine ⟨_, _, hostAccess_memWrite h s, hostAccess_memRead h _, ?_, Memory.storesExactly_writeRange _ _ _⟩
  refine congrArg PortResponse.bytes (List.ext_getElem (by simp) fun k h1 h2 => ?_)
  have hfresh : a.toNat + k ∉ (hostMemWrite a.toNat bs s).stale := by
    rw [hostMemWrite_stale, mem_removeRange]
    omega
  rw [List.getElem_map, List.getElem_range, hostReadByte_of_idle (s := hostMemWrite a.toNat bs s) hp hfresh,
    hostMemWrite_mem, Memory.read_writeRange, if_pos (by omega), Nat.add_sub_cancel_left, List.getD_eq_getElem _ _ h2]

/-! ### A race on the destination -/

/-- A rule does not look at the race marks. -/
theorem ruleOf_dstRace (i : Instr) (s : State) (b : Bool) : ruleOf i { s with dstRace := b } = ruleOf i s := by
  cases i <;> rfl

theorem busOutcome_dstRace (c : Instr) (o : RuleOutcome) (s : State) (b : Bool) :
    busOutcome c o { s with dstRace := b } = busOutcome c o s := by cases o <;> rfl

theorem loseDstIf_dstRace (c b : Bool) (s : State) :
    loseDstIf c { s with dstRace := b } = { loseDstIf c s with dstRace := b } := by cases c <;> rfl

theorem settle_dstRace (c : Instr) (o : RuleOutcome) (s : State) (b : Bool) :
    settle c o { s with dstRace := b } = { settle c o s with dstRace := b } := by
  cases o with
  | late e => exact congrArg (raise e) (loseDstIf_dstRace (profile c).writesDst b (loseRegs (profile c) (fun _ => false) s))
  | success | early | mismatch => rfl

theorem racedEnd_dstRace (c : Instr) (s : State) (b : Bool) :
    racedEnd c { s with dstRace := b } = { racedEnd c s with dstRace := b } := by
  unfold racedEnd
  dsimp only
  split <;> rfl

/-- A mark on the destination does not change the end of a command, before its bytes are lost. -/
theorem endCommand_dstRace (i : Instr) (s : State) (b : Bool) :
    endCommand i (ruleOf i) { s with dstRace := b } = { endCommand i (ruleOf i) s with dstRace := b } := by
  have hchecked : checkedOutcome i (ruleOf i) { s with dstRace := b } = checkedOutcome i (ruleOf i) s := by
    simp only [checkedOutcome, ruleOf_dstRace]
    rfl
  simp only [endCommand, hchecked, busOutcome_dstRace, settle_dstRace, racedEnd_dstRace]
  split <;> rfl

/-- The end of a command with its destination raced is its end without, but for the destination bytes lost. -/
theorem runCommand_dstRace (i : Instr) (s : State) (b : Bool) :
    runCommand i (ruleOf i) { s with dstRace := b } = clearRaces (loseDstIf b (endCommand i (ruleOf i) s)) := by
  rw [runCommand, endCommand_dstRace, loseDstIf_dstRace]
  rfl

/-- Settles O20: a write's effects read off, and the two ends compared before the destination is lost. -/
theorem racedDestinationLosesOnlyItsBytes : Obligations.RacedDestinationLosesOnlyItsBytes := by
  refine ⟨fun s a bs h => ?_, fun i s => ?_⟩
  · refine ⟨_, hostAccess_memWrite h s, Memory.storesExactly_writeRange _ _ _, rfl, ?_, ?_, fun x => ?_,
      fun x => mem_removeRange⟩
    · rw [← rangesMeet_iff, ← busy_eq_true_iff, ← Bool.and_eq_true, ← Bool.or_eq_true]
      rfl
    · rw [← rangesMeet_iff, ← busy_eq_true_iff, ← Bool.and_eq_true, ← Bool.or_eq_true]
      rfl
    · rw [hostMemWrite_dirty]
      cases hc : s.platform.coherentDma
      · simp only [Bool.false_eq_true, if_false, mem_addRange, true_and]
        tauto
      · simp
  · refine ⟨_, _, exec_eq i _, exec_eq i _, ?_⟩
    have hk := endCommand_keepsControl i (ruleOf i) s
    rw [runCommand_dstRace, runCommand_dstRace]
    exact ⟨rfl, hk.dstAddr ▸ hk.dstCap ▸ sameOutside_loseDst (endCommand i (ruleOf i) s)⟩

/-! ### WAIT -/

/-- POLL for bit 0 = 0 ends where the word read has bit 0 = 0 (R117). -/
theorem pollEnds_bit0 (w : Word) : pollEnds (.word w) 0x00000001 0x00000000 = !w.getLsbD 0 := by
  have hbit : w &&& 0x00000001 = bitAt (w.getLsbD 0) 0 := (bitAt_zero_eq w).symm
  rw [pollEnds, hbit]
  cases w.getLsbD 0 <;> rfl

theorem getLsbD_zero_statusWord (b0 b1 b2 b3 b8 b9 b10 b11 : Bool) :
    (statusWord b0 b1 b2 b3 b8 b9 b10 b11).getLsbD 0 = b0 := by
  rw [getLsbD_statusWord]
  simp

/-- A read that satisfies the condition ends POLL (R117). -/
theorem hostPoll_ends {addr mask value : Word} {s : State}
    (h : pollEnds (portRead addr 4 s).port mask value = true) : hostPoll addr mask value s = portRead addr 4 s := by
  simp only [hostPoll, h, if_true]

/-- One that does not, while a command runs, is made again after the sequencer's turn (R117, log entry 13). -/
theorem hostPoll_again {addr mask value : Word} {s : State}
    (h : pollEnds (portRead addr 4 s).port mask value = false) (hb : s.busy = true) :
    hostPoll addr mask value s =
      setInputs (.sequencer :: .poll addr mask value :: (portRead addr 4 s).inputs) (portRead addr 4 s) := by
  simp only [hostPoll, h, hb, if_true, Bool.false_eq_true, if_false]

/-- WAIT's poll while a command runs: the sequencer's turn comes, then the poll again (R118, log entry 13). -/
theorem step_wait_busy {s : State} (hp : s.phase = .busy) {rest : List Input}
    (hin : s.inputs = .poll (s.regAddr 0x0010) 0x00000001 0x00000000 :: rest) :
    ∃ d, step s = .next { s with inputs := .sequencer :: s.inputs, port := d, draws := s.draws + 1 } := by
  refine ⟨.word (readBusy (setInputs rest s) .status), (step_of_host (nextTurn_of_host hin nofun)).trans
    (congrArg Host.Outcome.next ?_)⟩
  have hb : (setInputs rest s).busy = true := (busy_eq_true_iff s).2 hp
  have hread : portRead (s.regAddr 0x0010) 4 (setInputs rest s) =
      nextDraw (setPort (.word (readBusy (setInputs rest s) .status)) (setInputs rest s)) :=
    portRead_busy (s := setInputs rest s) (by decide) (by decide) hp
  have hpoll : pollEnds (portRead (s.regAddr 0x0010) 4 (setInputs rest s)).port 0x00000001 0x00000000 = false := by
    rw [hread]
    refine (pollEnds_bit0 _).trans ?_
    rw [readBusy, getLsbD_zero_statusWord, hb]
    rfl
  rw [hostPoll_again hpoll hb, hread, hin]
  rfl

/-- WAIT's poll in phase IDLE ends the statement, and its answer is STATUS (R117). -/
theorem step_wait_idle {s : State} (hp : s.phase = .idle) {rest : List Input}
    (hin : s.inputs = .poll (s.regAddr 0x0010) 0x00000001 0x00000000 :: rest) :
    step s = .next (setPort (.word s.status) (setInputs rest s)) := by
  refine (step_of_host (nextTurn_of_host hin nofun)).trans (congrArg Host.Outcome.next ?_)
  have hread : portRead (s.regAddr 0x0010) 4 (setInputs rest s) = setPort (.word s.status) (setInputs rest s) :=
    portRead_idle (s := setInputs rest s) (by decide) (by decide) hp
  have hpoll : pollEnds (portRead (s.regAddr 0x0010) 4 (setInputs rest s)).port 0x00000001 0x00000000 = true := by
    have hb : s.busy = false := by simp [State.busy, hp]
    rw [hread]
    refine (pollEnds_bit0 s.status).trans ?_
    rw [State.status, getLsbD_zero_statusWord, hb]
    rfl
  exact (hostPoll_ends hpoll).trans hread

/-- The sequencer's mark, next while a command runs, ends it (R55). -/
theorem step_sequencer {s : State} {i : Instr} (hp : s.phase = .busy) (hd : decodeWord s.cmd = .ok i) :
    step { s with inputs := .sequencer :: s.inputs } = .next (runCommand i (ruleOf i) s) :=
  ((stepEndsCommandInFlight { s with inputs := .sequencer :: s.inputs } i hp hd).2 s.inputs rfl).trans (exec_eq i s)

theorem run_three {M : Host.Core} {s t u v : M.State} (h : M.step s = .next t) (h' : M.step t = .next u)
    (h'' : M.step u = .next v) : M.run 3 s = .next v := by
  simp only [Host.Core.run, h, h', h'']

/-- STATUS is of the block alone. -/
theorem status_setPort_setInputs (r : PortResponse) (xs : List Input) (s : State) :
    (setPort r (setInputs xs s)).status = s.status := rfl

/-- Settles O21: the poll puts the sequencer's turn first, the command ends, and the poll reads BUSY = 0. -/
theorem waitSeesTheCommandEnd : Obligations.WaitSeesTheCommandEnd := by
  intro s i hp hd hin
  obtain ⟨d, hpoll⟩ := step_wait_busy hp hin
  have hend := step_sequencer (s := { s with port := d, draws := s.draws + 1 }) hp hd
  have hk := runCommand_keepsControl i (ruleOf i) { s with port := d, draws := s.draws + 1 }
  have hlast := step_wait_idle hk.phase (rest := []) (by rw [State.regAddr, hk.platform, hk.inputs]; exact hin)
  exact ⟨_, run_three (M := core) hpoll hend hlast, hk.phase, rfl,
    congrArg PortResponse.word (status_setPort_setInputs _ _ _).symm⟩

end Sys2Proof.Machine
end
